-- ==== Sys2Proof/Word.lean ====
section
/-!
DEFINITION. The word type of Spectrogram CORE. Every storage and every port moves whole 32-bit words (R60, R61);
a sample, coefficient, dB value or pan value is one of them, read as IEEE 754 binary32 (R11).
-/

namespace Sys2Proof

/-- One 32-bit word of a port or a storage (R60, R90). -/
abbrev Word := BitVec 32

/-- A word read as a binary32 value: sign `[31]`, exponent `[30:23]`, fraction `[22:0]` (R11). -/
abbrev F32 := BitVec 32

/-- One byte of a serialised word; the block itself addresses no bytes (R61). -/
abbrev Byte := BitVec 8

end Sys2Proof
end

