-- ==== Sys2Proof/Config.lean ====
section
/-!
DEFINITION. What an implementation fixes (00_scope.md R8), the names the whole model uses for ports, rings,
channels and storages, and the free values: constants with no body, so that nothing in Lean can know them.
-/

namespace Sys2Proof

/-- `VARIANT`: which analyser the block holds (R8). -/
inductive Variant where
  | mono
  | stereo
deriving DecidableEq, Repr, Inhabited

/-- `windowType`: `0 = Hann`, `1 = BlackmanHarris` (R35). -/
inductive WindowType where
  | hann
  | blackmanHarris
deriving DecidableEq, Repr, Inhabited

/-- The four command ports, one per agent (R90). -/
inductive Port where
  /-- `P`, the real-time producer. -/
  | p
  /-- `D`, the drain context. -/
  | d
  /-- `R`, the render context. -/
  | r
  /-- `G`, whoever reconfigures. -/
  | g
deriving DecidableEq, Repr, Inhabited

/-- The SampleRing an operand `ch` selects (R21, R93). -/
inductive RingId where
  | ring0
  | ring1
deriving DecidableEq, Repr, Inhabited

/-- A channel of the analyser: 0 = left (the only one of a Mono block), 1 = right (R20). -/
inductive Channel where
  | left
  | right
deriving DecidableEq, Repr, Inhabited

/-- The storages of the block (R60), the slots of the FrameRing one by one. -/
inductive Space where
  | ringMem (r : RingId)
  | win
  | acc (c : Channel)
  | fftbuf (c : Channel)
  | mag (slot : Nat)
  | pan (slot : Nat)
deriving DecidableEq, Repr, Inhabited

/-- `FR_N`, the FrameRing's capacity in slots (R7). -/
def frameSlots : Nat := 512

/-- `DB_FLOOR` = −100 as a binary32 word (R7, R191). -/
def dbFloor : F32 := 0xC2C80000

namespace Config

/-- RESET_WINDOW, a parameter the source leaves open (R8, R35): free (log 5). -/
opaque resetWindow : WindowType

/-- The word RESET_OVERLAP is taken from (R8, R36): free; `resetOverlap` of Machine/Numerics.lean brings it into
the legal range (log 5). -/
opaque resetOverlapWord : F32

/-- The free part of `NUM.window` (R154, R155, R160): type, size, index (log 6). -/
opaque window : WindowType → Nat → Nat → F32

/-- The free part of `NUM.mul` (R186, R199): sample, coefficient (log 6). -/
opaque mul : F32 → F32 → F32

/-- The free part of `NUM.rfft` (R187, R199): size, the windowed samples, bin; real and imaginary part (log 6). -/
opaque rfft : Nat → List F32 → Nat → F32 × F32

/-- The free part of `NUM.mag` (R189, R199): real part, imaginary part, size (log 6). -/
opaque mag : F32 → F32 → Nat → F32

/-- The free part of `NUM.db` (R191, R199): magnitude (log 6). -/
opaque db : F32 → F32

/-- The free part of `NUM.mean2` (R214): left and right magnitude (log 6). -/
opaque mean2 : F32 → F32 → F32

/-- The free part of `NUM.pan` (R215, R217): left and right magnitude (log 6). -/
opaque pan : F32 → F32 → F32

/-- The dB words of a frame that holds a non-finite sample: any value (R195), by draw and bin (log 8). -/
opaque anyMag : Nat → Nat → F32

/-- The pan words of a frame that holds a non-finite sample: any value (R195), by draw and bin (log 8). -/
opaque anyPan : Nat → Nat → F32

/-- What a storage word holds that nothing has written since its contents became unspecified (R49, U14, U15): any
value, by storage, draw and index (log 2). -/
opaque unwritten : Space → Nat → Nat → F32

end Config

end Sys2Proof
end

