-- ==== Sys2Proof/Syntax.lean ====
section
/-!
DEFINITION. The commands of Spectrogram CORE, one constructor per row of 30_encoding.md R94. A count operand `n` that
is followed by payload words is the length of the payload list.
-/

namespace Sys2Proof

/-- A command with its operands (R92, R94, R101). -/
inductive Instr where
  /-- `SR_SETSIZE ch, lc` (R121). -/
  | srSetSize (ch : RingId) (lc : BitVec 5)
  /-- `SR_PUSH ch, n, data` (R122); `n` is the number of payload words. -/
  | srPush (ch : RingId) (data : List F32)
  /-- `SR_POP ch, n` (R125). -/
  | srPop (ch : RingId) (n : BitVec 23)
  /-- `SR_GETFREE ch` (R127). -/
  | srGetFree (ch : RingId)
  /-- `SR_GETREADY ch` (R128). -/
  | srGetReady (ch : RingId)
  /-- `PREPARE order, rate` (R152). -/
  | prepare (order : BitVec 8) (rate : F32)
  /-- `SETWINDOW type` (R156). -/
  | setWindow (type : WindowType)
  /-- `SETOVERLAP frac` (R157). -/
  | setOverlap (frac : F32)
  /-- `GETFFTSIZE` (R162). -/
  | getFftSize
  /-- `GETNUMBINS` (R163). -/
  | getNumBins
  /-- `GETSAMPLERATE` (R164). -/
  | getSampleRate
  /-- `PUSHSAMPLES n, data` (R181); `n` is the number of payload words. -/
  | pushSamples (data : List F32)
  /-- `PUSHSAMPLES2 n, left, right` (R211); `n` is the number of words of each. -/
  | pushSamples2 (left right : List F32)
  /-- `PULLFRAME n` (R235). -/
  | pullFrame (n : BitVec 24)
  /-- `PULLFRAME2` (R237). -/
  | pullFrame2
deriving DecidableEq, Repr

end Sys2Proof
end

