-- ==== Sys2Proof/WellFormed.lean ====
section
/-!
DEFINITION. Which commands an encoding exists for: a count fits its field (R92, R93) and the two payloads of
PUSHSAMPLES2 have one length (R211). Illegal operand values are not ill-formed (R98): the meanings refuse them.
-/

namespace Sys2Proof

/-- The command can be encoded: its counts fit 23 or 24 bits and a stereo payload is a pair of equal lengths. -/
def Instr.wellFormed : Instr → Bool
  | .srSetSize _ _ => true
  | .srPush _ data => decide (data.length < 2 ^ 23)
  | .srPop _ _ => true
  | .srGetFree _ => true
  | .srGetReady _ => true
  | .prepare _ _ => true
  | .setWindow _ => true
  | .setOverlap _ => true
  | .getFftSize => true
  | .getNumBins => true
  | .getSampleRate => true
  | .pushSamples data => decide (data.length < 2 ^ 24)
  | .pushSamples2 left right => decide (left.length < 2 ^ 24) && decide (left.length = right.length)
  | .pullFrame _ => true
  | .pullFrame2 => true

end Sys2Proof
end

