-- ==== Sys2Proof/Decode.lean ====
section
/-!
DEFINITION. The command words: the opcode table of 30_encoding.md R94 as masks and patterns, the decoder of R91..R95
(total on any words, rejecting by name), the encoder written from the same tables, and the little-endian
serialisation of R61.
-/

namespace Sys2Proof

/-! ## The opcode table (R94) -/

/-- The fifteen opcodes of R94. -/
inductive Op where
  | srSetSize
  | srPush
  | srPop
  | srGetFree
  | srGetReady
  | prepare
  | setWindow
  | setOverlap
  | getFftSize
  | getNumBins
  | getSampleRate
  | pushSamples
  | pushSamples2
  | pullFrame
  | pullFrame2
deriving DecidableEq, Repr

/-- One row of R94: a command word `w` selects it when `(w and mask) = pattern`; the ports that accept it and the
variant it exists in (`none` = any). -/
structure OpcodeRow where
  pattern : Word
  mask : Word
  ports : List Port
  variant : Option Variant
deriving DecidableEq, Repr

/-- The row of each opcode, as R94 prints it. -/
def Op.row : Op → OpcodeRow
  | .srSetSize => ⟨0x01000000, 0xFF7FFFE0, [.g], none⟩
  | .srPush => ⟨0x02000000, 0xFF000000, [.p], none⟩
  | .srPop => ⟨0x03000000, 0xFF000000, [.d], none⟩
  | .srGetFree => ⟨0x04000000, 0xFF7FFFFF, [.p, .d], none⟩
  | .srGetReady => ⟨0x05000000, 0xFF7FFFFF, [.p, .d], none⟩
  | .prepare => ⟨0x10000000, 0xFFFFFF00, [.g], none⟩
  | .setWindow => ⟨0x11000000, 0xFFFFFFFE, [.g], none⟩
  | .setOverlap => ⟨0x12000000, 0xFFFFFFFF, [.g], none⟩
  | .getFftSize => ⟨0x13000000, 0xFFFFFFFF, [.p, .d, .r, .g], none⟩
  | .getNumBins => ⟨0x14000000, 0xFFFFFFFF, [.p, .d, .r, .g], none⟩
  | .getSampleRate => ⟨0x15000000, 0xFFFFFFFF, [.p, .d, .r, .g], none⟩
  | .pushSamples => ⟨0x20000000, 0xFF000000, [.d], some .mono⟩
  | .pushSamples2 => ⟨0x21000000, 0xFF000000, [.d], some .stereo⟩
  | .pullFrame => ⟨0x28000000, 0xFF000000, [.r], some .mono⟩
  | .pullFrame2 => ⟨0x29000000, 0xFFFFFFFF, [.r], some .stereo⟩

/-- The rows in the order of R94. -/
def allOps : List Op :=
  [.srSetSize, .srPush, .srPop, .srGetFree, .srGetReady, .prepare, .setWindow, .setOverlap,
   .getFftSize, .getNumBins, .getSampleRate, .pushSamples, .pushSamples2, .pullFrame, .pullFrame2]

/-- The row's match: `(w and mask) = pattern` (R94). -/
def Op.accepts (op : Op) (w : Word) : Bool := (w &&& op.row.mask) == op.row.pattern

/-- The row a command word selects; `none` is a reserved encoding (R97, R99). -/
def opOf (w : Word) : Option Op := allOps.find? (fun op => op.accepts w)

/-- The row a command belongs to. -/
def Instr.op : Instr → Op
  | .srSetSize _ _ => .srSetSize
  | .srPush _ _ => .srPush
  | .srPop _ _ => .srPop
  | .srGetFree _ => .srGetFree
  | .srGetReady _ => .srGetReady
  | .prepare _ _ => .prepare
  | .setWindow _ => .setWindow
  | .setOverlap _ => .setOverlap
  | .getFftSize => .getFftSize
  | .getNumBins => .getNumBins
  | .getSampleRate => .getSampleRate
  | .pushSamples _ => .pushSamples
  | .pushSamples2 _ _ => .pushSamples2
  | .pullFrame _ => .pullFrame
  | .pullFrame2 => .pullFrame2

/-- The SampleRing a command names, for the commands that name one (R92: formats RS, RC, RQ, RL). -/
def Instr.ring? : Instr → Option RingId
  | .srSetSize ch _ => some ch
  | .srPush ch _ => some ch
  | .srPop ch _ => some ch
  | .srGetFree ch => some ch
  | .srGetReady ch => some ch
  | .prepare _ _ => none
  | .setWindow _ => none
  | .setOverlap _ => none
  | .getFftSize => none
  | .getNumBins => none
  | .getSampleRate => none
  | .pushSamples _ => none
  | .pushSamples2 _ _ => none
  | .pullFrame _ => none
  | .pullFrame2 => none

/-! ## Fields (R92, R93) -/

/-- `ch` as a ring: `s = ch` (R93). -/
def ringOfBit (b : BitVec 1) : RingId := if b = 1#1 then .ring1 else .ring0

/-- The `ch` bit of a ring. -/
def RingId.bit : RingId → BitVec 1
  | .ring0 => 0#1
  | .ring1 => 1#1

/-- SETWINDOW's `k8[0]`: `0 = Hann`, `1 = BlackmanHarris` (R94). -/
def windowOfBit (b : BitVec 1) : WindowType := if b = 1#1 then .blackmanHarris else .hann

/-- The type bit of a window. -/
def WindowType.bit : WindowType → BitVec 1
  | .hann => 0#1
  | .blackmanHarris => 1#1

/-- `ch = [23]`. -/
def fieldCh (w : Word) : BitVec 1 := w.extractLsb' 23 1

/-- `n = [22:0]` of formats RS and RC. -/
def fieldN23 (w : Word) : BitVec 23 := w.extractLsb' 0 23

/-- `n = [23:0]` of formats NS, NS2 and N. -/
def fieldN24 (w : Word) : BitVec 24 := w.extractLsb' 0 24

/-- `lc = [4:0]` of format RL. -/
def fieldLc (w : Word) : BitVec 5 := w.extractLsb' 0 5

/-- `k8 = [7:0]` of formats K and KW. -/
def fieldK8 (w : Word) : BitVec 8 := w.extractLsb' 0 8

/-- `k8[0]` of SETWINDOW. -/
def fieldType (w : Word) : BitVec 1 := w.extractLsb' 0 1

/-! ## Decoding (R91, R95) -/

/-- How many words follow the command word (R95): `n` for RS and NS, `2·n` for NS2, one for KW and W, else none. -/
def Op.need (op : Op) (w : Word) : Nat :=
  match op with
  | .srPush => (fieldN23 w).toNat
  | .pushSamples => (fieldN24 w).toNat
  | .pushSamples2 => 2 * (fieldN24 w).toNat
  | .prepare => 1
  | .setOverlap => 1
  | .srSetSize | .srPop | .srGetFree | .srGetReady | .setWindow | .getFftSize | .getNumBins
  | .getSampleRate | .pullFrame | .pullFrame2 => 0

/-- The command a command word and the words after it make (R92, R93). The words are those offered after the command
word; of more than `Op.need` of them only the first are the command's. -/
def assemble (op : Op) (w : Word) (payload : List Word) : Instr :=
  match op with
  | .srSetSize => .srSetSize (ringOfBit (fieldCh w)) (fieldLc w)
  | .srPush => .srPush (ringOfBit (fieldCh w)) (payload.take (fieldN23 w).toNat)
  | .srPop => .srPop (ringOfBit (fieldCh w)) (fieldN23 w)
  | .srGetFree => .srGetFree (ringOfBit (fieldCh w))
  | .srGetReady => .srGetReady (ringOfBit (fieldCh w))
  | .prepare => .prepare (fieldK8 w) (payload.headD 0)
  | .setWindow => .setWindow (windowOfBit (fieldType w))
  | .setOverlap => .setOverlap (payload.headD 0)
  | .getFftSize => .getFftSize
  | .getNumBins => .getNumBins
  | .getSampleRate => .getSampleRate
  | .pushSamples => .pushSamples (payload.take (fieldN24 w).toNat)
  | .pushSamples2 =>
      .pushSamples2 (payload.take (fieldN24 w).toNat)
        ((payload.drop (fieldN24 w).toNat).take (fieldN24 w).toNat)
  | .pullFrame => .pullFrame (fieldN24 w)
  | .pullFrame2 => .pullFrame2

/-- What a port's words decode to. -/
inductive Decoded where
  /-- A command and the words after it. -/
  | command (i : Instr) (rest : List Word)
  /-- The first word matches no row of its port: a reserved encoding (R97), one word long, so the words after it are left
  (R95). `row` is the row of R94 it selects, whose ports do not include this one, if it selects any. -/
  | reserved (row : Option Op) (rest : List Word)
  /-- The command word is there, its operand or payload words are not all offered yet (R95). -/
  | incomplete
  /-- No word is offered. -/
  | nothing
deriving DecidableEq, Repr

/-- Decoding of the words of port `q`: the command word selects a row of that port, the row says how many words follow; a
word that matches no row of its port is taken alone (R95). -/
def decode (q : Port) : List Word → Decoded
  | [] => .nothing
  | w :: rest =>
    match opOf w with
    | none => .reserved none rest
    | some op =>
      if op.row.ports.contains q = false then .reserved (some op) rest
      else if op.need w ≤ rest.length then .command (assemble op w rest) (rest.drop (op.need w))
      else .incomplete

/-- The first port of R94 that accepts the command word; port `G` for a reserved one. -/
def portFor (head : Word) : Port :=
  match opOf head with
  | some op => op.row.ports.headD .g
  | none => .g

/-! ## Encoding -/

/-- The command word of a command (R91, R92). -/
def encodeHead : Instr → Word
  | .srSetSize ch lc => 0x01#8 ++ (ch.bit ++ (0#18 ++ lc))
  | .srPush ch data => 0x02#8 ++ (ch.bit ++ BitVec.ofNat 23 data.length)
  | .srPop ch n => 0x03#8 ++ (ch.bit ++ n)
  | .srGetFree ch => 0x04#8 ++ (ch.bit ++ 0#23)
  | .srGetReady ch => 0x05#8 ++ (ch.bit ++ 0#23)
  | .prepare order _ => 0x10#8 ++ (0#16 ++ order)
  | .setWindow type => 0x11#8 ++ (0#23 ++ type.bit)
  | .setOverlap _ => 0x12000000
  | .getFftSize => 0x13000000
  | .getNumBins => 0x14000000
  | .getSampleRate => 0x15000000
  | .pushSamples data => 0x20#8 ++ BitVec.ofNat 24 data.length
  | .pushSamples2 left _ => 0x21#8 ++ BitVec.ofNat 24 left.length
  | .pullFrame n => 0x28#8 ++ n
  | .pullFrame2 => 0x29000000

/-- The operand and payload words of a command, in the order they cross the port (R92). -/
def encodePayload : Instr → List Word
  | .srSetSize _ _ => []
  | .srPush _ data => data
  | .srPop _ _ => []
  | .srGetFree _ => []
  | .srGetReady _ => []
  | .prepare _ rate => [rate]
  | .setWindow _ => []
  | .setOverlap frac => [frac]
  | .getFftSize => []
  | .getNumBins => []
  | .getSampleRate => []
  | .pushSamples data => data
  | .pushSamples2 left right => left ++ right
  | .pullFrame _ => []
  | .pullFrame2 => []

/-- The words of a command: the command word, then operand and payload words (R91, R95). -/
def encode (i : Instr) : List Word := encodeHead i :: encodePayload i

/-! ## Serialised words (R61) -/

/-- A word as bytes, byte 0 carrying bits `[7:0]` (R61). -/
def bytesOfWord (w : Word) : List Byte :=
  [w.extractLsb' 0 8, w.extractLsb' 8 8, w.extractLsb' 16 8, w.extractLsb' 24 8]

/-- Words as bytes, in order (R61). -/
def bytesOfWords : List Word → List Byte
  | [] => []
  | w :: ws => bytesOfWord w ++ bytesOfWords ws

/-- Bytes as words; a tail of fewer than four bytes makes no word (R61). -/
def wordsOfBytes : List Byte → List Word
  | b0 :: b1 :: b2 :: b3 :: rest => (b3 ++ (b2 ++ (b1 ++ b0))) :: wordsOfBytes rest
  | _ => []

/-! ## The opcode table's numbering -/

/-- The words of a command whose bits are `w`: bit 0 is the least significant bit of the command word, the next word's
bits follow from bit 32; bits from `nbits` up are zero. -/
def tableWords (nbits w : Nat) : List Word :=
  let bits := w % 2 ^ nbits
  let head : Word := BitVec.ofNat 32 bits
  let count := match opOf head with
    | some op => op.need head
    | none => 0
  head :: (List.range count).map (fun k => BitVec.ofNat 32 (bits >>> (32 * (k + 1))))

/-- What the decoder of the first port that accepts it reads from a command whose bits are `w`, numbered as the opcode table
numbers them. -/
def decodeTableWord (nbits w : Nat) : Option Instr :=
  let words := tableWords nbits w
  match decode (portFor (words.headD 0)) words with
  | .command i _ => some i
  | .reserved _ _ | .incomplete | .nothing => none

end Sys2Proof
end

