-- ==== Sys2Proof/Machine/Numerics.lean ====
section
/-!
DEFINITION. Binary32 words as exact numbers (R11) and the numerics record NUM (R13): each function is the free function
of Config, held to the properties the spec names for it (R160, R199, R217) and to no others. The hop size is the
spec's default instance, computed exactly (R158, D18). The real formulas NUM's results stand for are in
Machine/Reference.lean.
-/

namespace Sys2Proof.Machine

open Sys2Proof

/-! ## Binary32 words (R11) -/

/-- The exponent field `[30:23]`. -/
def exponentField (x : F32) : Nat := (x.extractLsb' 23 8).toNat

/-- The fraction field `[22:0]`. -/
def fractionField (x : F32) : Nat := (x.extractLsb' 0 23).toNat

/-- The sign bit `[31]`. -/
def isNegativeSign (x : F32) : Bool := x.getLsbD 31

/-- NaN: exponent field all ones, fraction not zero. -/
def isNaN (x : F32) : Bool := exponentField x == 255 && fractionField x != 0

/-- Neither infinite nor NaN. -/
def isFinite (x : F32) : Bool := exponentField x != 255

/-- `+0.0` or `−0.0`. -/
def isZero (x : F32) : Bool := exponentField x == 0 && fractionField x == 0

/-- `2^149`: every finite binary32 value is a whole number of `2^−149`. -/
def oneUnit : Nat := 2 ^ 149

/-- `|real(x)|` in units of `2^−149`. An infinity counts as `2^128`, above every finite value. -/
def absScaled (x : F32) : Nat :=
  if exponentField x = 0 then fractionField x
  else (2 ^ 23 + fractionField x) * 2 ^ (exponentField x - 1)

/-- `real(x)` in units of `2^−149` (R11). -/
def scaled (x : F32) : Int :=
  if isNegativeSign x then -(absScaled x : Int) else (absScaled x : Int)

/-- The words `0.0`, `1.0` and `−1.0`. -/
def plusZero : F32 := 0x00000000

@[inherit_doc plusZero]
def plusOne : F32 := 0x3F800000

@[inherit_doc plusZero]
def minusOne : F32 := 0xBF800000

/-- A zero with the sign of `r`: what is known of a result whose real value is 0. -/
def zeroLike (r : F32) : F32 := r &&& 0x80000000

/-- `r` with a negative value's sign removed: what is known of a result whose real value is not negative. -/
def nonNegative (r : F32) : F32 := if scaled r < 0 then r &&& 0x7FFFFFFF else r

/-- `r` brought into `[lo, hi]`; a NaN becomes `lo`. -/
def clampTo (lo hi r : F32) : F32 :=
  if isNaN r then lo
  else if scaled r < scaled lo then lo
  else if scaled hi < scaled r then hi
  else r

/-! ## The overlap register (R157) and the hop size (R158) -/

/-- The largest overlap, 0.875 = `0x3F600000` (R157). -/
def maxOverlap : F32 := 0x3F600000

/-- SETOVERLAP's clamp on the real value: below 0 gives `+0.0`, above 0.875 gives 0.875; `−0.0` stays (R157, D30). -/
def clampOverlap (f : F32) : F32 :=
  if scaled f < 0 then plusZero
  else if 7 * (oneUnit : Int) < 8 * scaled f then maxOverlap
  else f

/-- RESET_OVERLAP: free in `[0, 0.875]` (R8, R36; log 5). -/
def resetOverlap : F32 := clampOverlap Config.resetOverlapWord

/-- A non-negative value in units of `2^−149` rounded to 24 significant bits, to nearest, ties to even. -/
def roundSignificand (d : Nat) : Nat :=
  if d < 2 ^ 24 then d
  else
    let drop := Nat.log2 d - 23
    let kept := d / 2 ^ drop
    let rest := d % 2 ^ drop
    let half := 2 ^ (drop - 1)
    if half < rest ∨ (rest = half ∧ kept % 2 = 1) then (kept + 1) * 2 ^ drop else kept * 2 ^ drop

namespace Numerics

/-- `NUM.hop(N, f)`, the default instance of R158 (log 7): `t = fsub(1.0, f)` rounded to binary32, `p = N·t` (exact, `N`
a power of two), `max(1, floor(p))`. -/
def hop (size : Nat) (f : F32) : Nat :=
  max 1 (size * roundSignificand ((oneUnit : Int) - scaled f).toNat / oneUnit)

/-! ## NUM, held to its named properties (R13; log 6) -/

/-- `NUM.window(type, N, i)` (R154, R155): Hann is symmetric (W1) with `+0.0` at both ends (W2); every coefficient is in
`[0, 1]` (W3) and depends on its operands alone (W4). -/
def window (type : WindowType) (size i : Nat) : F32 :=
  match type with
  | .hann =>
    if i = 0 ∨ i + 1 = size then plusZero
    else clampTo plusZero plusOne (Config.window .hann size (min i (size - 1 - i)))
  | .blackmanHarris => clampTo plusZero plusOne (Config.window .blackmanHarris size i)

/-- `NUM.mul(sample, coefficient)` (R186): a zero sample gives a zero (F1, S1). Of a zero coefficient no property speaks,
and the product is free. -/
def mul (x w : F32) : F32 :=
  let r := Config.mul x w
  if isZero x then zeroLike r else r

/-- Bin `k` of `NUM.rfft(N, y)` (R187): all-zero input gives a zero in every bin (F1, S1). -/
def rfft (size : Nat) (y : List F32) (k : Nat) : F32 × F32 :=
  let r := Config.rfft size y k
  if y.all isZero then (zeroLike r.1, zeroLike r.2) else r

/-- `NUM.mag(re, im, N)` (R189): never negative, and a zero where both parts are zero (F1, S1). -/
def mag (re im : F32) (size : Nat) : F32 :=
  let r := Config.mag re im size
  if isZero re && isZero im then zeroLike r else nonNegative r

/-- The floor of R191: at least −100, never NaN. -/
def floorDb (r : F32) : F32 := if isNaN r || decide (scaled r < scaled dbFloor) then dbFloor else r

/-- `NUM.db(mag)` (R191): exactly −100 where `mag ≤ 10^−5` or `mag > 0` fails, and never below −100 nor NaN (F2). A NaN
magnitude fails `mag > 0` (R195); that this also holds of one that overflow makes of finite samples is DEDUCED
(log 30). -/
def db (m : F32) : F32 :=
  if isNaN m || decide (scaled m * 10 ^ 5 ≤ (oneUnit : Int)) then dbFloor else floorDb (Config.db m)

/-- `NUM.mean2(magL, magR)` (R214): never negative, and a zero where both are zero (S5). -/
def mean2 (a b : F32) : F32 :=
  let r := Config.mean2 a b
  if isZero a && isZero b then zeroLike r else nonNegative r

/-- `NUM.pan(magL, magR)` (R215): 0 where `magL + magR ≤ 10^−10` (S5; its sign log 22, the exact comparison log 29); a
zero for equal magnitudes (S2); exactly −1 or +1 where one of them is zero and the other a number above the threshold
(S3); always in `[−1, +1]` (S4). The pan of a NaN magnitude, which overflow can make of finite samples, is a value the
spec does not state: it is free within S2 and S4 (DESIGN CHOICE, log 30). -/
def pan (a b : F32) : F32 :=
  if isNaN a || isNaN b then
    if a = b then zeroLike (Config.pan a b) else clampTo minusOne plusOne (Config.pan a b)
  else if (scaled a + scaled b) * 10 ^ 10 ≤ (oneUnit : Int) then plusZero
  else if a = b then zeroLike (Config.pan a b)
  else if isZero b then minusOne
  else if isZero a then plusOne
  else clampTo minusOne plusOne (Config.pan a b)

end Numerics

end Sys2Proof.Machine
end

