-- ==== Sys2Proof/Machine/State.lean ====
section
/-!
DEFINITION. The state of the block: everything 10_state.md R20 lists, the words on the four ports (R90), and the model's
own plain data (whose turn it is, how many free draws were made). With it the reasons a step can stop (the closed
lists of R282) and the state after power-on reset (R49, R290).
-/

namespace Sys2Proof.Machine

open Sys2Proof

/-! ## Why a step stops -/

/-- The faults of R282. The hardware signals none of them; a run that meets one was used outside SPG's contract. -/
inductive Fault where
  /-- A reconfiguration command overlaps a command it must not overlap (R77, R297, R298; log 13). Raised by every
  meaning's hazard test, at the begin of a command and at its end. Safe: the source leaves the behaviour undefined. -/
  | reconfigRace
  /-- A second command begins on a port that has one in progress (R296, R40). Raised by the turn `start`. Safe: the
  source allows one agent per port. -/
  | secondProducerOrConsumer
  /-- A pull finds that `2^32` or more frames were pushed since frame `FR.r` (R301). Raised by PULLFRAME and PULLFRAME2.
  Safe: the result is outside the spec. -/
  | frameSeqAlias
deriving DecidableEq, Repr

/-- The refusals of R282, and the one for a command without a meaning. -/
inductive Refusal where
  /-- The command word selects no row of R94 (R97, R99). Raised by the port's turn. Safe. -/
  | reservedEncoding
  /-- The opcode is not accepted on the port it arrived on (R97). Raised by every meaning. Safe. -/
  | wrongPort
  /-- The opcode belongs to the other variant (R97). Raised by PUSHSAMPLES, PUSHSAMPLES2, PULLFRAME, PULLFRAME2. Safe. -/
  | wrongVariant
  /-- `ch = 1` on a Mono block (R97). Raised by every SampleRing command. Safe. -/
  | noSuchRing
  /-- The SampleRing was never sized (R120). Raised by SR_PUSH, SR_POP, SR_GETFREE, SR_GETREADY. Safe. -/
  | ringNotSized
  /-- SR_SETSIZE with `lc = 0` or `lc > LC_MAX` (R121). Safe. -/
  | badRingSize
  /-- PREPARE with an order outside 10..13 (R153). Safe. -/
  | badFftOrder
  /-- SETOVERLAP with a NaN (R159). Safe. -/
  | nanOverlap
  /-- An accessor or a data command before the first PREPARE (R165). Safe. -/
  | unconfigured
  /-- A command that has no meaning in the model yet. Raised by exec's arms only. Safe. -/
  | notModelled (mnemonic : String)
deriving DecidableEq, Repr

/-! ## Storages -/

/-- A storage of the block (R60): the words written, each with its index, indices strictly rising. An index that is not
listed holds no value (R49). -/
abbrev Memory (α : Type) := List (Nat × α)

/-- The canonical form: indices strictly rising, so that equal storages are equal lists. -/
abbrev Memory.wf {α : Type} (m : Memory α) : Prop := (m.map Prod.fst).Pairwise (· < ·)

/-- One slot of the FrameRing (R44): `mag`, and `pan` in a Stereo block (empty in a Mono one). -/
structure Slot where
  mag : List F32
  pan : List F32
deriving DecidableEq, Repr

/-! ## Components -/

/-- A SampleRing (R22..R27). Cursors and views are numbers kept below `2C` (R129). -/
structure SampleRing where
  /-- The ring exists (R22). -/
  sized : Bool
  /-- log2 of the capacity (R22). -/
  lc : BitVec 5
  /-- Write cursor, owned by the producer side (R23). -/
  wp : Nat
  /-- Read cursor, owned by the consumer side (R24). -/
  rp : Nat
  /-- The producer side's view of `rp` (R25). -/
  rv : Nat
  /-- The consumer side's view of `wp` (R26). -/
  wv : Nat
  /-- The sample slots (R27). -/
  mem : Memory F32
deriving DecidableEq, Repr

/-- The analyser state machine (R32). -/
inductive AnalyserState where
  | unconfigured
  | ready
deriving DecidableEq, Repr

/-- The configuration registers (R32..R37). -/
structure Cfg where
  state : AnalyserState
  sampleRate : F32
  fftOrder : BitVec 4
  windowType : WindowType
  overlap : F32
  /-- 14 bits (R37, R39). -/
  fftSize : Nat
  /-- 13 bits (R37, R39). -/
  numBins : Nat
  /-- 14 bits (R37, R39). -/
  hopSize : Nat
deriving DecidableEq, Repr

/-- The FrameRing (R30, R31, R38, R44). -/
structure FrameRing where
  /-- Write cursor (R30). -/
  w : BitVec 32
  /-- Read cursor (R31). -/
  r : BitVec 32
  /-- Words per slot array, 13 bits (R38). -/
  bins : Nat
  /-- The slots by number, 0 to 511 (R44). -/
  slots : Memory Slot
  /-- The model's own: the true number of frames pushed since frame `FR.r`, which R301 is about (log 15). -/
  trueLead : Nat
deriving DecidableEq, Repr

/-- A command port (R90; log 10). -/
structure PortState where
  /-- Words offered and not yet taken, first first. -/
  input : List Word
  /-- The command word of the command in progress (R40, R298). -/
  busy : Option Word
  /-- The model's own: the free space or the ready count measured when the SR_PUSH or SR_POP in progress began (R71). -/
  measured : Option Nat
  /-- Response words given, first first (R100). -/
  output : List Word
deriving DecidableEq, Repr

/-- One turn of the schedule (R72; log 9, log 12). -/
inductive Turn where
  /-- The port completes its command in progress, or takes its next command and completes it. -/
  | run (q : Port)
  /-- The port takes its next command word: the command is in progress (R298). -/
  | start (q : Port)
  /-- Port `D` processes the next `k` samples of its PUSHSAMPLES or PUSHSAMPLES2 in progress (R181, R211). -/
  | part (k : Nat)
  /-- SYNC_W on a ring: the view `wv` moves `k` values forward, at most to `wp` (R68). -/
  | syncW (s : RingId) (k : Nat)
  /-- SYNC_R on a ring: the view `rv` moves `k` values forward, at most to `rp` (R69). -/
  | syncR (s : RingId) (k : Nat)
deriving DecidableEq, Repr

/-! ## The state -/

/-- The whole machine (R20). -/
structure State where
  /-- `VARIANT`, fixed for the machine (R8; log 4). -/
  variant : Variant
  /-- `LC_MAX`, fixed for the machine (R8; log 4). -/
  lcMax : Nat
  /-- `SR[0]` (R21). -/
  ring0 : SampleRing
  /-- `SR[1]`, which a Mono block does not have (R21). -/
  ring1 : SampleRing
  /-- `CFG` (R32..R37). -/
  cfg : Cfg
  /-- `WIN` (R41). -/
  win : Memory F32
  /-- `ACC[0]` (R42). -/
  acc0 : Memory F32
  /-- `ACC[1]`, which a Mono block does not have (R42). -/
  acc1 : Memory F32
  /-- `ACC.writePos`, 14 bits (R29). -/
  writePos : Nat
  /-- `FFTBUF[0]` (R43). -/
  fftbuf0 : Memory F32
  /-- `FFTBUF[1]` (R43). -/
  fftbuf1 : Memory F32
  /-- `FR` (R30, R31, R38, R44). -/
  fr : FrameRing
  /-- Port `P` (R90). -/
  portP : PortState
  /-- Port `D` (R90). -/
  portD : PortState
  /-- Port `R` (R90). -/
  portR : PortState
  /-- Port `G` (R90). -/
  portG : PortState
  /-- The model's own: the port whose command is being run (log 9). -/
  active : Port
  /-- The model's own: the turns to come, first first (log 9). -/
  agenda : List Turn
  /-- The model's own: how many free draws were made (log 8). -/
  draws : Nat
deriving DecidableEq, Repr

/-! ## Reset (R49, R290) -/

/-- A SampleRing after reset: not sized, cursors and views 0, no slot written (R49); `LC` log 3. -/
def SampleRing.reset : SampleRing :=
  { sized := false, lc := 0, wp := 0, rp := 0, rv := 0, wv := 0, mem := [] }

/-- A port before anything crossed it. -/
def PortState.reset : PortState := { input := [], busy := none, measured := none, output := [] }

/-- The FrameRing after reset (R49); `bins` log 3. -/
def FrameRing.reset : FrameRing := { w := 0, r := 0, bins := 0, slots := [], trueLead := 0 }

/-- The configuration after reset (R49); the registers without a reset value, log 3. -/
def Cfg.reset (window : WindowType) (overlap : F32) : Cfg :=
  { state := .unconfigured, sampleRate := 0, fftOrder := 0, windowType := window, overlap := overlap
    fftSize := 0, numBins := 0, hopSize := 0 }

/-- Power-on reset of a block with the given parameters (R8, R49, R290). -/
def State.resetWith (variant : Variant) (lcMax : Nat) (window : WindowType) (overlap : F32) : State :=
  { variant := variant, lcMax := lcMax
    ring0 := SampleRing.reset, ring1 := SampleRing.reset
    cfg := Cfg.reset window overlap
    win := [], acc0 := [], acc1 := [], writePos := 0, fftbuf0 := [], fftbuf1 := []
    fr := FrameRing.reset
    portP := PortState.reset, portD := PortState.reset, portR := PortState.reset, portG := PortState.reset
    active := .p, agenda := [], draws := 0 }

/-- The machine right after reset: a Mono block with LC_MAX = 16 (log 4), RESET_WINDOW and RESET_OVERLAP free (log 5). -/
def State.reset : State := State.resetWith .mono 16 Config.resetWindow resetOverlap

end Sys2Proof.Machine
end

