-- ==== Sys2Proof/Machine/Ops.lean ====
section
/-!
DEFINITION. The named operations over storages and registers: reading and writing words (R12, R60), the accessors of
State, the Gray code (R10), the synchroniser steps (R68, R69), and the tests that leave a command without a meaning
(R97, R98, R120, R121, R151, R165, R297, R301, in the order of R273). The block takes no exceptions (R270, R274): `guarded` is the
one place where a command stops.
-/

namespace Sys2Proof.Machine

open Sys2Proof

/-! ## Storages (R12, R60) -/

/-- `MemRead`: the word at an index, if one was written. -/
def Memory.read {α : Type} : Memory α → Nat → Option α
  | [], _ => none
  | (b, v) :: m, a => if b = a then some v else Memory.read m a

/-- `MemWrite`: the storage with one word written; the canonical form is kept. -/
def Memory.write {α : Type} : Memory α → Nat → α → Memory α
  | [], a, v => [(a, v)]
  | (b, u) :: m, a, v =>
    if a < b then (a, v) :: (b, u) :: m
    else if a = b then (a, v) :: m
    else (b, u) :: Memory.write m a v

/-- A storage whose words from index `i` on are the given ones, and no others. -/
def Memory.ofListFrom {α : Type} : Nat → List α → Memory α
  | _, [] => []
  | i, v :: vs => (i, v) :: Memory.ofListFrom (i + 1) vs

/-- The words written one after another at the indices `start mod size`, `(start + 1) mod size`, … (R130). -/
def Memory.writeRun {α : Type} (size start : Nat) : List α → Memory α → Memory α
  | [], m => m
  | v :: vs, m => Memory.writeRun size (start + 1) vs (Memory.write m (start % size) v)

/-- The overlap shift of R184: index `j < size − hop` takes what index `j + hop` held, indices from `size − hop` on keep
what they held. -/
def Memory.shiftDown {α : Type} (size hop : Nat) (m : Memory α) : Memory α :=
  ((m.filter (fun c => decide (hop ≤ c.1) && decide (c.1 < size))).map (fun c => (c.1 - hop, c.2)))
    ++ m.filter (fun c => decide (size - hop ≤ c.1))

/-- The word at an index of a storage; a word nothing has written is any value (R49, U14; log 2). -/
def wordOf (space : Space) (draws : Nat) (m : Memory F32) (a : Nat) : F32 :=
  (m.read a).getD (Config.unwritten space draws a)

/-! ## Accessors -/

/-- `SR[s]`. -/
def State.ring (s : State) : RingId → SampleRing
  | .ring0 => s.ring0
  | .ring1 => s.ring1

/-- `SR[s]` replaced. -/
def State.setRing (s : State) (q : RingId) (x : SampleRing) : State :=
  match q with
  | .ring0 => { s with ring0 := x }
  | .ring1 => { s with ring1 := x }

/-- The words on a port. -/
def State.port (s : State) : Port → PortState
  | .p => s.portP
  | .d => s.portD
  | .r => s.portR
  | .g => s.portG

/-- The words on a port replaced. -/
def State.setPort (s : State) (q : Port) (x : PortState) : State :=
  match q with
  | .p => { s with portP := x }
  | .d => { s with portD := x }
  | .r => { s with portR := x }
  | .g => { s with portG := x }

/-- `ACC[c]`. -/
def State.acc (s : State) : Channel → Memory F32
  | .left => s.acc0
  | .right => s.acc1

/-- `ACC[c]` replaced. -/
def State.setAcc (s : State) (c : Channel) (m : Memory F32) : State :=
  match c with
  | .left => { s with acc0 := m }
  | .right => { s with acc1 := m }

/-- `FFTBUF[c]`. -/
def State.fftbuf (s : State) : Channel → Memory F32
  | .left => s.fftbuf0
  | .right => s.fftbuf1

/-- `FFTBUF[c]` replaced. -/
def State.setFftbuf (s : State) (c : Channel) (m : Memory F32) : State :=
  match c with
  | .left => { s with fftbuf0 := m }
  | .right => { s with fftbuf1 := m }

/-- Whether the block has a ring: one in a Mono block, two in a Stereo one (R21). -/
def State.hasRing (s : State) : RingId → Bool
  | .ring0 => true
  | .ring1 => s.variant == .stereo

/-! ## Gray code (R10) -/

/-- `gray_W(b) = b xor (b >> 1)`. -/
def gray {w : Nat} (b : BitVec w) : BitVec w := b ^^^ (b >>> 1)

/-- The exclusive or of `g >> 0`, …, `g >> (n − 1)`. -/
def ungrayUpTo {w : Nat} (g : BitVec w) : Nat → BitVec w
  | 0 => 0
  | n + 1 => ungrayUpTo g n ^^^ (g >>> n)

/-- `ungray_W(g)`: bit `i` is the exclusive or of the bits of `g` from `i` up. -/
def ungray {w : Nat} (g : BitVec w) : BitVec w := ungrayUpTo g w

/-- A cursor value offered in Gray code and decoded on the other side (R66): `width` is `LC + 1`. -/
def throughGray (width v : Nat) : Nat := (ungray (gray (BitVec.ofNat width v))).toNat

/-! ## Cursors of a SampleRing (R129) and the synchroniser steps -/

/-- `C = 2^LC` (R22). -/
def SampleRing.capacity (x : SampleRing) : Nat := 2 ^ x.lc.toNat

/-- `(a − b) mod 2C`. -/
def cursorDiff (capacity a b : Nat) : Nat := (a + (2 * capacity - b % (2 * capacity))) % (2 * capacity)

/-- `(a + k) mod 2C`. -/
def cursorAdd (capacity a k : Nat) : Nat := (a + k) % (2 * capacity)

/-- SYNC_W: the view `wv` takes the value `k` steps ahead of it, at most `wp`, through the Gray code (R66, R68). -/
def SampleRing.syncW (k : Nat) (x : SampleRing) : SampleRing :=
  if x.sized then
    let ahead := min k (cursorDiff x.capacity x.wp x.wv)
    { x with wv := throughGray (x.lc.toNat + 1) (cursorAdd x.capacity x.wv ahead) }
  else x

/-- SYNC_R: the view `rv` takes the value `k` steps ahead of it, at most `rp`, through the Gray code (R66, R69). -/
def SampleRing.syncR (k : Nat) (x : SampleRing) : SampleRing :=
  if x.sized then
    let ahead := min k (cursorDiff x.capacity x.rp x.rv)
    { x with rv := throughGray (x.lc.toNat + 1) (cursorAdd x.capacity x.rv ahead) }
  else x

/-! ## Where a command stops -/

/-- A command's stop: refused, or a fault (R282). -/
inductive Stop where
  | refuse (r : Refusal)
  | fault (f : Fault)
deriving DecidableEq, Repr

/-- The commands of agent `G` that reconfigure (R297). -/
def isReconfig : Op → Bool
  | .srSetSize => true
  | .prepare => true
  | .setWindow => true
  | .setOverlap => true
  | .srPush | .srPop | .srGetFree | .srGetReady | .getFftSize | .getNumBins | .getSampleRate
  | .pushSamples | .pushSamples2 | .pullFrame | .pullFrame2 => false

/-- The commands that have no meaning before the first PREPARE (R165). -/
def needsReady : Op → Bool
  | .getFftSize => true
  | .getNumBins => true
  | .getSampleRate => true
  | .pushSamples => true
  | .pushSamples2 => true
  | .pullFrame => true
  | .pullFrame2 => true
  | .srSetSize | .srPush | .srPop | .srGetFree | .srGetReady | .prepare | .setWindow | .setOverlap => false

/-- The commands that have no meaning on a ring never sized (R120). -/
def needsSized : Op → Bool
  | .srPush => true
  | .srPop => true
  | .srGetFree => true
  | .srGetReady => true
  | .srSetSize | .prepare | .setWindow | .setOverlap | .getFftSize | .getNumBins | .getSampleRate
  | .pushSamples | .pushSamples2 | .pullFrame | .pullFrame2 => false

/-- The commands that pull a frame (R235, R237). -/
def isPull : Op → Bool
  | .pullFrame => true
  | .pullFrame2 => true
  | .srSetSize | .srPush | .srPop | .srGetFree | .srGetReady | .prepare | .setWindow | .setOverlap
  | .getFftSize | .getNumBins | .getSampleRate | .pushSamples | .pushSamples2 => false

/-- The command in progress on a port, by its opcode (R298). -/
def State.busyOp (s : State) (q : Port) : Option Op := (s.port q).busy.bind opOf

/-- A command is in progress on port `P`, `D` or `R` (R298). -/
def State.othersBusy (s : State) : Bool := s.portP.busy.isSome || s.portD.busy.isSome || s.portR.busy.isSome

/-- A reconfiguration command is in progress on port `G` (R298). -/
def State.reconfigInProgress (s : State) : Bool :=
  match s.busyOp .g with
  | none => false
  | some op => isReconfig op

/-- A command of row `op` on the active port breaks that reconfiguration is alone (R77, R121, R151, R165, R273, R276, R297,
R298): a reconfiguration command while any other port has a command in progress, a command of another port while a
reconfiguration command is in progress. That all four reconfiguration commands exclude every command of every other port
is DEDUCED (log 13). -/
def State.races (s : State) (op : Op) : Bool :=
  if isReconfig op then s.othersBusy else s.active != .g && s.reconfigInProgress

/-- Reserved encodings of the port, the variant and the ring (R97). -/
def reservedTest (i : Instr) (s : State) : Option Stop :=
  if i.op.row.ports.contains s.active = false then some (.refuse .wrongPort)
  else if i.op.row.variant = none ∨ i.op.row.variant = some s.variant then
    match i.ring? with
    | none => none
    | some q => if s.hasRing q then none else some (.refuse .noSuchRing)
  else some (.refuse .wrongVariant)

/-- Illegal operand values (R98): SR_SETSIZE's size (R121), PREPARE's order (R153), SETOVERLAP's NaN (R159). -/
def operandTest (i : Instr) (s : State) : Option Stop :=
  match i with
  | .srSetSize _ lc => if 1 ≤ lc.toNat ∧ lc.toNat ≤ s.lcMax then none else some (.refuse .badRingSize)
  | .prepare order _ => if 10 ≤ order.toNat ∧ order.toNat ≤ 13 then none else some (.refuse .badFftOrder)
  | .setOverlap frac => if isNaN frac then some (.refuse .nanOverlap) else none
  | .srPush _ _ | .srPop _ _ | .srGetFree _ | .srGetReady _ | .setWindow _ | .getFftSize | .getNumBins
  | .getSampleRate | .pushSamples _ | .pushSamples2 _ _ | .pullFrame _ | .pullFrame2 => none

/-- State preconditions: the ring is sized (R120), the analyser is Ready (R165). -/
def stateTest (i : Instr) (s : State) : Option Stop :=
  if needsReady i.op = true ∧ s.cfg.state = .unconfigured then some (.refuse .unconfigured)
  else if needsSized i.op then
    match i.ring? with
    | none => none
    | some q => if (s.ring q).sized then none else some (.refuse .ringNotSized)
  else none

/-- Hazards: a reconfiguration command is alone (R297; log 13), and a pull finds fewer than `2^32`
frames since `FR.r` (R301; log 15). R273 does not place R301's hazard: that a pull meeting both reports the race is a
DESIGN CHOICE (log 17). That an accessor of port `G`, which reconfigures nothing, runs beside busy ports, although
R276 has agent `G` never run there, is DEDUCED from R162 to R164 and R297 (log 13). -/
def hazardTest (i : Instr) (s : State) : Option Stop :=
  if s.races i.op then some (.fault .reconfigRace)
  else if isPull i.op = true ∧ 2 ^ 32 ≤ s.fr.trueLead then some (.fault .frameSeqAlias)
  else none

/-- Why a command issued on the active port has no meaning, if it has none, tested in the order of R273. -/
def stopOf (i : Instr) (s : State) : Option Stop :=
  ((reservedTest i s).orElse fun _ => operandTest i s).orElse fun _ =>
    (stateTest i s).orElse fun _ => hazardTest i s

/-- The outcome of a stop. -/
def Stop.outcome : Stop → Host.Outcome State Fault Refusal
  | .refuse r => .refused r
  | .fault f => .fault f

/-- A command's outcome: its stop if it has no meaning here, else the state after it. -/
def guarded (i : Instr) (s after : State) : Host.Outcome State Fault Refusal :=
  match stopOf i s with
  | some stop => stop.outcome
  | none => .next after

end Sys2Proof.Machine
end

