-- ==== Sys2Proof/Machine/Operands.lean ====
section
/-!
DEFINITION. The operand forms: which word of which storage a command reaches (R62, R130, R239), and the counts the two
sides of a SampleRing compute from their views (R67, R127, R128).
-/

namespace Sys2Proof.Machine

open Sys2Proof

/-! ## SampleRing counts, each from the issuing side's view (R67) -/

/-- Ready samples as the producer side sees them: `(wp − rv) mod 2C` (R128). -/
def SampleRing.producerReady (x : SampleRing) : Nat := cursorDiff x.capacity x.wp x.rv

/-- Free space as the producer side sees it: `C − ((wp − rv) mod 2C)` (R122, R127). -/
def SampleRing.producerFree (x : SampleRing) : Nat := x.capacity - x.producerReady

/-- Ready samples as the consumer side sees them: `(wv − rp) mod 2C` (R125, R128). -/
def SampleRing.consumerReady (x : SampleRing) : Nat := cursorDiff x.capacity x.wv x.rp

/-- Free space as the consumer side sees it: `C − ((wv − rp) mod 2C)` (R127). -/
def SampleRing.consumerFree (x : SampleRing) : Nat := x.capacity - x.consumerReady

/-- The true number of stored samples: `(wp − rp) mod 2C` (R28). -/
def SampleRing.used (x : SampleRing) : Nat := cursorDiff x.capacity x.wp x.rp

/-! ## Words a command reaches -/

/-- The slot a cursor and a loop index select: `(cursor + j) mod C` (R130). -/
def SampleRing.slotIndex (x : SampleRing) (cursor j : Nat) : Nat := (cursor + j) % x.capacity

/-- `MemRead(SR[s].mem, idx)`. -/
def State.ringWord (s : State) (q : RingId) (a : Nat) : F32 := wordOf (.ringMem q) s.draws (s.ring q).mem a

/-- `MemRead(WIN, i)`. -/
def State.winWord (s : State) (i : Nat) : F32 := wordOf .win s.draws s.win i

/-- `MemRead(ACC[c], j)`. -/
def State.accWord (s : State) (c : Channel) (j : Nat) : F32 := wordOf (.acc c) s.draws (s.acc c) j

/-- `MemRead(FFTBUF[c], j)`. -/
def State.fftbufWord (s : State) (c : Channel) (j : Nat) : F32 := wordOf (.fftbuf c) s.draws (s.fftbuf c) j

/-- The slot a FrameRing cursor selects: `cursor mod 512` (R238, R239). -/
def frameSlot (cursor : BitVec 32) : Nat := cursor.toNat % frameSlots

/-- `MemRead(FR.slot[j].mag, k)`. -/
def State.magWord (s : State) (j k : Nat) : F32 :=
  ((s.fr.slots.read j).bind (fun x => x.mag[k]?)).getD (Config.unwritten (.mag j) s.draws k)

/-- `MemRead(FR.slot[j].pan, k)`. -/
def State.panWord (s : State) (j k : Nat) : F32 :=
  ((s.fr.slots.read j).bind (fun x => x.pan[k]?)).getD (Config.unwritten (.pan j) s.draws k)

/-! ## FrameRing cursors (R46, R235, R238) -/

/-- `lead = (FR.w − FR.r) mod 2^32`. -/
def FrameRing.lead (x : FrameRing) : Nat := (x.w - x.r).toNat

/-- `r_eff`: the sequence number of the oldest frame that is still there (R235, R236). -/
def FrameRing.oldest (x : FrameRing) : BitVec 32 :=
  if frameSlots < x.lead then x.w - BitVec.ofNat 32 frameSlots else x.r

/-- `avail = min(lead, FR_N)`: the frames the consumer can still pull (R46). -/
def FrameRing.avail (x : FrameRing) : Nat := min x.lead frameSlots

end Sys2Proof.Machine
end

