-- ==== Sys2Proof/Machine/Flags.lean ====
section
/-!
DEFINITION. The block has no status flags, condition codes or sticky error bits (R47). What a command reports is its
response (R100): the count of SR_POP, the `ok` word of a pull, the value of a query or accessor. This file holds them.
-/

namespace Sys2Proof.Machine

open Sys2Proof

/-- The response words of the command on the active port, after those given before (R100). -/
def State.respond (s : State) (words : List Word) : State :=
  s.setPort s.active { s.port s.active with output := (s.port s.active).output ++ words }

/-- An unsigned result, zero-extended to 32 bits (R100). -/
def countWord (n : Nat) : Word := BitVec.ofNat 32 n

/-- The `ok` word of a pull (R100): 0 = false, 1 = true. -/
def okWord (ok : Bool) : Word := if ok then 1 else 0

end Sys2Proof.Machine
end

