-- ==== Sys2Proof/Machine/Configuration.lean ====
section
/-!
DEFINITION. Configuration and accessors (41_config.md): PREPARE, SETWINDOW, SETOVERLAP, GETFFTSIZE, GETNUMBINS,
GETSAMPLERATE, and the window table.
-/

namespace Sys2Proof.Machine

open Sys2Proof

/-- `fftSize = 2^fftOrder` (R37). -/
def sizeOfOrder (order : Nat) : Nat := 2 ^ order

/-- `numBins = fftSize/2 + 1` (R37). -/
def binsOfSize (size : Nat) : Nat := size / 2 + 1

/-- The window table of a size: `WIN[i] = NUM.window(type, N, i)` (R152, R154, R155). -/
def windowTable (type : WindowType) (size : Nat) : Memory F32 :=
  Memory.ofListFrom 0 ((List.range size).map (Numerics.window type size))

/-- The configuration after `PREPARE order, rate` (R152). -/
def Cfg.prepared (c : Cfg) (order : BitVec 8) (rate : F32) : Cfg :=
  let size := sizeOfOrder order.toNat
  { c with
    state := .ready, sampleRate := rate, fftOrder := order.setWidth 4
    fftSize := size, numBins := binsOfSize size, hopSize := Numerics.hop size c.overlap }

/-- PREPARE's effect (R152): sizes, hop and window table for the new order, every analyser cursor zero, the accumulators'
and the FrameRing's contents unspecified, no SampleRing touched (R50, C5). -/
def afterPrepare (order : BitVec 8) (rate : F32) (s : State) : State :=
  let size := sizeOfOrder order.toNat
  { s with
    cfg := s.cfg.prepared order rate
    win := windowTable s.cfg.windowType size
    acc0 := [], acc1 := [], writePos := 0
    fr := { w := 0, r := 0, bins := binsOfSize size, slots := [], trueLead := 0 }
    draws := s.draws + 1 }

/-- SETWINDOW's effect (R156): the register, and in Ready the table. -/
def afterSetWindow (type : WindowType) (s : State) : State :=
  { s with
    cfg := { s.cfg with windowType := type }
    win := match s.cfg.state with
      | .ready => windowTable type s.cfg.fftSize
      | .unconfigured => s.win }

/-- SETOVERLAP's effect (R157): the clamped register, and in Ready the hop size (R158). -/
def afterSetOverlap (frac : F32) (s : State) : State :=
  let f := clampOverlap frac
  { s with
    cfg := { s.cfg with
      overlap := f
      hopSize := match s.cfg.state with
        | .ready => Numerics.hop s.cfg.fftSize f
        | .unconfigured => s.cfg.hopSize } }

/-- GETFFTSIZE's effect (R162, R100). -/
def afterGetFftSize (s : State) : State := s.respond [countWord s.cfg.fftSize]

/-- GETNUMBINS's effect (R163, R100). -/
def afterGetNumBins (s : State) : State := s.respond [countWord s.cfg.numBins]

/-- GETSAMPLERATE's effect (R164, R100). -/
def afterGetSampleRate (s : State) : State := s.respond [s.cfg.sampleRate]

/-- `PREPARE order, rate` (R152, R153). -/
def execPrepare (order : BitVec 8) (rate : F32) (s : State) : Host.Outcome State Fault Refusal :=
  guarded (.prepare order rate) s (afterPrepare order rate s)

/-- `SETWINDOW type` (R156). -/
def execSetWindow (type : WindowType) (s : State) : Host.Outcome State Fault Refusal :=
  guarded (.setWindow type) s (afterSetWindow type s)

/-- `SETOVERLAP frac` (R157, R159). -/
def execSetOverlap (frac : F32) (s : State) : Host.Outcome State Fault Refusal :=
  guarded (.setOverlap frac) s (afterSetOverlap frac s)

/-- `GETFFTSIZE` (R162, R165). -/
def execGetFftSize (s : State) : Host.Outcome State Fault Refusal := guarded .getFftSize s (afterGetFftSize s)

/-- `GETNUMBINS` (R163, R165). -/
def execGetNumBins (s : State) : Host.Outcome State Fault Refusal := guarded .getNumBins s (afterGetNumBins s)

/-- `GETSAMPLERATE` (R164, R165). -/
def execGetSampleRate (s : State) : Host.Outcome State Fault Refusal :=
  guarded .getSampleRate s (afterGetSampleRate s)

end Sys2Proof.Machine
end

