-- ==== Sys2Proof/Machine/FrameRings.lean ====
section
/-!
DEFINITION. The FrameRing (44_framering.md): the internal frame push FR_PUSH and the commands PULLFRAME and PULLFRAME2. A
push and a pull are each one atomic transition (R73, C2).
-/

namespace Sys2Proof.Machine

open Sys2Proof

/-- The slot a pushed frame fills: `FR.bins` words of `mag`, and of `pan` in a Stereo block (R232). -/
def State.framedSlot (s : State) (frame : Slot) : Slot :=
  { mag := frame.mag.take s.fr.bins
    pan := match s.variant with
      | .mono => []
      | .stereo => frame.pan.take s.fr.bins }

/-- FR_PUSH (R232): one whole slot, then the write cursor; never a look at `FR.r`. -/
def frPush (frame : Slot) (s : State) : State :=
  { s with
    fr := { s.fr with
      slots := s.fr.slots.write (frameSlot s.fr.w) (s.framedSlot frame)
      w := s.fr.w + 1
      trueLead := s.fr.trueLead + 1 } }

/-- The FrameRing after a pull from a ring that is not empty: `FR.r` goes past the oldest frame that was there (R235). -/
def FrameRing.consumed (x : FrameRing) : FrameRing :=
  { x with r := x.oldest + 1, trueLead := min x.trueLead frameSlots - 1 }

/-- The first `m` dB words of a slot. -/
def State.magWords (s : State) (j m : Nat) : List F32 := (List.range m).map (s.magWord j)

/-- The first `m` pan words of a slot. -/
def State.panWords (s : State) (j m : Nat) : List F32 := (List.range m).map (s.panWord j)

/-- PULLFRAME's effect (R235, R100): an empty ring answers `ok = 0` and changes nothing else. -/
def afterPullFrame (n : BitVec 24) (s : State) : State :=
  if s.fr.lead = 0 then s.respond [okWord false]
  else
    let words := s.magWords (frameSlot s.fr.oldest) (min n.toNat s.fr.bins)
    State.respond { s with fr := s.fr.consumed } (okWord true :: words)

/-- PULLFRAME2's effect (R237, R100). -/
def afterPullFrame2 (s : State) : State :=
  if s.fr.lead = 0 then s.respond [okWord false]
  else
    let mag := s.magWords (frameSlot s.fr.oldest) s.fr.bins
    let pan := s.panWords (frameSlot s.fr.oldest) s.fr.bins
    State.respond { s with fr := s.fr.consumed } (okWord true :: (mag ++ pan))

/-- `PULLFRAME n` (R235). -/
def execPullFrame (n : BitVec 24) (s : State) : Host.Outcome State Fault Refusal :=
  guarded (.pullFrame n) s (afterPullFrame n s)

/-- `PULLFRAME2` (R237). -/
def execPullFrame2 (s : State) : Host.Outcome State Fault Refusal := guarded .pullFrame2 s (afterPullFrame2 s)

end Sys2Proof.Machine
end

