-- ==== Sys2Proof/Machine/Framing.lean ====
section
/-!
DEFINITION. Sample ingest, STFT framing and the FFT step: PUSHSAMPLES (42_framing_fft.md) and PUSHSAMPLES2 (43_stereo.md).
-/

namespace Sys2Proof.Machine

open Sys2Proof

/-! ## The FFT step (R185..R192, R213) -/

/-- The window multiply: sample times coefficient at the same index (R186). -/
def State.windowed (s : State) (c : Channel) : List F32 :=
  (List.range s.cfg.fftSize).map fun j => Numerics.mul (s.accWord c j) (s.winWord j)

/-- FFTBUF filled: the windowed samples, then `fftSize` words `+0.0` (R43, R185, R187). -/
def loadFftbuf (c : Channel) (s : State) : State :=
  s.setFftbuf c (Memory.ofListFrom 0 (s.windowed c ++ List.replicate s.cfg.fftSize plusZero))

/-- FFTBUF after the step: nothing it holds survives (R43; log 16). -/
def clearFftbuf (c : Channel) (s : State) : State := s.setFftbuf c []

/-- The transform's input, read back from FFTBUF (R185). -/
def State.fftInput (s : State) (c : Channel) : List F32 := (List.range s.cfg.fftSize).map (s.fftbufWord c)

/-- The magnitudes of the kept bins `0 .. numBins − 1` (R187, R188, R189). -/
def State.spectrum (s : State) (c : Channel) : List F32 :=
  let y := s.fftInput c
  (List.range s.cfg.numBins).map fun k =>
    let x := Numerics.rfft s.cfg.fftSize y k
    Numerics.mag x.1 x.2 s.cfg.fftSize

/-- The magnitudes of a channel's accumulator: FFTBUF loaded, then transformed (R185, R213). -/
def State.magnitudes (s : State) (c : Channel) : List F32 := (loadFftbuf c s).spectrum c

/-- Every sample of the frame is finite (R195). -/
def State.frameFinite (s : State) (c : Channel) : Bool :=
  (List.range s.cfg.fftSize).all fun j => isFinite (s.accWord c j)

/-- The MagnitudeFrame of the accumulator (R185, R191, R192); with a non-finite sample every bin is any value (R195). -/
def State.monoFrame (s : State) : Slot :=
  if s.frameFinite .left then { mag := (s.magnitudes .left).map Numerics.db, pan := [] }
  else { mag := (List.range s.cfg.numBins).map (Config.anyMag s.draws), pan := [] }

/-- The StereoFrame of the two accumulators (R213, R214, R215); with a non-finite sample every bin is any value (R195). -/
def State.stereoFrame (s : State) : Slot :=
  if s.frameFinite .left && s.frameFinite .right then
    let pairs := (s.magnitudes .left).zip (s.magnitudes .right)
    { mag := pairs.map fun m => Numerics.db (Numerics.mean2 m.1 m.2), pan := pairs.map fun m => Numerics.pan m.1 m.2 }
  else
    { mag := (List.range s.cfg.numBins).map (Config.anyMag s.draws)
      pan := (List.range s.cfg.numBins).map (Config.anyPan s.draws) }

/-- FFTSTEP (R185): one frame made and pushed. The draw counter moves on, so that no two frames share free values. -/
def fftStep (s : State) : State :=
  let frame := s.monoFrame
  frPush frame { clearFftbuf .left s with draws := s.draws + 1 }

/-- FFTSTEP2 (R213): one frame made from both channels and pushed. -/
def fftStep2 (s : State) : State :=
  let frame := s.stereoFrame
  frPush frame { clearFftbuf .right (clearFftbuf .left s) with draws := s.draws + 1 }

/-! ## Append, trigger, shift (R182, R183, R184, R211) -/

/-- One sample appended (R182). -/
def append (x : F32) (s : State) : State :=
  { s with acc0 := s.acc0.write s.writePos x, writePos := s.writePos + 1 }

/-- One sample pair appended at the one offset (R211, R212). -/
def append2 (x : F32 × F32) (s : State) : State :=
  { s with
    acc0 := s.acc0.write s.writePos x.1
    acc1 := s.acc1.write s.writePos x.2
    writePos := s.writePos + 1 }

/-- The overlap shift (R184). -/
def shift (s : State) : State :=
  { s with
    acc0 := s.acc0.shiftDown s.cfg.fftSize s.cfg.hopSize
    writePos := s.cfg.fftSize - s.cfg.hopSize }

/-- The overlap shift of both accumulators (R211). -/
def shift2 (s : State) : State :=
  { s with
    acc0 := s.acc0.shiftDown s.cfg.fftSize s.cfg.hopSize
    acc1 := s.acc1.shiftDown s.cfg.fftSize s.cfg.hopSize
    writePos := s.cfg.fftSize - s.cfg.hopSize }

/-- One sample of PUSHSAMPLES: append; where the accumulator is full, an FFT step and the shift (R181, R183). -/
def ingest (s : State) (x : F32) : State :=
  let s := append x s
  if s.writePos = s.cfg.fftSize then shift (fftStep s) else s

/-- One sample pair of PUSHSAMPLES2 (R211). -/
def ingest2 (s : State) (x : F32 × F32) : State :=
  let s := append2 x s
  if s.writePos = s.cfg.fftSize then shift2 (fftStep2 s) else s

/-- PUSHSAMPLES's effect: its samples one at a time (R181). -/
def afterPushSamples (data : List F32) (s : State) : State := data.foldl ingest s

/-- PUSHSAMPLES2's effect: its sample pairs one at a time (R211). -/
def afterPushSamples2 (left right : List F32) (s : State) : State := (left.zip right).foldl ingest2 s

/-- `PUSHSAMPLES n, data` (R181). -/
def execPushSamples (data : List F32) (s : State) : Host.Outcome State Fault Refusal :=
  guarded (.pushSamples data) s (afterPushSamples data s)

/-- `PUSHSAMPLES2 n, left, right` (R211). -/
def execPushSamples2 (left right : List F32) (s : State) : Host.Outcome State Fault Refusal :=
  guarded (.pushSamples2 left right) s (afterPushSamples2 left right s)

end Sys2Proof.Machine
end

