-- ==== Sys2Proof/Machine/SampleRings.lean ====
section
/-!
DEFINITION. The SampleRing commands (40_samplering.md): SR_SETSIZE, SR_PUSH, SR_POP, SR_GETFREE, SR_GETREADY. A push and a
pop are each one atomic transition of their side, measured once from its view (R71).
-/

namespace Sys2Proof.Machine

open Sys2Proof

/-- The ring created or resized to `2^lc` and emptied; its contents become unspecified (R121). -/
def SampleRing.resized (lc : BitVec 5) : SampleRing :=
  { sized := true, lc := lc, wp := 0, rp := 0, rv := 0, wv := 0, mem := [] }

/-- How many samples a push of `data` keeps: `k = min(n, free)` (R122). -/
def SampleRing.accepted (x : SampleRing) (data : List F32) : Nat := min data.length x.producerFree

/-- The ring after a push: the first `k` samples in the slots from `wp` on, the cursor past them; the rest is dropped
(R122). -/
def SampleRing.pushed (x : SampleRing) (data : List F32) : SampleRing :=
  let k := x.accepted data
  { x with mem := Memory.writeRun x.capacity x.wp (data.take k) x.mem, wp := cursorAdd x.capacity x.wp k }

/-- How many samples a pop of `n` returns: `k = min(n, ready)` (R125). -/
def SampleRing.delivered (x : SampleRing) (n : Nat) : Nat := min n x.consumerReady

/-- The ring after a pop: only the read cursor moves (R125). -/
def SampleRing.popped (x : SampleRing) (n : Nat) : SampleRing :=
  { x with rp := cursorAdd x.capacity x.rp (x.delivered n) }

/-- The samples a pop of `n` returns, in ring order (R125). -/
def State.popWords (s : State) (q : RingId) (n : Nat) : List F32 :=
  (List.range ((s.ring q).delivered n)).map fun j => s.ringWord q ((s.ring q).slotIndex (s.ring q).rp j)

/-- The free space the active port sees (R127): port `D` from the consumer's view, port `P` from the producer's. -/
def State.freeSeen (s : State) (q : RingId) : Nat :=
  match s.active with
  | .d => (s.ring q).consumerFree
  | .p | .r | .g => (s.ring q).producerFree

/-- The ready count the active port sees (R128). -/
def State.readySeen (s : State) (q : RingId) : Nat :=
  match s.active with
  | .d => (s.ring q).consumerReady
  | .p | .r | .g => (s.ring q).producerReady

/-- SR_SETSIZE's effect (R121). -/
def afterSrSetSize (ch : RingId) (lc : BitVec 5) (s : State) : State :=
  { s.setRing ch (SampleRing.resized lc) with draws := s.draws + 1 }

/-- SR_PUSH's effect (R122). -/
def afterSrPush (ch : RingId) (data : List F32) (s : State) : State := s.setRing ch ((s.ring ch).pushed data)

/-- SR_POP's effect (R125, R100). -/
def afterSrPop (ch : RingId) (n : BitVec 23) (s : State) : State :=
  let words := s.popWords ch n.toNat
  (s.setRing ch ((s.ring ch).popped n.toNat)).respond (countWord words.length :: words)

/-- SR_GETFREE's effect (R127, R100). -/
def afterSrGetFree (ch : RingId) (s : State) : State := s.respond [countWord (s.freeSeen ch)]

/-- SR_GETREADY's effect (R128, R100). -/
def afterSrGetReady (ch : RingId) (s : State) : State := s.respond [countWord (s.readySeen ch)]

/-- `SR_SETSIZE ch, lc` (R121). -/
def execSrSetSize (ch : RingId) (lc : BitVec 5) (s : State) : Host.Outcome State Fault Refusal :=
  guarded (.srSetSize ch lc) s (afterSrSetSize ch lc s)

/-- `SR_PUSH ch, n, data` (R122). -/
def execSrPush (ch : RingId) (data : List F32) (s : State) : Host.Outcome State Fault Refusal :=
  guarded (.srPush ch data) s (afterSrPush ch data s)

/-- `SR_POP ch, n` (R125). -/
def execSrPop (ch : RingId) (n : BitVec 23) (s : State) : Host.Outcome State Fault Refusal :=
  guarded (.srPop ch n) s (afterSrPop ch n s)

/-- `SR_GETFREE ch` (R127). -/
def execSrGetFree (ch : RingId) (s : State) : Host.Outcome State Fault Refusal :=
  guarded (.srGetFree ch) s (afterSrGetFree ch s)

/-- `SR_GETREADY ch` (R128). -/
def execSrGetReady (ch : RingId) (s : State) : Host.Outcome State Fault Refusal :=
  guarded (.srGetReady ch) s (afterSrGetReady ch s)

end Sys2Proof.Machine
end

