-- ==== Sys2Proof/Machine/Dispatch.lean ====
section
/-! DEFINITION. One arm per command: the meaning of a command issued on the active port. -/

namespace Sys2Proof.Machine

open Sys2Proof

def exec (i : Instr) (s : State) : Host.Outcome State Fault Refusal :=
  match i with
  | .srSetSize ch lc => Sys2Proof.Machine.execSrSetSize ch lc s
  | .srPush ch data => Sys2Proof.Machine.execSrPush ch data s
  | .srPop ch n => Sys2Proof.Machine.execSrPop ch n s
  | .srGetFree ch => Sys2Proof.Machine.execSrGetFree ch s
  | .srGetReady ch => Sys2Proof.Machine.execSrGetReady ch s
  | .prepare order rate => Sys2Proof.Machine.execPrepare order rate s
  | .setWindow type => Sys2Proof.Machine.execSetWindow type s
  | .setOverlap frac => Sys2Proof.Machine.execSetOverlap frac s
  | .getFftSize => Sys2Proof.Machine.execGetFftSize s
  | .getNumBins => Sys2Proof.Machine.execGetNumBins s
  | .getSampleRate => Sys2Proof.Machine.execGetSampleRate s
  | .pushSamples data => Sys2Proof.Machine.execPushSamples data s
  | .pushSamples2 left right => Sys2Proof.Machine.execPushSamples2 left right s
  | .pullFrame n => Sys2Proof.Machine.execPullFrame n s
  | .pullFrame2 => Sys2Proof.Machine.execPullFrame2 s

end Sys2Proof.Machine
end

