-- ==== Sys2Proof/Machine/Port.lean ====
section
/-!
DEFINITION. What a turn of the schedule does (R40, R72): a port takes its next command word, completes the command,
or processes part of a PUSHSAMPLES (R181, R211); a synchroniser moves a view (R68, R69).
-/

namespace Sys2Proof.Machine

open Sys2Proof

/-- What a command measures once, at its begin, from its side's view (R71): SR_PUSH the free space (R122), SR_POP the ready
count (R125). -/
def State.measure (s : State) (i : Instr) : Option Nat :=
  match i with
  | .srPush ch _ => some (s.ring ch).producerFree
  | .srPop ch _ => some (s.ring ch).consumerReady
  | .srSetSize _ _ | .srGetFree _ | .srGetReady _ | .prepare _ _ | .setWindow _ | .setOverlap _ | .getFftSize
  | .getNumBins | .getSampleRate | .pushSamples _ | .pushSamples2 _ _ | .pullFrame _ | .pullFrame2 => none

/-- A command limited to the count measured at its begin (R71): SR_PUSH keeps at most that many samples and SR_POP returns at
most that many, whatever its side's view has become since. -/
def limited (measured : Option Nat) (i : Instr) : Instr :=
  match measured with
  | none => i
  | some m =>
    match i with
    | .srPush ch data => .srPush ch (data.take m)
    | .srPop ch n => .srPop ch (BitVec.ofNat 23 (min n.toNat m))
    | .srSetSize _ _ | .srGetFree _ | .srGetReady _ | .prepare _ _ | .setWindow _ | .setOverlap _ | .getFftSize
    | .getNumBins | .getSampleRate | .pushSamples _ | .pushSamples2 _ _ | .pullFrame _ | .pullFrame2 => i

/-- Port `q` served: the words still offered on it, its command in progress and that command's measured count replaced. -/
def onPort (q : Port) (input : List Word) (busy : Option Word) (measured : Option Nat) (s : State) : State :=
  { s.setPort q { s.port q with input := input, busy := busy, measured := measured } with active := q }

/-- The port `q` completes a command: its words are taken, no command is left in progress, `exec` gives the rest. -/
def completeOn (q : Port) (i : Instr) (rest : List Word) (s : State) : Host.Outcome State Fault Refusal :=
  exec i (onPort q rest none none s)

/-- The refusal of a word that matches no row of its port (R97): none of R94, or one of other ports. -/
def reservedRefusal (row : Option Op) : Refusal :=
  match row with
  | none => .reservedEncoding
  | some _ => .wrongPort

/-- The port `q` takes the command word `w`: the command is in progress from now on (R298), with what it measures at its
begin (R71), unless it has no meaning. -/
def beginOn (q : Port) (w : Word) (rest : List Word) (s : State) : Host.Outcome State Fault Refusal :=
  match opOf w with
  | none => .refused (reservedRefusal none)
  | some op =>
    match stopOf (assemble op w rest) { s with active := q } with
    | some stop => stop.outcome
    | none => .next (onPort q rest (some w) (s.measure (assemble op w rest)) s)

/-- The turn `start q`. A second command on a port that has one in progress is the fault of R296 (log 14). R273 does not
place this fault: that it comes before every test of the second command, its reserved encoding included, is a DESIGN
CHOICE (log 17). With no word offered nothing happens. -/
def startPort (q : Port) (s : State) : Host.Outcome State Fault Refusal :=
  match (s.port q).busy with
  | some _ => .fault .secondProducerOrConsumer
  | none =>
    match (s.port q).input with
    | [] => .next s
    | w :: rest => beginOn q w rest s

/-- The command `w` in progress on port `q` completes, limited to what it measured at its begin (R71), once all its words
are offered (R95); until then it waits. -/
def finishPort (q : Port) (w : Word) (s : State) : Host.Outcome State Fault Refusal :=
  match decode q (w :: (s.port q).input) with
  | .command i rest => completeOn q (limited (s.port q).measured i) rest s
  | .reserved row _ => .refused (reservedRefusal row)
  | .incomplete => .next s
  | .nothing => .next s

/-- The turn `run q`: the command in progress completes; with none in progress the next one is taken and completes,
or is left in progress while its words are not all offered. -/
def runPort (q : Port) (s : State) : Host.Outcome State Fault Refusal :=
  match (s.port q).busy with
  | some w => finishPort q w s
  | none =>
    match decode q (s.port q).input with
    | .command i rest => completeOn q i rest s
    | .reserved row _ => .refused (reservedRefusal row)
    | .incomplete => startPort q s
    | .nothing => .next s

/-- An outcome's next state changed. -/
def mapNext (f : State → State) : Host.Outcome State Fault Refusal → Host.Outcome State Fault Refusal
  | .next s => .next (f s)
  | .fault r => .fault r
  | .refused r => .refused r

/-- What is left of a PUSHSAMPLES or PUSHSAMPLES2 command word after `k` of its samples. -/
def remainingHead (w : Word) (k : Nat) : Word :=
  w.extractLsb' 24 8 ++ BitVec.ofNat 24 ((fieldN24 w).toNat - k)

/-- `k` samples of the PUSHSAMPLES in progress on port `D` (R181): the command on those samples alone, the rest stays
in progress. Samples not yet offered are waited for. -/
def partMono (w : Word) (k : Nat) (s : State) : Host.Outcome State Fault Refusal :=
  let k := min k (fieldN24 w).toNat
  let input := s.portD.input
  if k ≤ input.length then
    mapNext (fun t => t.setPort .d { t.portD with busy := some (remainingHead w k) })
      (completeOn .d (.pushSamples (input.take k)) (input.drop k) s)
  else .next s

/-- `k` samples of each channel of the PUSHSAMPLES2 in progress on port `D` (R211): all left words cross the port before
the right ones (R92). -/
def partStereo (w : Word) (k : Nat) (s : State) : Host.Outcome State Fault Refusal :=
  let n := (fieldN24 w).toNat
  let k := min k n
  let input := s.portD.input
  if n + k ≤ input.length then
    let left := input.take n
    let rest := input.drop n
    mapNext (fun t => t.setPort .d { t.portD with busy := some (remainingHead w k) })
      (completeOn .d (.pushSamples2 (left.take k) (rest.take k)) (left.drop k ++ rest.drop k) s)
  else .next s

/-- The turn `part k`; where no PUSHSAMPLES or PUSHSAMPLES2 is in progress on port `D` nothing happens. -/
def partPort (k : Nat) (s : State) : Host.Outcome State Fault Refusal :=
  match s.portD.busy with
  | none => .next s
  | some w =>
    match opOf w with
    | some .pushSamples => partMono w k s
    | some .pushSamples2 => partStereo w k s
    | _ => .next s

/-- One turn of the schedule. -/
def takeTurn (turn : Turn) (s : State) : Host.Outcome State Fault Refusal :=
  match turn with
  | .run q => runPort q s
  | .start q => startPort q s
  | .part k => partPort k s
  | .syncW q k => .next (s.setRing q ((s.ring q).syncW k))
  | .syncR q k => .next (s.setRing q ((s.ring q).syncR k))

/-- A command's words offered first on a port with no command in progress, and that port's turn next. -/
def placeCommand (q : Port) (words : List Word) (s : State) : State :=
  { s.setPort q { s.port q with input := words ++ (s.port q).input, busy := none, measured := none } with
    agenda := .run q :: s.agenda }

/-- The command whose bits are `w` placed on the first port that accepts it (log 11). -/
def placeTableWord (nbits w : Nat) (s : State) : State :=
  let words := tableWords nbits w
  placeCommand (portFor (words.headD 0)) words s

end Sys2Proof.Machine
end

