-- ==== Sys2Proof/Machine/Step.lean ====
section
/-! DEFINITION. One step of the machine: the next turn of the schedule (R72). With no turn to come the block holds its
state (R40, R280). -/

namespace Sys2Proof.Machine

open Sys2Proof

/-- One step: the first turn of the agenda is taken. -/
def step (s : State) : Host.Outcome State Fault Refusal :=
  match s.agenda with
  | [] => .next s
  | turn :: rest => takeTurn turn { s with agenda := rest }

/-- `s` with the command whose bits are `w` where the very next step takes its command (log 11). -/
def State.withFetchWord (s : State) (nbits w : Nat) : State := placeTableWord nbits w s

end Sys2Proof.Machine
end

