-- ==== Sys2Proof/Machine/Pseudo.lean ====
section
/-!
DEFINITION. The pseudo-instructions of R102: DRAIN, DRAIN2, PULLALL and CONFIGURE, each the sequence of commands one agent
issues. They have no opcode; nothing in `step` uses them.
-/

namespace Sys2Proof.Machine

open Sys2Proof

/-- A command issued on a port. -/
def issue (q : Port) (i : Instr) (s : State) : Host.Outcome State Fault Refusal := exec i { s with active := q }

/-- What follows a next state. -/
def andThen (o : Host.Outcome State Fault Refusal) (f : State → Host.Outcome State Fault Refusal) :
    Host.Outcome State Fault Refusal :=
  match o with
  | .next s => f s
  | .fault r => .fault r
  | .refused r => .refused r

/-- `DRAIN n` (agent `D`, Mono): SR_POP 0, n, then PUSHSAMPLES of what it returned (R102 a). -/
def drain (n : BitVec 23) (s : State) : Host.Outcome State Fault Refusal :=
  let data := s.popWords .ring0 n.toNat
  andThen (issue .d (.srPop .ring0 n) s) fun s => issue .d (.pushSamples data) s

/-- `DRAIN2 n` (agent `D`, Stereo): both ready counts, `m = min(n, a, b)`, both pops of `m`, then PUSHSAMPLES2 (R102 b). -/
def drain2 (n : BitVec 23) (s : State) : Host.Outcome State Fault Refusal :=
  let m := min n.toNat (min (s.ring .ring0).consumerReady (s.ring .ring1).consumerReady)
  let left := s.popWords .ring0 m
  let right := s.popWords .ring1 m
  andThen (issue .d (.srGetReady .ring0) s) fun s =>
    andThen (issue .d (.srGetReady .ring1) s) fun s =>
      andThen (issue .d (.srPop .ring0 (BitVec.ofNat 23 m)) s) fun s =>
        andThen (issue .d (.srPop .ring1 (BitVec.ofNat 23 m)) s) fun s => issue .d (.pushSamples2 left right) s

/-- `PULLALL` (agent `R`): at most `fuel` pulls, the last of them the first that answers false (R102 c). -/
def pullAll (pull : Instr) : Nat → State → Host.Outcome State Fault Refusal
  | 0, s => .next s
  | fuel + 1, s =>
    if s.fr.lead = 0 then issue .r pull s else andThen (issue .r pull s) fun s => pullAll pull fuel s

/-- `CONFIGURE order, rate, type, frac` (agent `G`): SETWINDOW, SETOVERLAP, PREPARE (R102 d). -/
def configure (order : BitVec 8) (rate : F32) (type : WindowType) (frac : F32) (s : State) :
    Host.Outcome State Fault Refusal :=
  andThen (issue .g (.setWindow type) s) fun s =>
    andThen (issue .g (.setOverlap frac) s) fun s => issue .g (.prepare order rate) s

end Sys2Proof.Machine
end

