-- ==== Sys2Proof/Safety.lean ====
section
/-!
DEFINITION. What counts as a safe state, in the terms claims use: the invariants the spec states (R28, R29, R37, R41, R42,
R44, R46, R297), the abstract queues of R28 (d) and R231, runs and the fairness of the synchronisers (R68, R69), the
eager schedule of R302 and the end of a run (R305).
-/

namespace Sys2Proof.Machine

open Sys2Proof

/-! ## Invariants -/

/-- Every storage is in its canonical form. -/
abbrev MemoriesWf (s : State) : Prop :=
  Memory.wf s.ring0.mem ∧ Memory.wf s.ring1.mem ∧ Memory.wf s.win ∧ Memory.wf s.acc0 ∧ Memory.wf s.acc1
    ∧ Memory.wf s.fftbuf0 ∧ Memory.wf s.fftbuf1 ∧ Memory.wf s.fr.slots

/-- The cursors of a sized ring are below `2C` and its capacity is a legal one (R22..R26). -/
abbrev RingRange (lcMax : Nat) (x : SampleRing) : Prop :=
  1 ≤ x.lc.toNat ∧ x.lc.toNat ≤ lcMax
    ∧ x.wp < 2 * x.capacity ∧ x.rp < 2 * x.capacity ∧ x.rv < 2 * x.capacity ∧ x.wv < 2 * x.capacity

/-- R28 (a) and (c): `used ≤ (wp − rv) mod 2C ≤ C` and `(wv − rp) mod 2C ≤ used`. -/
abbrev RingViews (x : SampleRing) : Prop :=
  x.used ≤ x.producerReady ∧ x.producerReady ≤ x.capacity ∧ x.consumerReady ≤ x.used

/-- R28 (d), R303: every slot that holds an unconsumed sample was written. -/
abbrev RingFilled (x : SampleRing) : Prop :=
  ∀ j, j < x.used → (x.mem.read (x.slotIndex x.rp j)).isSome = true

/-- The SampleRing invariants of R28; a ring that was never sized is as reset left it. -/
abbrev RingInv (lcMax : Nat) (x : SampleRing) : Prop :=
  (x.sized = true → RingRange lcMax x ∧ RingViews x ∧ RingFilled x)
    ∧ (x.sized = false → x = SampleRing.reset)

/-- Both rings. -/
abbrev RingsInv (s : State) : Prop := RingInv s.lcMax s.ring0 ∧ RingInv s.lcMax s.ring1

/-- The overlap register holds a value in `[0, 0.875]` (R36). -/
abbrev OverlapLegal (f : F32) : Prop := 0 ≤ scaled f ∧ 8 * scaled f ≤ 7 * (oneUnit : Int)

/-- The configuration registers in Ready (R34, R37, R38, R41): derived values and window table match the registers. -/
abbrev ReadyCfg (s : State) : Prop :=
  10 ≤ s.cfg.fftOrder.toNat ∧ s.cfg.fftOrder.toNat ≤ 13
    ∧ s.cfg.fftSize = sizeOfOrder s.cfg.fftOrder.toNat
    ∧ s.cfg.numBins = binsOfSize s.cfg.fftSize
    ∧ s.cfg.hopSize = Numerics.hop s.cfg.fftSize s.cfg.overlap
    ∧ s.fr.bins = s.cfg.numBins
    ∧ s.win = windowTable s.cfg.windowType s.cfg.fftSize

/-- The configuration invariant (R36, R37, R38, R41). -/
abbrev CfgInv (s : State) : Prop := OverlapLegal s.cfg.overlap ∧ (s.cfg.state = .ready → ReadyCfg s)

/-- Accumulator positions below `writePos` hold samples (R42); the right channel only in a Stereo block. -/
abbrev AccFilled (s : State) : Prop :=
  (∀ j, j < s.writePos → (s.acc0.read j).isSome = true)
    ∧ (s.variant = .stereo → ∀ j, j < s.writePos → (s.acc1.read j).isSome = true)

/-- The write offset is below `fftSize` at every command boundary (R29), 0 before the first PREPARE. -/
abbrev OffsetInv (s : State) : Prop :=
  (s.cfg.state = .ready → s.writePos < s.cfg.fftSize) ∧ (s.cfg.state = .unconfigured → s.writePos = 0)

/-- A slot that holds a whole frame of the block's variant (R44, R45). -/
abbrev WholeSlot (s : State) (x : Slot) : Prop :=
  x.mag.length = s.fr.bins ∧ (s.variant = .stereo → x.pan.length = s.fr.bins)

/-- R46, R301, R303: the 32-bit cursors agree with the true lead, and the slots of the newest `min(lead, 512)` frames
were written. -/
abbrev FrameInv (s : State) : Prop :=
  s.fr.lead = s.fr.trueLead % 2 ^ 32
    ∧ (∀ i, i < min s.fr.trueLead frameSlots →
        ∃ x, s.fr.slots.read (frameSlot (s.fr.w - 1 - BitVec.ofNat 32 i)) = some x ∧ WholeSlot s x)

/-- The analyser's invariant: configuration, offset, accumulators, FrameRing. -/
abbrev AnalyserInv (s : State) : Prop := CfgInv s ∧ OffsetInv s ∧ AccFilled s ∧ FrameInv s

/-- A command in progress is one its port accepts (R90). -/
abbrev BusyAccepted (s : State) : Prop :=
  ∀ q w, (s.port q).busy = some w → ∃ op, opOf w = some op ∧ op.row.ports.contains q = true

/-- Ports `P`, `D` and `R` have no command in progress: what a reconfiguration command needs (R77, R297; log 13). -/
abbrev OthersIdle (s : State) : Prop := s.portP.busy = none ∧ s.portD.busy = none ∧ s.portR.busy = none

/-- No reconfiguration command is in progress: what every command of ports `P`, `D` and `R` needs (R77, R298; log 13). -/
abbrev Settled (s : State) : Prop := ∀ r ∈ s.busyOp .g, isReconfig r = false

/-- R77, R273, R297: while a reconfiguration command is in progress no other port has a command in progress. -/
abbrev ReconfigAlone (s : State) : Prop := ¬ Settled s → OthersIdle s

/-! ## What a command leaves unchanged -/

/-- Every SampleRing is unchanged. -/
abbrev SameRings (s t : State) : Prop := ∀ q, t.ring q = s.ring q

/-- Every SampleRing but `q` is unchanged. -/
abbrev SameOtherRings (q : RingId) (s t : State) : Prop := ∀ o, o ≠ q → t.ring o = s.ring o

/-- The words on every port are unchanged. -/
abbrev SamePorts (s t : State) : Prop := ∀ q, t.port q = s.port q

/-- The active port has given the response words and nothing else changed on any port (R100). -/
abbrev Responded (ws : List Word) (s t : State) : Prop :=
  (∀ q, q ≠ s.active → t.port q = s.port q)
    ∧ t.port s.active = { s.port s.active with output := (s.port s.active).output ++ ws }

/-- The schedule and the machine's fixed parameters are unchanged. -/
abbrev SameMachine (s t : State) : Prop :=
  t.variant = s.variant ∧ t.lcMax = s.lcMax ∧ t.active = s.active ∧ t.agenda = s.agenda

/-- Configuration and window table are unchanged. -/
abbrev SameConfiguration (s t : State) : Prop := t.cfg = s.cfg ∧ t.win = s.win

/-- Accumulators, their offset and the work buffers are unchanged. -/
abbrev SameIngest (s t : State) : Prop :=
  t.acc0 = s.acc0 ∧ t.acc1 = s.acc1 ∧ t.writePos = s.writePos ∧ t.fftbuf0 = s.fftbuf0 ∧ t.fftbuf1 = s.fftbuf1

/-- The whole analyser is unchanged. -/
abbrev SameAnalyser (s t : State) : Prop := SameConfiguration s t ∧ SameIngest s t ∧ t.fr = s.fr

/-! ## Abstract contents -/

/-- What a ring holds, oldest first (R28 d): the words of the `used` slots from `rp` on. -/
def SampleRing.contents (x : SampleRing) : List (Option F32) :=
  (List.range x.used).map fun j => x.mem.read (x.slotIndex x.rp j)

/-- The queue `Q` of R231, oldest first: the frames with sequence numbers `FR.w − avail .. FR.w − 1` (R46). -/
def FrameRing.queue (x : FrameRing) : List (Option Slot) :=
  (List.range x.avail).map fun i => x.slots.read (frameSlot (x.w - BitVec.ofNat 32 (x.avail - i)))

/-- Appending to a queue of at most 512 frames that drops its oldest (R231). -/
def dropOldest (q : List (Option Slot)) (f : Slot) : List (Option Slot) :=
  let all := q ++ [some f]
  all.drop (all.length - frameSlots)

/-! ## Frames (R46, R193) -/

/-- The number of frames a PUSHSAMPLES of `n` samples produces from offset `p` (R193, C1). -/
def framesProduced (p n size hop : Nat) : Nat := if p + n < size then 0 else (p + n - size) / hop + 1

/-- The offset it leaves (R193). -/
def finalOffset (p n size hop : Nat) : Nat :=
  if p + n < size then p + n else (size - hop) + (p + n - size) % hop

/-! ## Runs and fairness (R68, R69, R72) -/

/-- Words offered on the four ports from outside (R90). -/
def offerWords (p d r g : List Word) (s : State) : State :=
  { s with
    portP := { s.portP with input := s.portP.input ++ p }
    portD := { s.portD with input := s.portD.input ++ d }
    portR := { s.portR with input := s.portR.input ++ r }
    portG := { s.portG with input := s.portG.input ++ g } }

/-- One move: some words are offered, and one turn is taken. -/
def Moves (s : State) (turn : Turn) (t : State) : Prop :=
  ∃ p d r g, step { offerWords p d r g s with agenda := [turn] } = .next t

/-- A run without end: every state follows from the one before by a move (R72). -/
def IsRun (run : ℕ → State) (turns : ℕ → Turn) : Prop := ∀ n, Moves (run n) (turns n) (run (n + 1))

/-- The fairness of SYNC_W (R68): if `wp` stops changing, `wv = wp` holds after finitely many steps. -/
def FairW (run : ℕ → State) (q : RingId) : Prop :=
  ∀ n, (∀ m, n ≤ m → ((run m).ring q).sized = true ∧ ((run m).ring q).wp = ((run n).ring q).wp) →
    ∃ m, n ≤ m ∧ ∀ k, m ≤ k → ((run k).ring q).wv = ((run k).ring q).wp

/-- The fairness of SYNC_R (R69): if `rp` stops changing, `rv = rp` holds after finitely many steps. -/
def FairR (run : ℕ → State) (q : RingId) : Prop :=
  ∀ n, (∀ m, n ≤ m → ((run m).ring q).sized = true ∧ ((run m).ring q).rp = ((run n).ring q).rp) →
    ∃ m, n ≤ m ∧ ∀ k, m ≤ k → ((run k).ring q).rv = ((run k).ring q).rp

/-- The liveness assumption of R72: the premise a claim about every run of the block takes (log 19). -/
def Fair (run : ℕ → State) : Prop := ∀ q, FairW run q ∧ FairR run q

/-- A schedule in which each synchroniser moves its view again and again: enough for `Fair` (Laws/Fairness.lean). -/
def FairTurns (turns : ℕ → Turn) : Prop :=
  ∀ q n, (∃ m k, n ≤ m ∧ turns m = .syncW q (k + 1)) ∧ ∃ m k, n ≤ m ∧ turns m = .syncR q (k + 1)

/-! ## Schedules and the end of a run -/

/-- The eager schedule of R302: after every turn the views of both rings step to the current cursors. -/
def eager : List Turn → List Turn
  | [] => []
  | turn :: rest =>
    turn :: .syncW .ring0 (2 ^ 23) :: .syncR .ring0 (2 ^ 23) :: .syncW .ring1 (2 ^ 23) :: .syncR .ring1 (2 ^ 23) ::
      eager rest

/-- A ring whose views have caught up, or that was never sized (R305). -/
abbrev CaughtUp (x : SampleRing) : Prop := x.sized = true → x.wv = x.wp ∧ x.rv = x.rp

/-- The end of a run (R305): every port has delivered its last command and every synchroniser has caught up. -/
abbrev RunOver (s : State) : Prop :=
  (∀ q, (s.port q).input = [] ∧ (s.port q).busy = none) ∧ CaughtUp s.ring0 ∧ CaughtUp s.ring1

end Sys2Proof.Machine
end

