-- ==== Sys2Proof/Machine/Reference.lean ====
section
/-!
DEFINITION. The reference semantics: the real formulas of the spec that NUM's results stand for (R11, R13). They are
noncomputable and no step uses them. A claim about closeness or about the peak of a sine takes `NumClose` or
`PeakLocation` as a premise (R199 F4, F5); the model assumes neither (log 26).
-/

namespace Sys2Proof.Machine

open Sys2Proof

/-- `real(x)` (R11). -/
noncomputable def realOf (x : F32) : ℝ := (scaled x : ℝ) / 2 ^ 149

namespace Ref

/-- Hann: `0.5·(1 − cos(2πi/(N − 1)))` (R154). -/
noncomputable def hann (size i : ℕ) : ℝ := 0.5 * (1 - Real.cos (2 * Real.pi * i / ((size : ℝ) - 1)))

/-- Blackman-Harris: `a0 − a1·cos(2πi/(N−1)) + a2·cos(4πi/(N−1)) − a3·cos(6πi/(N−1))` (R155, R7). -/
noncomputable def blackmanHarris (size i : ℕ) : ℝ :=
  0.35875 - 0.48829 * Real.cos (2 * Real.pi * i / ((size : ℝ) - 1))
    + 0.14128 * Real.cos (4 * Real.pi * i / ((size : ℝ) - 1))
    - 0.01168 * Real.cos (6 * Real.pi * i / ((size : ℝ) - 1))

/-- The window coefficient of a type (R154, R155). -/
noncomputable def window (type : WindowType) (size i : ℕ) : ℝ :=
  match type with
  | .hann => hann size i
  | .blackmanHarris => blackmanHarris size i

/-- The hop size `max(1, floor(fftSize·(1 − f)))` over the reals (R158). -/
noncomputable def hop (size : ℕ) (f : ℝ) : ℕ := max 1 ⌊(size : ℝ) * (1 - f)⌋₊

/-- Real part of the unscaled forward transform (R187). -/
noncomputable def re (size : ℕ) (y : ℕ → ℝ) (k : ℕ) : ℝ :=
  ∑ j ∈ Finset.range size, y j * Real.cos (2 * Real.pi * j * k / size)

/-- Imaginary part of the unscaled forward transform (R187). -/
noncomputable def im (size : ℕ) (y : ℕ → ℝ) (k : ℕ) : ℝ :=
  -∑ j ∈ Finset.range size, y j * Real.sin (2 * Real.pi * j * k / size)

/-- The unscaled forward transform `X[k] = Σ y[j]·e^(−2πijk/N)` of a complex sequence (R187). -/
noncomputable def dft (size : ℕ) (y : ℕ → ℂ) (k : ℕ) : ℂ :=
  ∑ j ∈ Finset.range size, y j * Complex.exp (-(2 * Real.pi * j * k / size) * Complex.I)

/-- `mag = sqrt(re² + im²)/N` (R189). -/
noncomputable def mag (re im : ℝ) (size : ℕ) : ℝ := Real.sqrt (re ^ 2 + im ^ 2) / size

/-- `max(mag > 0 ? 20·log10(mag) : −100, −100)` (R191). -/
noncomputable def db (mag : ℝ) : ℝ := max (if 0 < mag then 20 * Real.logb 10 mag else -100) (-100)

/-- The combined magnitude `(magL + magR)/2` (R214). -/
noncomputable def mean2 (a b : ℝ) : ℝ := (a + b) / 2

/-- `(magR − magL)/(magL + magR)` where `magL + magR > 10^−10`, else 0 (R215). -/
noncomputable def pan (a b : ℝ) : ℝ := if (1e-10 : ℝ) < a + b then (b - a) / (a + b) else 0

/-! ## The radix-2 decimation-in-time arrangement of R190 (informative there) -/

/-- `bitrev`: the index with its `order` low bits reversed. -/
def bitrev : ℕ → ℕ → ℕ
  | 0, _ => 0
  | order + 1, j => (j % 2) * 2 ^ order + bitrev order (j / 2)

/-- The twiddle factor `cos(2πq/m) − i·sin(2πq/m)`. -/
noncomputable def twiddle (m q : ℕ) : ℂ := Complex.exp (-(2 * Real.pi * q / m) * Complex.I)

/-- One stage of butterflies over blocks of `m` points: `u + W·x[q + m/2]` and `u − W·x[q + m/2]`. -/
noncomputable def butterflies (m : ℕ) (x : ℕ → ℂ) (p : ℕ) : ℂ :=
  if p % m < m / 2 then x p + twiddle m (p % m) * x (p + m / 2)
  else x (p - m / 2) - twiddle m (p % m - m / 2) * x p

/-- The stages `1 .. order` on the bit-reversed load (R190). -/
noncomputable def butterflyFft (order : ℕ) (y : ℕ → ℂ) : ℕ → ℂ :=
  (List.range order).foldl (fun x stage => butterflies (2 ^ (stage + 1)) x) (fun p => y (bitrev order p))

end Ref

/-- The largest finite binary32 value. -/
noncomputable def maxFinite : ℝ := realOf 0x7F7FFFFF

/-- A stored word is within `ε` of a reference value, absolutely for values up to 1 and relatively to `scale` above. -/
def Near (ε scale : ℝ) (x : F32) (reference : ℝ) : Prop := isFinite x = true ∧ |realOf x - reference| ≤ ε * max 1 scale

/-- Closeness of NUM to the reference within `ε`, function by function (R199 F5): a premise a claim may take, never
proved here. It speaks of finite operands whose reference value, and the sums on the way to it, are in the range of the
format, and of magnitudes that are not negative (R189). -/
structure NumClose (ε : ℝ) : Prop where
  window : ∀ (type : WindowType) (size i : ℕ), 2 ≤ size → i < size →
    Near ε 1 (Numerics.window type size i) (Ref.window type size i)
  mul : ∀ x w : F32, isFinite x = true → isFinite w = true → |realOf x * realOf w| ≤ maxFinite →
    Near ε |realOf x * realOf w| (Numerics.mul x w) (realOf x * realOf w)
  rfft : ∀ (size : ℕ) (y : List F32) (k : ℕ), y.length = size → (∀ v ∈ y, isFinite v = true) → k ≤ size / 2 →
    (y.map fun v => |realOf v|).sum ≤ maxFinite →
    Near ε (y.map fun v => |realOf v|).sum (Numerics.rfft size y k).1 (Ref.re size (fun j => realOf (y.getD j 0)) k)
      ∧ Near ε (y.map fun v => |realOf v|).sum (Numerics.rfft size y k).2 (Ref.im size (fun j => realOf (y.getD j 0)) k)
  mag : ∀ (re im : F32) (size : ℕ), 0 < size → isFinite re = true → isFinite im = true →
    realOf re ^ 2 + realOf im ^ 2 ≤ maxFinite →
    Near ε (Ref.mag (realOf re) (realOf im) size) (Numerics.mag re im size) (Ref.mag (realOf re) (realOf im) size)
  db : ∀ m : F32, isFinite m = true → Near ε |Ref.db (realOf m)| (Numerics.db m) (Ref.db (realOf m))
  mean2 : ∀ a b : F32, isFinite a = true → isFinite b = true → 0 ≤ realOf a → 0 ≤ realOf b →
    realOf a + realOf b ≤ maxFinite →
    Near ε (Ref.mean2 (realOf a) (realOf b)) (Numerics.mean2 a b) (Ref.mean2 (realOf a) (realOf b))
  pan : ∀ a b : F32, isFinite a = true → isFinite b = true → 0 ≤ realOf a → 0 ≤ realOf b →
    realOf a + realOf b ≤ maxFinite →
    Near ε 1 (Numerics.pan a b) (Ref.pan (realOf a) (realOf b))

/-- The left accumulator of a Ready block holds a frame's worth of a sine of amplitude `a`, frequency `f` and phase `φ`
sampled at `rate`, each sample within the fraction `ε` of the amplitude. -/
def HoldsSine (s : State) (a f φ rate ε : ℝ) : Prop :=
  s.cfg.state = .ready ∧ CfgInv s ∧ 0 < a ∧ 0 < f ∧ 2 * f < rate ∧ ∀ t, t < s.cfg.fftSize →
    isFinite (s.accWord .left t) = true
      ∧ |realOf (s.accWord .left t) - a * Real.sin (2 * Real.pi * f * t / rate + φ)| ≤ ε * a

/-- Peak location (R199 F4): the largest bin of a sine's MagnitudeFrame is `round(f·fftSize/rate) ± 1`. A premise a claim
may take, for the sines it is about (the source gives no range of amplitudes and frequencies); never proved here. -/
def PeakLocation (sine : ℝ → ℝ → ℝ → ℝ → Prop) (ε : ℝ) : Prop :=
  ∀ (s : State) (a f φ rate : ℝ), sine a f φ rate → HoldsSine s a f φ rate ε →
    ∃ (k : ℕ) (peak : F32), s.monoFrame.mag[k]? = some peak ∧ (∀ x ∈ s.monoFrame.mag, realOf x ≤ realOf peak)
      ∧ |(k : ℤ) - round (f * s.cfg.fftSize / rate)| ≤ 1

end Sys2Proof.Machine
end

