-- ==== Sys2Proof/Certificates/Slice0/Obligations.lean ====
section
/-!
DEFINITION. The statements for the provers. Each says a rule of spec/ in the model's terms; none is proved here.
-/

open Sys2Proof Sys2Proof.Machine

/-! ## Encoding -/

/-- Command words of all fifteen commands, those of 95_test_vectors.md V60 and others written out from R92 and R94, decode to
the commands they stand for, and reserved words of V61, one of them on a wrong port, are taken alone. -/
def Obligations.SpecWordsDecode : Prop :=
  decode .g [0x01000003] = .command (.srSetSize .ring0 3) []
    ∧ decode .g [0x0180000E] = .command (.srSetSize .ring1 14) []
    ∧ decode .p [0x02800001, 0x3F800000, 7] = .command (.srPush .ring1 [0x3F800000]) [7]
    ∧ decode .d [0x03000010] = .command (.srPop .ring0 16) []
    ∧ decode .p [0x04000000] = .command (.srGetFree .ring0) []
    ∧ decode .d [0x05800000] = .command (.srGetReady .ring1) []
    ∧ decode .g [0x1000000A, 0x473B8000] = .command (.prepare 10 0x473B8000) []
    ∧ decode .g [0x11000001] = .command (.setWindow .blackmanHarris) []
    ∧ decode .g [0x12000000, 0x3F400000] = .command (.setOverlap 0x3F400000) []
    ∧ decode .r [0x13000000] = .command .getFftSize []
    ∧ decode .p [0x14000000] = .command .getNumBins []
    ∧ decode .g [0x15000000] = .command .getSampleRate []
    ∧ decode .d [0x20000001, 5] = .command (.pushSamples [5]) []
    ∧ decode .d [0x21000002, 1, 2, 3, 4] = .command (.pushSamples2 [1, 2] [3, 4]) []
    ∧ decode .r [0x28000201] = .command (.pullFrame 513) []
    ∧ decode .r [0x29000000] = .command .pullFrame2 []
    ∧ decode .p [0x04000001] = .reserved none []
    ∧ decode .g [0x01000023] = .reserved none []
    ∧ decode .g [0x11000002] = .reserved none []
    ∧ decode .g [0x30000000] = .reserved none []
    ∧ decode .g [0x02000002, 1, 2] = .reserved (some .srPush) [1, 2]

/-- R91..R95: on every port that accepts it, a well-formed command decodes from its own words, whatever words follow. -/
def Obligations.DecodeInvertsEncode : Prop :=
  ∀ (i : Instr) (rest : List Word) (q : Port), i.wellFormed = true → q ∈ i.op.row.ports →
    decode q (encode i ++ rest) = .command i rest

/-- R91..R95: whatever decodes to a command was that command's words, the command is well-formed and the port accepts it: no
bit of a command word is ignored. -/
def Obligations.EncodeInvertsDecode : Prop :=
  ∀ (q : Port) (words : List Word) (i : Instr) (rest : List Word),
    decode q words = .command i rest →
      encode i ++ rest = words ∧ i.wellFormed = true ∧ q ∈ i.op.row.ports

/-- R99: the opcode bytes the rule lists select no row; such a word is taken alone (R95), and a port whose next word has one
is refused. -/
def Obligations.ReservedOpcodesRefused : Prop :=
  ∀ (w : Word),
    (let opc := (w.extractLsb' 24 8).toNat
     opc = 0 ∨ (0x06 ≤ opc ∧ opc ≤ 0x0F) ∨ (0x16 ≤ opc ∧ opc ≤ 0x1F) ∨ (0x22 ≤ opc ∧ opc ≤ 0x27) ∨ 0x2A ≤ opc) →
    opOf w = none
      ∧ (∀ (q : Port) (rest : List Word), decode q (w :: rest) = .reserved none rest)
      ∧ ∀ (s : State) (q : Port) (turns : List Turn) (rest : List Word),
          s.agenda = .run q :: turns → (s.port q).busy = none → (s.port q).input = w :: rest →
          step s = .refused .reservedEncoding

/-- R61: words serialised to bytes and read back are the same words, and byte 0 of a word carries its bits `[7:0]`. -/
def Obligations.SerialisedWordsAreLittleEndian : Prop :=
  (∀ ws : List Word, wordsOfBytes (bytesOfWords ws) = ws)
    ∧ ∀ (w : Word) (b0 b1 b2 b3 : Byte), bytesOfWord w = [b0, b1, b2, b3] →
        w.toNat = b0.toNat + 2 ^ 8 * b1.toNat + 2 ^ 16 * b2.toNat + 2 ^ 24 * b3.toNat

/-! ## Steps -/

/-- A step runs the decoded command: with port `q`'s turn next, the command in progress (or, with none, the next one) is run
by `exec` on the state with the command's words taken, port `q` active and the turn gone; a SR_PUSH or SR_POP in
progress is limited to the count it measured when it began (R71). Without a turn the state is held (R40, R280). -/
def Obligations.StepRunsDecodedCommand : Prop :=
  (∀ (s : State) (q : Port) (turns : List Turn) (i : Instr) (rest : List Word),
      s.agenda = .run q :: turns → (s.port q).busy = none → decode q (s.port q).input = .command i rest →
      step s = exec i (onPort q rest none none { s with agenda := turns }))
    ∧ (∀ (s : State) (q : Port) (turns : List Turn) (w : Word) (i : Instr) (rest : List Word),
      s.agenda = .run q :: turns → (s.port q).busy = some w → decode q (w :: (s.port q).input) = .command i rest →
      step s = exec (limited (s.port q).measured i) (onPort q rest none none { s with agenda := turns }))
    ∧ ∀ s : State, s.agenda = [] → step s = .next s

/-- Taking a command word and completing the command in the port's next turn gives what one turn gives (R298: a command
has a beginning and an end; log 12). That a command that begins on a port with a command in progress is the fault of a
second producer or consumer, before any test of that command, is the model's reading of R40 and R296 (log 14, log 17). -/
def Obligations.CommandBeginsAndEnds : Prop :=
  (∀ (s s1 : State) (q : Port) (turns : List Turn) (i : Instr) (rest : List Word),
      s.agenda = .start q :: .run q :: turns → decode q (s.port q).input = .command i rest → step s = .next s1 →
      step s1 = step { s with agenda := .run q :: turns })
    ∧ ∀ (s : State) (q : Port) (turns : List Turn) (w : Word),
      s.agenda = .start q :: turns → (s.port q).busy = some w → step s = .fault .secondProducerOrConsumer

/-- Splitting a PUSHSAMPLES or a PUSHSAMPLES2 changes nothing (95_test_vectors.md V22, R181, R211). -/
def Obligations.SplittingPushSamplesChangesNothing : Prop :=
  (∀ (a b : List F32) (s : State),
      exec (.pushSamples (a ++ b)) s = andThen (exec (.pushSamples a) s) (exec (.pushSamples b)))
    ∧ ∀ (la lb ra rb : List F32) (s : State), la.length = ra.length →
      exec (.pushSamples2 (la ++ lb) (ra ++ rb)) s =
        andThen (exec (.pushSamples2 la ra) s) (exec (.pushSamples2 lb rb))

/-- R181, R211: processing part of a PUSHSAMPLES or PUSHSAMPLES2 in progress, and then completing it, gives what completing
it at once gives. -/
def Obligations.PartThenRunIsRun : Prop :=
  ∀ (s s1 : State) (w : Word) (op : Op) (k : Nat) (turns : List Turn),
    s.agenda = .part k :: .run .d :: turns → s.portD.busy = some w → opOf w = some op →
    (op = .pushSamples ∨ op = .pushSamples2) → op.need w ≤ s.portD.input.length → step s = .next s1 →
    step s1 = step { s with agenda := .run .d :: turns }

/-! ## SampleRing -/

/-- R121: SR_SETSIZE creates or resizes the ring to `2^lc`, empties it, and leaves everything else as it was (R50). -/
def Obligations.SetSizeEmptiesRing : Prop :=
  ∀ (s : State) (ch : RingId) (lc : BitVec 5),
    s.active = .g → s.hasRing ch = true → 1 ≤ lc.toNat → lc.toNat ≤ s.lcMax → OthersIdle s →
    ∃ t, exec (.srSetSize ch lc) s = .next t
      ∧ (t.ring ch).sized = true ∧ (t.ring ch).lc = lc ∧ (t.ring ch).capacity = 2 ^ lc.toNat
      ∧ (t.ring ch).wp = 0 ∧ (t.ring ch).rp = 0 ∧ (t.ring ch).rv = 0 ∧ (t.ring ch).wv = 0
      ∧ (t.ring ch).contents = [] ∧ (t.ring ch).producerFree = 2 ^ lc.toNat ∧ (t.ring ch).consumerReady = 0
      ∧ SameOtherRings ch s t ∧ SameAnalyser s t ∧ SamePorts s t ∧ SameMachine s t

/-- R122: SR_PUSH stores the first `k = min(n, C − ((wp − rv) mod 2C))` samples in the slots from `wp` on, moves `wp` past
them, and changes nothing else. -/
def Obligations.PushStoresPrefix : Prop :=
  ∀ (s : State) (ch : RingId) (data : List F32),
    s.active = .p → s.hasRing ch = true → (s.ring ch).sized = true → Settled s →
    ∃ t, exec (.srPush ch data) s = .next t
      ∧ (let x := s.ring ch
         let y := t.ring ch
         let k := min data.length (x.capacity - cursorDiff x.capacity x.wp x.rv)
         y.wp = (x.wp + k) % (2 * x.capacity)
          ∧ (∀ j, j < k → y.mem.read ((x.wp + j) % x.capacity) = data[j]?)
          ∧ (∀ a, (∀ j, j < k → (x.wp + j) % x.capacity ≠ a) → y.mem.read a = x.mem.read a)
          ∧ y.sized = x.sized ∧ y.lc = x.lc ∧ y.rp = x.rp ∧ y.rv = x.rv ∧ y.wv = x.wv)
      ∧ SameOtherRings ch s t ∧ SameAnalyser s t ∧ SamePorts s t ∧ SameMachine s t

/-- R125, R100: SR_POP answers `k = min(n, (wv − rp) mod 2C)` and the `k` words of the slots from `rp` on, in ring order, moves
`rp` past them, and changes nothing else; the slots keep their words. -/
def Obligations.PopReturnsOldest : Prop :=
  ∀ (s : State) (ch : RingId) (n : BitVec 23),
    s.active = .d → s.hasRing ch = true → (s.ring ch).sized = true → Settled s →
    ∃ (t : State) (out : List F32), exec (.srPop ch n) s = .next t
      ∧ (let x := s.ring ch
         let k := min n.toNat (cursorDiff x.capacity x.wv x.rp)
         out.length = k
          ∧ (∀ j v, j < k → x.mem.read ((x.rp + j) % x.capacity) = some v → out[j]? = some v)
          ∧ t.ring ch = { x with rp := (x.rp + k) % (2 * x.capacity) }
          ∧ Responded (BitVec.ofNat 32 k :: out) s t)
      ∧ SameOtherRings ch s t ∧ SameAnalyser s t ∧ SameMachine s t

/-- R127, R128, R100: SR_GETFREE and SR_GETREADY answer from the issuing side's cursor and view, on port P from `(wp, rv)` and
on port D from `(wv, rp)`, and change nothing. -/
def Obligations.QueriesAnswerIssuersView : Prop :=
  ∀ (s : State) (ch : RingId),
    s.hasRing ch = true → (s.ring ch).sized = true → Settled s →
    (let x := s.ring ch
     (s.active = .p → ∃ t u,
        exec (.srGetFree ch) s = .next t
          ∧ Responded [BitVec.ofNat 32 (x.capacity - cursorDiff x.capacity x.wp x.rv)] s t
          ∧ exec (.srGetReady ch) s = .next u
          ∧ Responded [BitVec.ofNat 32 (cursorDiff x.capacity x.wp x.rv)] s u
          ∧ SameRings s t ∧ SameAnalyser s t ∧ SameMachine s t ∧ SameRings s u ∧ SameAnalyser s u ∧ SameMachine s u)
      ∧ (s.active = .d → ∃ t u,
        exec (.srGetFree ch) s = .next t
          ∧ Responded [BitVec.ofNat 32 (x.capacity - cursorDiff x.capacity x.wv x.rp)] s t
          ∧ exec (.srGetReady ch) s = .next u
          ∧ Responded [BitVec.ofNat 32 (cursorDiff x.capacity x.wv x.rp)] s u
          ∧ SameRings s t ∧ SameAnalyser s t ∧ SameMachine s t ∧ SameRings s u ∧ SameAnalyser s u ∧ SameMachine s u))

/-- R127, R128: on a ring that meets R28, each side's free and ready counts add up to `C`; the producer's free space is
never more than the true one and the consumer's never less, the consumer's ready count never more and the producer's
never less. -/
def Obligations.CountsBracketTheTruth : Prop :=
  ∀ (lcMax : Nat) (x : SampleRing), x.sized = true → RingInv lcMax x →
    x.producerFree + x.producerReady = x.capacity ∧ x.consumerFree + x.consumerReady = x.capacity
      ∧ x.producerFree ≤ x.capacity - x.used ∧ x.capacity - x.used ≤ x.consumerFree
      ∧ x.consumerReady ≤ x.used ∧ x.used ≤ x.producerReady ∧ x.used ≤ x.capacity

/-- R120, R121: SR_SETSIZE with `lc = 0` or `lc > LC_MAX` is refused, and so is every other command on a ring that was never
sized. -/
def Obligations.RingNeedsLegalSize : Prop :=
  ∀ (s : State) (ch : RingId),
    s.hasRing ch = true →
    (∀ lc : BitVec 5, s.active = .g → (lc.toNat = 0 ∨ s.lcMax < lc.toNat) →
        exec (.srSetSize ch lc) s = .refused .badRingSize)
      ∧ ((s.ring ch).sized = false →
        (∀ data, s.active = .p → exec (.srPush ch data) s = .refused .ringNotSized)
          ∧ (∀ n : BitVec 23, s.active = .d → exec (.srPop ch n) s = .refused .ringNotSized)
          ∧ (s.active = .p ∨ s.active = .d → exec (.srGetFree ch) s = .refused .ringNotSized
              ∧ exec (.srGetReady ch) s = .refused .ringNotSized))

/-- R28 (d), R70: a SampleRing is a queue. On a ring that meets R28 a push appends its accepted prefix, a pop removes from
the front what it answers, and a synchroniser step leaves the contents alone. -/
def Obligations.SampleRingIsFifo : Prop :=
  ∀ (s t : State) (ch : RingId), (s.ring ch).sized = true → RingInv s.lcMax (s.ring ch) →
    (∀ data, exec (.srPush ch data) s = .next t →
        (t.ring ch).contents = (s.ring ch).contents ++ (data.take ((s.ring ch).accepted data)).map some)
      ∧ (∀ n : BitVec 23, exec (.srPop ch n) s = .next t →
        ∃ out : List F32, Responded (BitVec.ofNat 32 out.length :: out) s t
          ∧ (s.ring ch).contents = out.map some ++ (t.ring ch).contents)
      ∧ ∀ k, ((s.ring ch).syncW k).contents = (s.ring ch).contents
          ∧ ((s.ring ch).syncR k).contents = (s.ring ch).contents

/-- R10: `gray_W(b) = b xor (b >> 1)`; `ungray_W` is given by `b[W−1] = g[W−1]` and `b[i] = b[i+1] xor g[i]` and is its inverse;
the codes of `b` and `b + 1` differ in exactly one bit, the wrap included. -/
def Obligations.GrayCodeExchange : Prop :=
  ∀ (w : Nat), 0 < w →
    (∀ b : BitVec w, gray b = b ^^^ (b >>> 1))
      ∧ (∀ g : BitVec w, (ungray g).getLsbD (w - 1) = g.getLsbD (w - 1)
          ∧ ∀ i, i + 1 < w → (ungray g).getLsbD i = ((ungray g).getLsbD (i + 1)).xor (g.getLsbD i))
      ∧ (∀ b : BitVec w, ungray (gray b) = b)
      ∧ (∀ b : BitVec w, ∃ i, i < w ∧ ∀ j, j < w →
          ((gray b).getLsbD j ≠ (gray (b + 1)).getLsbD j ↔ j = i))

/-- R68, R69: a synchroniser step on a sized ring moves its view forward by `k`, at most to the cursor, and changes nothing
else; every value up to the cursor is reached by some `k`. -/
def Obligations.ViewsMoveForwardToCursor : Prop :=
  ∀ (s : State) (q : RingId) (k : Nat) (turns : List Turn),
    (s.ring q).sized = true → RingRange s.lcMax (s.ring q) →
    (let x := s.ring q
     (s.agenda = .syncW q k :: turns →
        step s = .next ({ s with agenda := turns }.setRing q
          { x with wv := (x.wv + min k (cursorDiff x.capacity x.wp x.wv)) % (2 * x.capacity) }))
      ∧ (s.agenda = .syncR q k :: turns →
        step s = .next ({ s with agenda := turns }.setRing q
          { x with rv := (x.rv + min k (cursorDiff x.capacity x.rp x.rv)) % (2 * x.capacity) }))
      ∧ (∀ v, v < 2 * x.capacity → cursorDiff x.capacity v x.wv ≤ cursorDiff x.capacity x.wp x.wv →
          ∃ k', (x.syncW k').wv = v)
      ∧ (∀ v, v < 2 * x.capacity → cursorDiff x.capacity v x.rv ≤ cursorDiff x.capacity x.rp x.rv →
          ∃ k', (x.syncR k').rv = v))

/-- R28: every step keeps the SampleRing invariants of both rings. -/
def Obligations.StepKeepsRingInvariants : Prop :=
  ∀ s t : State, RingsInv s → step s = .next t → RingsInv t

/-! ## Reset -/

/-- R49, R290: what reset leaves, for every block and every value of the reset parameters: Unconfigured, no ring sized, every
cursor and view and the offset zero, RESET_WINDOW and RESET_OVERLAP in their registers, and no storage word with a
value. `State.reset` is such a block with legal parameters (log 4, log 5). The registers without a reset value are the
model's choice (log 3) and not stated. -/
def Obligations.ResetLeavesSpecValues : Prop :=
  (∃ (variant : Variant) (lcMax : Nat) (window : WindowType) (overlap : F32),
      State.reset = State.resetWith variant lcMax window overlap ∧ 1 ≤ lcMax ∧ lcMax ≤ 22 ∧ OverlapLegal overlap)
    ∧ ∀ (variant : Variant) (lcMax : Nat) (window : WindowType) (overlap : F32),
    let s := State.resetWith variant lcMax window overlap
    s.variant = variant ∧ s.lcMax = lcMax ∧ s.cfg.state = .unconfigured
      ∧ s.cfg.windowType = window ∧ s.cfg.overlap = overlap
      ∧ (∀ q, (s.ring q).sized = false ∧ (s.ring q).wp = 0 ∧ (s.ring q).rp = 0 ∧ (s.ring q).rv = 0
          ∧ (s.ring q).wv = 0 ∧ ∀ a, (s.ring q).mem.read a = none)
      ∧ s.writePos = 0 ∧ s.fr.w = 0 ∧ s.fr.r = 0
      ∧ (∀ a, s.win.read a = none ∧ s.acc0.read a = none ∧ s.acc1.read a = none ∧ s.fftbuf0.read a = none
          ∧ s.fftbuf1.read a = none ∧ s.fr.slots.read a = none)

/-- Every invariant holds after reset, for every block whose RESET_OVERLAP is legal, and the model's own reset state is such
a block (log 4, log 5: its variant, LC_MAX and reset parameters are the model's choice or free). -/
def Obligations.ResetMeetsInvariants : Prop :=
  (∀ (variant : Variant) (lcMax : Nat) (window : WindowType) (overlap : F32), OverlapLegal overlap →
      (let s := State.resetWith variant lcMax window overlap
       RingsInv s ∧ AnalyserInv s ∧ MemoriesWf s ∧ BusyAccepted s ∧ ReconfigAlone s))
    ∧ OverlapLegal resetOverlap

/-! ## Configuration -/

/-- R152, R50: PREPARE stores the rate bit for bit, sets the order and the sizes, the hop and the window table for it, zeroes
the offset and the FrameRing's cursors, enters Ready, keeps `windowType` and `overlap`, and touches no SampleRing. -/
def Obligations.PrepareConfigures : Prop :=
  ∀ (s : State) (order : BitVec 8) (rate : F32),
    s.active = .g → 10 ≤ order.toNat → order.toNat ≤ 13 → OthersIdle s →
    ∃ t, exec (.prepare order rate) s = .next t
      ∧ t.cfg.state = .ready ∧ t.cfg.sampleRate = rate ∧ t.cfg.fftOrder.toNat = order.toNat
      ∧ t.cfg.fftSize = 2 ^ order.toNat ∧ t.cfg.numBins = t.cfg.fftSize / 2 + 1
      ∧ t.cfg.hopSize = Numerics.hop t.cfg.fftSize s.cfg.overlap
      ∧ t.cfg.windowType = s.cfg.windowType ∧ t.cfg.overlap = s.cfg.overlap
      ∧ (∀ i, i < t.cfg.fftSize → t.win.read i = some (Numerics.window s.cfg.windowType t.cfg.fftSize i))
      ∧ (∀ i, t.cfg.fftSize ≤ i → t.win.read i = none)
      ∧ t.writePos = 0 ∧ t.fr.w = 0 ∧ t.fr.r = 0 ∧ t.fr.bins = t.cfg.numBins ∧ t.fr.queue = []
      ∧ SameRings s t ∧ SamePorts s t ∧ SameMachine s t

/-- R153, R159: PREPARE with an order outside {10, 11, 12, 13} and SETOVERLAP with a NaN operand, in every
state (R273: operands are tested before the state and the race), are refused. -/
def Obligations.IllegalConfigurationRefused : Prop :=
  ∀ s : State, s.active = .g →
    (∀ (order : BitVec 8) (rate : F32),
        ¬ (order.toNat = 10 ∨ order.toNat = 11 ∨ order.toNat = 12 ∨ order.toNat = 13) →
        exec (.prepare order rate) s = .refused .badFftOrder)
      ∧ ∀ frac : F32, isNaN frac = true → exec (.setOverlap frac) s = .refused .nanOverlap

/-- R156: SETWINDOW writes the register, rebuilds the table in Ready, leaves it alone in Unconfigured, and changes nothing
else. -/
def Obligations.SetWindowRebuildsTable : Prop :=
  ∀ (s : State) (type : WindowType),
    s.active = .g → OthersIdle s →
    ∃ t, exec (.setWindow type) s = .next t
      ∧ t.cfg = { s.cfg with windowType := type }
      ∧ (s.cfg.state = .ready →
          (∀ i, i < s.cfg.fftSize → t.win.read i = some (Numerics.window type s.cfg.fftSize i))
            ∧ ∀ i, s.cfg.fftSize ≤ i → t.win.read i = none)
      ∧ (s.cfg.state = .unconfigured → t.win = s.win)
      ∧ SameIngest s t ∧ t.fr = s.fr ∧ SameRings s t ∧ SamePorts s t ∧ SameMachine s t

/-- R157: SETOVERLAP clamps its operand to [0, 0.875] on the real value (`−0.0` is kept), recomputes the hop size in Ready,
and changes nothing else. -/
def Obligations.SetOverlapClamps : Prop :=
  ∀ (s : State) (frac : F32),
    s.active = .g → isNaN frac = false → OthersIdle s →
    ∃ t, exec (.setOverlap frac) s = .next t
      ∧ (realOf frac < 0 → t.cfg.overlap = 0x00000000)
      ∧ (0.875 < realOf frac → t.cfg.overlap = 0x3F600000)
      ∧ (0 ≤ realOf frac → realOf frac ≤ 0.875 → t.cfg.overlap = frac)
      ∧ (s.cfg.state = .ready → t.cfg.hopSize = Numerics.hop s.cfg.fftSize t.cfg.overlap)
      ∧ (s.cfg.state = .unconfigured → t.cfg.hopSize = s.cfg.hopSize)
      ∧ t.cfg = { s.cfg with overlap := t.cfg.overlap, hopSize := t.cfg.hopSize }
      ∧ t.win = s.win ∧ SameIngest s t ∧ t.fr = s.fr ∧ SameRings s t ∧ SamePorts s t ∧ SameMachine s t

/-- R162, R163, R164: on every port the accessors answer `fftSize`, `numBins` and `sampleRate`, and change nothing. On port
`G`, where they reconfigure nothing, they need no idle port (log 13). -/
def Obligations.AccessorsAnswerConfiguration : Prop :=
  ∀ s : State, s.cfg.state = .ready → (s.active ≠ .g → Settled s) →
    ∃ t u v,
      exec .getFftSize s = .next t ∧ Responded [BitVec.ofNat 32 s.cfg.fftSize] s t
        ∧ exec .getNumBins s = .next u ∧ Responded [BitVec.ofNat 32 s.cfg.numBins] s u
        ∧ exec .getSampleRate s = .next v ∧ Responded [s.cfg.sampleRate] s v
        ∧ SameRings s t ∧ SameAnalyser s t ∧ SameMachine s t
        ∧ SameRings s u ∧ SameAnalyser s u ∧ SameMachine s u
        ∧ SameRings s v ∧ SameAnalyser s v ∧ SameMachine s v

/-- R165: accessors and data commands in state Unconfigured are refused, in every state (R273: that test comes before the
race). In Ready an accessor of port P, D or R issued while a reconfiguration command is in progress is the race of R297:
for PREPARE, SETWINDOW and SETOVERLAP R165 and R151 say so; that SR_SETSIZE counts as well is the model's reading of R121,
R77 and R273 (log 13). -/
def Obligations.UnconfiguredRefused : Prop :=
  (∀ (s : State) (data left right : List F32) (n : BitVec 24), s.cfg.state = .unconfigured →
      exec .getFftSize s = .refused .unconfigured
        ∧ exec .getNumBins s = .refused .unconfigured
        ∧ exec .getSampleRate s = .refused .unconfigured
        ∧ (s.active = .d → s.variant = .mono → exec (.pushSamples data) s = .refused .unconfigured)
        ∧ (s.active = .d → s.variant = .stereo → exec (.pushSamples2 left right) s = .refused .unconfigured)
        ∧ (s.active = .r → s.variant = .mono → exec (.pullFrame n) s = .refused .unconfigured)
        ∧ (s.active = .r → s.variant = .stereo → exec .pullFrame2 s = .refused .unconfigured))
    ∧ ∀ s : State, s.cfg.state = .ready → s.active ≠ .g → ¬ Settled s →
      exec .getFftSize s = .fault .reconfigRace ∧ exec .getNumBins s = .fault .reconfigRace
        ∧ exec .getSampleRate s = .fault .reconfigRace

/-- R158, R160 (H1, H2): for a legal overlap the hop size is between `fftSize/8` and `fftSize`; at 0 (both zeros), 0.5, 0.75
and 0.875 it is `fftSize`, `fftSize/2`, `fftSize/4` and `fftSize/8`. The hop is the default instance of R158 (log 7). -/
def Obligations.HopWithinBounds : Prop :=
  ∀ (order : Nat), 10 ≤ order → order ≤ 13 →
    (∀ f : F32, OverlapLegal f → 2 ^ order / 8 ≤ Numerics.hop (2 ^ order) f ∧ Numerics.hop (2 ^ order) f ≤ 2 ^ order)
      ∧ Numerics.hop (2 ^ order) 0x00000000 = 2 ^ order ∧ Numerics.hop (2 ^ order) 0x80000000 = 2 ^ order
      ∧ Numerics.hop (2 ^ order) 0x3F000000 = 2 ^ order / 2 ∧ Numerics.hop (2 ^ order) 0x3F400000 = 2 ^ order / 4
      ∧ Numerics.hop (2 ^ order) 0x3F600000 = 2 ^ order / 8

/-- R158: for every overlap that is a multiple of `2^−24` in [0, 0.875] the hop size equals the reference
`max(1, floor(fftSize·(1 − f)))` over the reals. The hop is the default instance of R158 (log 7). -/
def Obligations.HopMatchesReferenceOnGrid : Prop :=
  ∀ (order : Nat) (f : F32) (m : Nat), 10 ≤ order → order ≤ 13 → OverlapLegal f → realOf f = m / 2 ^ 24 →
    Numerics.hop (2 ^ order) f = Ref.hop (2 ^ order) (realOf f)

/-- R29, R37, R38, R41, R42, R46, R301: every step keeps the analyser's invariant: derived registers and window table match
the configuration, the offset is below `fftSize`, what is read later was written, and the FrameRing's cursors and slots
agree with the frames pushed. -/
def Obligations.StepKeepsAnalyserInvariant : Prop :=
  ∀ s t : State, AnalyserInv s → step s = .next t → AnalyserInv t

/-- Every step keeps every storage in its canonical form (log 1). -/
def Obligations.StepKeepsMemoriesCanonical : Prop :=
  ∀ s t : State, MemoriesWf s → step s = .next t → MemoriesWf t

/-- R77, R90, R273, R297: every step keeps that a command in progress is one its port accepts, and that no other port has a
command in progress while a reconfiguration command is. Which commands that excludes, log 13. -/
def Obligations.StepKeepsReconfigurationAlone : Prop :=
  ∀ s t : State, BusyAccepted s → ReconfigAlone s → step s = .next t → BusyAccepted t ∧ ReconfigAlone t

/-! ## Framing and the FFT step -/

/-- R193: a PUSHSAMPLES of `n` samples from offset `p` produces 0 frames if `p + n < N`, else `floor((p + n − N)/H) + 1`, and
leaves the offset `p + n`, else `(N − H) + ((p + n − N) mod H)`. It completes from every Ready state of a Mono block on
port D, and changes nothing outside the accumulator, the work buffer, the frame slots it fills and `FR.w`. -/
def Obligations.PushSamplesFramesAndOffset : Prop :=
  ∀ (s : State) (data : List F32),
    s.active = .d → s.variant = .mono → s.cfg.state = .ready → Settled s →
    ∃ t, exec (.pushSamples data) s = .next t
      ∧ (1 ≤ s.cfg.hopSize → s.cfg.hopSize ≤ s.cfg.fftSize → s.writePos < s.cfg.fftSize →
          (let frames := framesProduced s.writePos data.length s.cfg.fftSize s.cfg.hopSize
           t.fr.w = s.fr.w + BitVec.ofNat 32 frames
            ∧ t.writePos = finalOffset s.writePos data.length s.cfg.fftSize s.cfg.hopSize
            ∧ (∀ a, (∀ i, i < frames → frameSlot (s.fr.w + BitVec.ofNat 32 i) ≠ a) →
                t.fr.slots.read a = s.fr.slots.read a)
            ∧ ∀ a, s.cfg.fftSize ≤ a → t.acc0.read a = s.acc0.read a))
      ∧ t.fr.r = s.fr.r ∧ t.fr.bins = s.fr.bins ∧ t.acc1 = s.acc1 ∧ t.fftbuf1 = s.fftbuf1
      ∧ SameConfiguration s t ∧ SameRings s t ∧ SamePorts s t ∧ SameMachine s t

/-- R182: samples that do not fill the accumulator are written one after another from the offset on, the offset moves past
them, no frame is produced, and every other word keeps its value. -/
def Obligations.PushSamplesAppends : Prop :=
  ∀ (s : State) (data : List F32),
    s.active = .d → s.variant = .mono → s.cfg.state = .ready → Settled s →
    s.writePos + data.length < s.cfg.fftSize →
    ∃ t, exec (.pushSamples data) s = .next t
      ∧ t.writePos = s.writePos + data.length
      ∧ (∀ j, j < data.length → t.acc0.read (s.writePos + j) = data[j]?)
      ∧ (∀ a, a < s.writePos ∨ s.writePos + data.length ≤ a → t.acc0.read a = s.acc0.read a)
      ∧ t.acc1 = s.acc1 ∧ t.fftbuf0 = s.fftbuf0 ∧ t.fftbuf1 = s.fftbuf1 ∧ t.fr = s.fr
      ∧ SameConfiguration s t ∧ SameRings s t ∧ SamePorts s t ∧ SameMachine s t

/-- R183, R184, R232: the sample that fills the accumulator makes exactly one frame, the FFT step's frame of the filled
accumulator, in slot `FR.w mod 512`; then position `j < N − H` holds what position `j + H` held, the rest keeps its
words, and the offset is `N − H`. -/
def Obligations.FilledAccumulatorFramesAndShifts : Prop :=
  ∀ (s : State) (x : F32),
    s.active = .d → s.variant = .mono → s.cfg.state = .ready → Settled s →
    s.writePos + 1 = s.cfg.fftSize →
    ∃ t, exec (.pushSamples [x]) s = .next t
      ∧ (let filled := fun a => if a = s.writePos then some x else s.acc0.read a
         (∀ j, j < s.cfg.fftSize - s.cfg.hopSize → t.acc0.read j = filled (j + s.cfg.hopSize))
          ∧ ∀ j, s.cfg.fftSize - s.cfg.hopSize ≤ j → t.acc0.read j = filled j)
      ∧ t.writePos = s.cfg.fftSize - s.cfg.hopSize
      ∧ t.fr.w = s.fr.w + 1
      ∧ (∃ frame, t.fr.slots.read (frameSlot s.fr.w) = some frame
          ∧ frame.mag = (append x s).monoFrame.mag.take s.fr.bins)
      ∧ (∀ a, a ≠ frameSlot s.fr.w → t.fr.slots.read a = s.fr.slots.read a)
      ∧ t.fr.r = s.fr.r ∧ t.fr.bins = s.fr.bins ∧ t.acc1 = s.acc1

/-- R193, R211, R212: PUSHSAMPLES2 of `n` sample pairs makes the frames and leaves the offset of R193, with the one offset
for both channels. It completes from every Ready state of a Stereo block on port D, and changes nothing outside the
accumulators, the work buffers, the frame slots it fills and `FR.w`. -/
def Obligations.PushSamples2FramesAndOffset : Prop :=
  ∀ (s : State) (left right : List F32),
    s.active = .d → s.variant = .stereo → s.cfg.state = .ready → Settled s →
    ∃ t, exec (.pushSamples2 left right) s = .next t
      ∧ (left.length = right.length →
          1 ≤ s.cfg.hopSize → s.cfg.hopSize ≤ s.cfg.fftSize → s.writePos < s.cfg.fftSize →
          (let frames := framesProduced s.writePos left.length s.cfg.fftSize s.cfg.hopSize
           t.fr.w = s.fr.w + BitVec.ofNat 32 frames
            ∧ t.writePos = finalOffset s.writePos left.length s.cfg.fftSize s.cfg.hopSize
            ∧ (∀ a, (∀ i, i < frames → frameSlot (s.fr.w + BitVec.ofNat 32 i) ≠ a) →
                t.fr.slots.read a = s.fr.slots.read a)
            ∧ ∀ a, s.cfg.fftSize ≤ a → t.acc0.read a = s.acc0.read a ∧ t.acc1.read a = s.acc1.read a))
      ∧ t.fr.r = s.fr.r ∧ t.fr.bins = s.fr.bins
      ∧ SameConfiguration s t ∧ SameRings s t ∧ SamePorts s t ∧ SameMachine s t

/-- R211, R212: sample pairs that do not fill the accumulators go to the two channels at the same positions and no frame is
produced; the pair that fills them makes exactly one StereoFrame of both and shifts both alike. -/
def Obligations.StereoChannelsInLockStep : Prop :=
  ∀ (s : State) (left right : List F32),
    s.active = .d → s.variant = .stereo → s.cfg.state = .ready → Settled s →
    (left.length = right.length → s.writePos + left.length < s.cfg.fftSize →
      ∃ t, exec (.pushSamples2 left right) s = .next t
        ∧ t.writePos = s.writePos + left.length
        ∧ (∀ j, j < left.length → t.acc0.read (s.writePos + j) = left[j]? ∧ t.acc1.read (s.writePos + j) = right[j]?)
        ∧ (∀ a, a < s.writePos ∨ s.writePos + left.length ≤ a →
            t.acc0.read a = s.acc0.read a ∧ t.acc1.read a = s.acc1.read a)
        ∧ t.fr = s.fr)
    ∧ ∀ l r : F32, s.writePos + 1 = s.cfg.fftSize →
      ∃ t, exec (.pushSamples2 [l] [r]) s = .next t
        ∧ (let filled := fun (m : Memory F32) (x : F32) (a : Nat) => if a = s.writePos then some x else m.read a
           (∀ j, j < s.cfg.fftSize - s.cfg.hopSize →
              t.acc0.read j = filled s.acc0 l (j + s.cfg.hopSize) ∧ t.acc1.read j = filled s.acc1 r (j + s.cfg.hopSize))
            ∧ ∀ j, s.cfg.fftSize - s.cfg.hopSize ≤ j →
              t.acc0.read j = filled s.acc0 l j ∧ t.acc1.read j = filled s.acc1 r j)
        ∧ t.writePos = s.cfg.fftSize - s.cfg.hopSize ∧ t.fr.w = s.fr.w + 1
        ∧ (∃ frame, t.fr.slots.read (frameSlot s.fr.w) = some frame
            ∧ frame.mag = (append2 (l, r) s).stereoFrame.mag.take s.fr.bins
            ∧ frame.pan = (append2 (l, r) s).stereoFrame.pan.take s.fr.bins)
        ∧ ∀ a, a ≠ frameSlot s.fr.w → t.fr.slots.read a = s.fr.slots.read a

/-- R185..R192: with finite samples the MagnitudeFrame has `numBins` values; bin `k` is `NUM.db` of `NUM.mag` of bin `k` of
`NUM.rfft` over the products `NUM.mul(ACC[0][j], WIN[j])`. -/
def Obligations.MonoFrameIsTransformOfWindowedSamples : Prop :=
  ∀ s : State, s.frameFinite .left = true →
    (let y := (List.range s.cfg.fftSize).map fun j => Numerics.mul (s.accWord .left j) (s.winWord j)
     s.monoFrame.mag.length = s.cfg.numBins
      ∧ ∀ k, k < s.cfg.numBins →
        s.monoFrame.mag[k]? =
          some (Numerics.db (Numerics.mag (Numerics.rfft s.cfg.fftSize y k).1 (Numerics.rfft s.cfg.fftSize y k).2 s.cfg.fftSize)))

/-- R213, R214, R215: with finite samples the StereoFrame has `numBins` dB values, `NUM.db` of `NUM.mean2` of the two channels'
magnitudes, and `numBins` pans, `NUM.pan` of them, both channels with the one window table. -/
def Obligations.StereoFrameCombinesChannels : Prop :=
  ∀ s : State, s.frameFinite .left = true → s.frameFinite .right = true →
    (let y := fun c => (List.range s.cfg.fftSize).map fun j => Numerics.mul (s.accWord c j) (s.winWord j)
     let magC := fun c k =>
       Numerics.mag (Numerics.rfft s.cfg.fftSize (y c) k).1 (Numerics.rfft s.cfg.fftSize (y c) k).2 s.cfg.fftSize
     s.stereoFrame.mag.length = s.cfg.numBins ∧ s.stereoFrame.pan.length = s.cfg.numBins
      ∧ ∀ k, k < s.cfg.numBins →
        s.stereoFrame.mag[k]? = some (Numerics.db (Numerics.mean2 (magC .left k) (magC .right k)))
          ∧ s.stereoFrame.pan[k]? = some (Numerics.pan (magC .left k) (magC .right k)))

/-- R199 F1, R217 S5: silence. With every sample `+0.0` or `−0.0` every bin of the frame is exactly −100; in a Stereo block
every pan is `+0.0` as well (the sign of that zero is the
model's choice, log 22). -/
def Obligations.SilenceGivesFloor : Prop :=
  ∀ s : State, (∀ j, j < s.cfg.fftSize → isZero (s.accWord .left j) = true) →
    s.monoFrame.mag = List.replicate s.cfg.numBins 0xC2C80000
      ∧ ((∀ j, j < s.cfg.fftSize → isZero (s.accWord .right j) = true) →
        s.stereoFrame.mag = List.replicate s.cfg.numBins 0xC2C80000
          ∧ s.stereoFrame.pan = List.replicate s.cfg.numBins 0x00000000)

/-- R199 F2, R217 S4, R45: for finite samples every stored bin is at least −100 and no NaN, and every pan is in [−1, +1]. -/
def Obligations.StoredBinsInRange : Prop :=
  ∀ s : State, s.frameFinite .left = true →
    (∀ x ∈ s.monoFrame.mag, isNaN x = false ∧ -100 ≤ realOf x)
      ∧ (s.frameFinite .right = true →
        (∀ x ∈ s.stereoFrame.mag, isNaN x = false ∧ -100 ≤ realOf x)
          ∧ ∀ x ∈ s.stereoFrame.pan, isNaN x = false ∧ -1 ≤ realOf x ∧ realOf x ≤ 1)

/-- R217 S1, S2, S3, R215: equal channels give zero pans; with the right channel silent a bin's pan is exactly −1 where its
left magnitude is above `10^−10` and `+0.0` elsewhere, and with the left channel silent it is exactly +1 where its right
magnitude is above it and `+0.0` elsewhere. Of a magnitude that overflow makes a NaN no side is told (log 30). The sign of
the zero at or below the threshold is the model's choice (log 22). -/
def Obligations.PanTellsTheSides : Prop :=
  ∀ s : State, s.frameFinite .left = true → s.frameFinite .right = true →
    ((∀ j, j < s.cfg.fftSize → s.accWord .left j = s.accWord .right j) → ∀ x ∈ s.stereoFrame.pan, isZero x = true)
      ∧ (∀ k, k < s.cfg.numBins → (∀ j, j < s.cfg.fftSize → isZero (s.accWord .right j) = true) →
          ∃ m, (s.magnitudes .left)[k]? = some m
            ∧ (isNaN m = false → 1e-10 < realOf m → s.stereoFrame.pan[k]? = some 0xBF800000)
            ∧ (isNaN m = false → realOf m ≤ 1e-10 → s.stereoFrame.pan[k]? = some 0x00000000))
      ∧ ∀ k, k < s.cfg.numBins → (∀ j, j < s.cfg.fftSize → isZero (s.accWord .left j) = true) →
          ∃ m, (s.magnitudes .right)[k]? = some m
            ∧ (isNaN m = false → 1e-10 < realOf m → s.stereoFrame.pan[k]? = some 0x3F800000)
            ∧ (isNaN m = false → realOf m ≤ 1e-10 → s.stereoFrame.pan[k]? = some 0x00000000)

/-- R160 W1, W2, W3: the Hann table is symmetric with `+0.0` at both ends, and every coefficient of either table is in
[0, 1]. -/
def Obligations.WindowTableProperties : Prop :=
  ∀ (size : Nat), 2 ≤ size →
    (∀ i, i < size → (windowTable .hann size).read i = (windowTable .hann size).read (size - 1 - i))
      ∧ (windowTable .hann size).read 0 = some 0x00000000
      ∧ (windowTable .hann size).read (size - 1) = some 0x00000000
      ∧ ∀ (type : WindowType) (i : Nat), i < size →
        ∃ x, (windowTable type size).read i = some x ∧ isNaN x = false ∧ 0 ≤ realOf x ∧ realOf x ≤ 1

/-- R191, R199 F2: the dB map is exactly −100 = `0xC2C80000` for every magnitude up to `10^−5` that is a number, zero and
negative zero included, as the reference map is; `NUM.db` is never below −100 nor a NaN. The spec says so for finite
samples; that it also holds of a NaN magnitude, which overflow can make of them, is DEDUCED (log 30), and so is the
comparison of the exact value with `10^−5` (log 29). -/
def Obligations.DbFloorMatchesReference : Prop :=
  realOf 0xC2C80000 = -100
    ∧ (∀ m : F32, isNaN m = false → realOf m ≤ 1e-5 → Numerics.db m = 0xC2C80000 ∧ Ref.db (realOf m) = -100)
    ∧ ∀ m : F32, isNaN (Numerics.db m) = false ∧ -100 ≤ realOf (Numerics.db m)

/-- R215: for magnitudes that are numbers the pan map stores 0 wherever `magL + magR ≤ 10^−10`, as the reference map does; for magnitudes that are not
negative the reference is in [−1, +1], and so is the stored word, also for a
NaN magnitude (S4). The comparison of the exact sum with `10^−10` is DEDUCED (log 29), the sign of the zero the model's
choice (log 22), and so is what a NaN magnitude gives (log 30). -/
def Obligations.PanMatchesReferenceThreshold : Prop :=
  (∀ a b : F32, isNaN a = false → isNaN b = false → realOf a + realOf b ≤ 1e-10 →
      Numerics.pan a b = 0x00000000 ∧ Ref.pan (realOf a) (realOf b) = 0)
    ∧ (∀ a b : ℝ, 0 ≤ a → 0 ≤ b → -1 ≤ Ref.pan a b ∧ Ref.pan a b ≤ 1)
    ∧ ∀ a b : F32, isNaN (Numerics.pan a b) = false ∧ -1 ≤ realOf (Numerics.pan a b) ∧ realOf (Numerics.pan a b) ≤ 1

/-! ## FrameRing -/

/-- R235, R100: PULLFRAME on a ring that is not empty answers 1 and the first `min(n, FR.bins)` words of the oldest frame that
was not overwritten, moves `FR.r` past it, and changes nothing else. -/
def Obligations.PullFrameTakesOldest : Prop :=
  ∀ (s : State) (n : BitVec 24),
    s.active = .r → s.variant = .mono → s.cfg.state = .ready → Settled s →
    s.fr.trueLead < 2 ^ 32 → s.fr.w ≠ s.fr.r →
    ∃ (t : State) (out : List F32), exec (.pullFrame n) s = .next t
      ∧ (let lead := (s.fr.w - s.fr.r).toNat
         let oldest := if 512 < lead then s.fr.w - 512 else s.fr.r
         out.length = min n.toNat s.fr.bins
          ∧ (∀ (frame : Slot) (k : Nat), s.fr.slots.read (oldest.toNat % 512) = some frame →
              k < out.length → k < frame.mag.length → out[k]? = frame.mag[k]?)
          ∧ t.fr.r = oldest + 1)
      ∧ t.fr.w = s.fr.w ∧ t.fr.bins = s.fr.bins ∧ t.fr.slots = s.fr.slots
      ∧ Responded (1 :: out) s t ∧ SameConfiguration s t ∧ SameIngest s t ∧ SameRings s t ∧ SameMachine s t

/-- R237, R100: PULLFRAME2 on a ring that is not empty answers 1, then the `FR.bins` dB words and the `FR.bins` pan words of the
oldest frame that was not overwritten, moves `FR.r` past it, and changes nothing else. -/
def Obligations.PullFrame2TakesOldest : Prop :=
  ∀ s : State,
    s.active = .r → s.variant = .stereo → s.cfg.state = .ready → Settled s →
    s.fr.trueLead < 2 ^ 32 → s.fr.w ≠ s.fr.r →
    ∃ (t : State) (mag pan : List F32), exec .pullFrame2 s = .next t
      ∧ (let lead := (s.fr.w - s.fr.r).toNat
         let oldest := if 512 < lead then s.fr.w - 512 else s.fr.r
         mag.length = s.fr.bins ∧ pan.length = s.fr.bins
          ∧ (∀ frame : Slot, s.fr.slots.read (oldest.toNat % 512) = some frame → WholeSlot s frame →
              mag = frame.mag ∧ pan = frame.pan)
          ∧ t.fr.r = oldest + 1)
      ∧ t.fr.w = s.fr.w ∧ t.fr.bins = s.fr.bins ∧ t.fr.slots = s.fr.slots
      ∧ Responded (1 :: (mag ++ pan)) s t ∧ SameConfiguration s t ∧ SameIngest s t ∧ SameRings s t ∧ SameMachine s t

/-- R235, R237: a pull on an empty ring answers 0 and changes nothing else, `FR.r` included. -/
def Obligations.PullOnEmptyRingAnswersFalse : Prop :=
  ∀ (s : State) (n : BitVec 24),
    s.active = .r → s.cfg.state = .ready → Settled s → s.fr.trueLead < 2 ^ 32 → s.fr.w = s.fr.r →
    (s.variant = .mono → ∃ t, exec (.pullFrame n) s = .next t ∧ Responded [0] s t
        ∧ SameAnalyser s t ∧ SameRings s t ∧ SameMachine s t)
      ∧ (s.variant = .stereo → ∃ t, exec .pullFrame2 s = .next t ∧ Responded [0] s t
        ∧ SameAnalyser s t ∧ SameRings s t ∧ SameMachine s t)

/-- R231: between two PREPAREs the FrameRing is a queue of at most 512 frames that drops its oldest. A frame push appends the
pushed slot and drops the oldest of 513; a pull on a non-empty queue removes the front, and the queue is empty exactly
when the cursors are equal. The premise that the lead does not alias is R301's. -/
def Obligations.FrameRingIsDropOldestQueue : Prop :=
  ∀ s : State,
    s.fr.queue.length ≤ 512
      ∧ (s.fr.queue = [] ↔ s.fr.w = s.fr.r)
      ∧ (∀ frame : Slot, s.fr.lead + 1 < 2 ^ 32 →
          (frPush frame s).fr.queue = dropOldest s.fr.queue (s.framedSlot frame))
      ∧ (s.fr.w ≠ s.fr.r →
          s.fr.queue = s.fr.slots.read (frameSlot s.fr.oldest) :: s.fr.consumed.queue)

/-- R301: a pull after `2^32` or more frames were pushed since frame `FR.r` is a fault. That a race with a reconfiguration in
progress is reported before it is the model's choice (log 17). -/
def Obligations.FrameSequenceAliasFaults : Prop :=
  ∀ (s : State) (n : BitVec 24),
    s.active = .r → s.cfg.state = .ready → Settled s → 2 ^ 32 ≤ s.fr.trueLead →
    (s.variant = .mono → exec (.pullFrame n) s = .fault .frameSeqAlias)
      ∧ (s.variant = .stereo → exec .pullFrame2 s = .fault .frameSeqAlias)

/-! ## Whole-machine rules -/

/-- R277, R296, R60: each cursor and each storage has one writer. `SR[s].wp` and `mem` only SR_PUSH on port P, `SR[s].rp` only
SR_POP on port D, `ACC`, `ACC.writePos`, `FFTBUF`, `FR.w` and the slots only PUSHSAMPLES and PUSHSAMPLES2 on port D, `FR.r`
only the pulls on port R, the views no command; besides them SR_SETSIZE and PREPARE on port G. The configuration
registers, `WIN` and `FR.bins` are written on port G alone. -/
def Obligations.EachCursorHasOneWriter : Prop :=
  ∀ (i : Instr) (s t : State), exec i s = .next t →
    (let setsRing := fun q => s.active = .g ∧ ∃ lc, i = .srSetSize q lc
     let prepares := s.active = .g ∧ ∃ order rate, i = .prepare order rate
     let ingests := s.active = .d ∧ ((∃ data, i = .pushSamples data) ∨ ∃ left right, i = .pushSamples2 left right)
     (∀ q,
        ((t.ring q).wp ≠ (s.ring q).wp ∨ (t.ring q).mem ≠ (s.ring q).mem →
          (s.active = .p ∧ ∃ data, i = .srPush q data) ∨ setsRing q)
        ∧ ((t.ring q).rp ≠ (s.ring q).rp → (s.active = .d ∧ ∃ n, i = .srPop q n) ∨ setsRing q)
        ∧ ((t.ring q).rv ≠ (s.ring q).rv ∨ (t.ring q).wv ≠ (s.ring q).wv → setsRing q)
        ∧ ((t.ring q).sized ≠ (s.ring q).sized ∨ (t.ring q).lc ≠ (s.ring q).lc → setsRing q))
      ∧ (t.acc0 ≠ s.acc0 ∨ t.acc1 ≠ s.acc1 ∨ t.writePos ≠ s.writePos → ingests ∨ prepares)
      ∧ (t.fftbuf0 ≠ s.fftbuf0 ∨ t.fftbuf1 ≠ s.fftbuf1 → ingests)
      ∧ (t.fr.w ≠ s.fr.w ∨ t.fr.slots ≠ s.fr.slots → ingests ∨ prepares)
      ∧ (t.fr.r ≠ s.fr.r → (s.active = .r ∧ ((∃ n, i = .pullFrame n) ∨ i = .pullFrame2)) ∨ prepares)
      ∧ (t.fr.bins ≠ s.fr.bins → prepares)
      ∧ (t.win ≠ s.win → prepares ∨ (s.active = .g ∧ ∃ type, i = .setWindow type))
      ∧ (t.cfg ≠ s.cfg →
          prepares ∨ (s.active = .g ∧ ((∃ type, i = .setWindow type) ∨ ∃ frac, i = .setOverlap frac))))

/-- R150, R20: no step changes the variant or LC_MAX or leaves Ready, and only PREPARE enters it. -/
def Obligations.OnlyPrepareEntersReady : Prop :=
  (∀ s t : State, step s = .next t →
      t.variant = s.variant ∧ t.lcMax = s.lcMax ∧ (s.cfg.state = .ready → t.cfg.state = .ready))
    ∧ ∀ (i : Instr) (s t : State), exec i s = .next t → t.cfg.state ≠ s.cfg.state →
      t.cfg.state = .ready ∧ ∃ order rate, i = .prepare order rate

/-- R77, R121, R151, R165, R273, R297, R298: a command that passes the tests R273 puts before it is the fault of the race
exactly where reconfiguration is not alone: a reconfiguration command while port P, D or R has a command in progress, a
command of port P, D or R while a reconfiguration command is in progress on port G. That every command of these ports
counts, and no accessor of port G, is log 13. -/
def Obligations.ReconfigurationRaceFaults : Prop :=
  ∀ (i : Instr) (s : State), reservedTest i s = none → operandTest i s = none → stateTest i s = none →
    (exec i s = .fault .reconfigRace ↔
      ((i.op = .srSetSize ∨ i.op = .prepare ∨ i.op = .setWindow ∨ i.op = .setOverlap) ∧ ¬ OthersIdle s)
        ∨ (s.active ≠ .g ∧ ¬ Settled s))

/-- R97: a command on a port that does not accept it, a command of the other variant, and a command on ring 1 of a Mono block
are refused, before any other test (R273). A word that matches a row, but none of its port, is taken alone (R95). That the port is tested before the variant and the variant before the ring is
the model's choice (log 17). -/
def Obligations.ReservedOnPortRefused : Prop :=
  ∀ (i : Instr) (s : State),
    (s.active ∉ i.op.row.ports → exec i s = .refused .wrongPort)
      ∧ (∀ v, s.active ∈ i.op.row.ports → i.op.row.variant = some v → v ≠ s.variant → exec i s = .refused .wrongVariant)
      ∧ (s.active ∈ i.op.row.ports → s.variant = .mono → i.ring? = some .ring1 → exec i s = .refused .noSuchRing)
      ∧ ∀ (q : Port) (w : Word) (op : Op) (rest : List Word), opOf w = some op → q ∉ op.row.ports →
        decode q (w :: rest) = .reserved (some op) rest
          ∧ ∀ turns, s.agenda = .run q :: turns → (s.port q).busy = none → (s.port q).input = w :: rest →
            step s = .refused .wrongPort

/-- R102 (d), R292: CONFIGURE with a legal order and a number as fraction reaches Ready with the order, the rate, the window and
the clamped fraction in their registers. -/
def Obligations.ConfigureReachesReady : Prop :=
  ∀ (s : State) (order : BitVec 8) (rate frac : F32) (type : WindowType),
    10 ≤ order.toNat → order.toNat ≤ 13 → isNaN frac = false → OthersIdle s →
    ∃ t, configure order rate type frac s = .next t
      ∧ t.cfg.state = .ready ∧ t.cfg.fftSize = 2 ^ order.toNat ∧ t.cfg.sampleRate = rate
      ∧ t.cfg.windowType = type ∧ t.cfg.overlap = clampOverlap frac ∧ t.writePos = 0
      ∧ t.fr.queue = [] ∧ SameRings s t ∧ SamePorts s t

/-- R102 (b): DRAIN2 takes `m = min(n, a, b)` samples from each ring, both pops returning exactly `m`, and pushes the `m` pairs. -/
def Obligations.DrainTwoTakesEqualCounts : Prop :=
  ∀ (s : State) (n : BitVec 23),
    s.variant = .stereo → s.cfg.state = .ready → Settled s →
    s.ring0.sized = true → s.ring1.sized = true → RingsInv s →
    1 ≤ s.cfg.hopSize → s.cfg.hopSize ≤ s.cfg.fftSize → s.writePos < s.cfg.fftSize →
    ∃ t, drain2 n s = .next t
      ∧ (let m := min n.toNat (min s.ring0.consumerReady s.ring1.consumerReady)
         t.ring0 = { s.ring0 with rp := (s.ring0.rp + m) % (2 * s.ring0.capacity) }
          ∧ t.ring1 = { s.ring1 with rp := (s.ring1.rp + m) % (2 * s.ring1.capacity) }
          ∧ t.writePos = finalOffset s.writePos m s.cfg.fftSize s.cfg.hopSize
          ∧ t.fr.w = s.fr.w + BitVec.ofNat 32 (framesProduced s.writePos m s.cfg.fftSize s.cfg.hopSize))

/-! ## The reference semantics -/

/-- R154, R155: the Hann formula is symmetric, zero at both ends and in [0, 1]; the Blackman-Harris formula is 0.00006 at both
ends. -/
def Obligations.ReferenceWindowShapes : Prop :=
  ∀ (size : ℕ), 2 ≤ size →
    (∀ i, i < size → Ref.hann size i = Ref.hann size (size - 1 - i) ∧ 0 ≤ Ref.hann size i ∧ Ref.hann size i ≤ 1)
      ∧ Ref.hann size 0 = 0 ∧ Ref.hann size (size - 1) = 0
      ∧ Ref.blackmanHarris size 0 = 0.00006 ∧ Ref.blackmanHarris size (size - 1) = 0.00006

/-- R187, R188: for real input the two sums are the parts of the complex transform, bin `N − k` is the conjugate of bin `k`, and
the imaginary parts of bins 0 and `N/2` are zero. -/
def Obligations.RealTransformIsHermitian : Prop :=
  ∀ (size : ℕ) (y : ℕ → ℝ), 0 < size →
    (∀ k, Ref.dft size (fun j => (y j : ℂ)) k = (Ref.re size y k : ℂ) + (Ref.im size y k : ℂ) * Complex.I)
      ∧ (∀ k, k ≤ size → Ref.re size y (size - k) = Ref.re size y k ∧ Ref.im size y (size - k) = -Ref.im size y k)
      ∧ Ref.im size y 0 = 0 ∧ (size % 2 = 0 → Ref.im size y (size / 2) = 0)

/-- R190: the radix-2 decimation-in-time butterflies on the bit-reversed load compute the transform of R187. -/
def Obligations.ButterfliesComputeTransform : Prop :=
  ∀ (order : ℕ) (y : ℕ → ℂ) (k : ℕ), k < 2 ^ order →
    Ref.butterflyFft order y k = Ref.dft (2 ^ order) y k

/-- R194: over the reals `20·log10(sqrt(msq)/N) = 10·log10(msq) − 20·log10(N)` with `20·log10(N) = 20·fftOrder·log10(2)`, and the floor
test on the magnitude is `msq ≤ 10^−10·N²`. -/
def Obligations.MagnitudeSquaredForm : Prop :=
  ∀ (order : ℕ) (re im : ℝ), 0 < re ^ 2 + im ^ 2 →
    20 * Real.logb 10 (Ref.mag re im (2 ^ order)) =
        10 * Real.logb 10 (re ^ 2 + im ^ 2) - 20 * Real.logb 10 ((2 : ℝ) ^ order)
      ∧ 20 * Real.logb 10 ((2 : ℝ) ^ order) = 20 * order * Real.logb 10 2
      ∧ (Ref.db (Ref.mag re im (2 ^ order)) = -100 ↔ re ^ 2 + im ^ 2 ≤ 1e-10 * ((2 : ℝ) ^ order) ^ 2)
end

