-- ==== Sys2Proof/Laws/Decode.lean ====
section
/-!
SUPPORT. The opcode byte decides the row: a word selects at most one row of R94, and a row that accepts a word is the one
the decoder finds.
-/

namespace Sys2Proof

open Sys2Proof

/-- The opcode byte `[31:24]` of a row. -/
def Op.opc (op : Op) : BitVec 8 := op.row.pattern.extractLsb' 24 8

/-- Every row's mask covers the whole opcode byte: a word a row accepts has the row's opcode. -/
theorem Op.opc_of_accepts {op : Op} {w : Word} (h : op.accepts w = true) : w.extractLsb' 24 8 = op.opc := by
  have e : (w &&& op.row.mask).extractLsb' 24 8 = op.opc := by
    rw [Op.accepts, beq_iff_eq] at h
    rw [h]; rfl
  rw [BitVec.extractLsb'_and] at e
  have m : op.row.mask.extractLsb' 24 8 = BitVec.allOnes 8 := by cases op <;> decide
  rwa [m, BitVec.and_allOnes] at e

theorem Op.opc_injective {a b : Op} (h : a.opc = b.opc) : a = b := by
  revert h; cases a <;> cases b <;> decide

/-- No two rows of R94 accept one word. -/
theorem Op.accepts_unique {a b : Op} {w : Word} (ha : a.accepts w = true) (hb : b.accepts w = true) : a = b :=
  Op.opc_injective ((Op.opc_of_accepts ha).symm.trans (Op.opc_of_accepts hb))

theorem mem_allOps (op : Op) : op ∈ allOps := by cases op <;> decide

/-- The decoder's row is the one that accepts the word. -/
theorem opOf_eq_some_iff (w : Word) (op : Op) : opOf w = some op ↔ op.accepts w = true := by
  constructor
  · intro h; exact List.find?_some (p := fun op : Op => op.accepts w) h
  · intro h
    cases hf : opOf w with
    | none =>
      have := List.find?_eq_none.mp hf op (mem_allOps op)
      exact absurd h this
    | some b => rw [Op.accepts_unique (List.find?_some (p := fun op : Op => op.accepts w) hf) h]

/-- A word without a row is accepted by none (R97). -/
theorem opOf_eq_none_iff (w : Word) : opOf w = none ↔ ∀ op : Op, op.accepts w = false := by
  unfold opOf
  rw [List.find?_eq_none]
  exact ⟨fun h op => by simpa using h op (mem_allOps op), fun h op _ => by simp [h op]⟩

/-- The command assembled from a row is a command of that row. -/
@[simp] theorem op_assemble (op : Op) (w : Word) (payload : List Word) : (assemble op w payload).op = op := by
  cases op <;> rfl

/-! ## Fields of a laid-out word -/

theorem and_append (t m : BitVec 8) (x n : BitVec 24) :
    (t ++ x : BitVec 32) &&& (m ++ n : BitVec 32) = ((t &&& m) ++ (x &&& n) : BitVec 32) := by
  ext i hi; simp only [BitVec.getElem_and, BitVec.getElem_append]; split <;> simp

end Sys2Proof
end

