-- ==== Sys2Proof/Laws/State.lean ====
section
/-!
SUPPORT. The small lemmas of the state's named updates: what each update of a ring, a port, an accumulator or a work
buffer leaves of every field, what it puts where, and that a response touches the active port's output alone.
-/

namespace Sys2Proof.Machine

open Sys2Proof

/-! ## setRing -/

@[simp] theorem State.setRing_variant (s : State) (q : RingId) (x : SampleRing) :
    (s.setRing q x).variant = s.variant := by cases q <;> rfl

@[simp] theorem State.setRing_lcMax (s : State) (q : RingId) (x : SampleRing) :
    (s.setRing q x).lcMax = s.lcMax := by cases q <;> rfl

@[simp] theorem State.setRing_cfg (s : State) (q : RingId) (x : SampleRing) :
    (s.setRing q x).cfg = s.cfg := by cases q <;> rfl

@[simp] theorem State.setRing_win (s : State) (q : RingId) (x : SampleRing) :
    (s.setRing q x).win = s.win := by cases q <;> rfl

@[simp] theorem State.setRing_acc0 (s : State) (q : RingId) (x : SampleRing) :
    (s.setRing q x).acc0 = s.acc0 := by cases q <;> rfl

@[simp] theorem State.setRing_acc1 (s : State) (q : RingId) (x : SampleRing) :
    (s.setRing q x).acc1 = s.acc1 := by cases q <;> rfl

@[simp] theorem State.setRing_writePos (s : State) (q : RingId) (x : SampleRing) :
    (s.setRing q x).writePos = s.writePos := by cases q <;> rfl

@[simp] theorem State.setRing_fftbuf0 (s : State) (q : RingId) (x : SampleRing) :
    (s.setRing q x).fftbuf0 = s.fftbuf0 := by cases q <;> rfl

@[simp] theorem State.setRing_fftbuf1 (s : State) (q : RingId) (x : SampleRing) :
    (s.setRing q x).fftbuf1 = s.fftbuf1 := by cases q <;> rfl

@[simp] theorem State.setRing_fr (s : State) (q : RingId) (x : SampleRing) :
    (s.setRing q x).fr = s.fr := by cases q <;> rfl

@[simp] theorem State.setRing_portP (s : State) (q : RingId) (x : SampleRing) :
    (s.setRing q x).portP = s.portP := by cases q <;> rfl

@[simp] theorem State.setRing_portD (s : State) (q : RingId) (x : SampleRing) :
    (s.setRing q x).portD = s.portD := by cases q <;> rfl

@[simp] theorem State.setRing_portR (s : State) (q : RingId) (x : SampleRing) :
    (s.setRing q x).portR = s.portR := by cases q <;> rfl

@[simp] theorem State.setRing_portG (s : State) (q : RingId) (x : SampleRing) :
    (s.setRing q x).portG = s.portG := by cases q <;> rfl

@[simp] theorem State.setRing_active (s : State) (q : RingId) (x : SampleRing) :
    (s.setRing q x).active = s.active := by cases q <;> rfl

@[simp] theorem State.setRing_agenda (s : State) (q : RingId) (x : SampleRing) :
    (s.setRing q x).agenda = s.agenda := by cases q <;> rfl

@[simp] theorem State.setRing_draws (s : State) (q : RingId) (x : SampleRing) :
    (s.setRing q x).draws = s.draws := by cases q <;> rfl

/-! ## setPort -/

@[simp] theorem State.setPort_variant (s : State) (q : Port) (x : PortState) :
    (s.setPort q x).variant = s.variant := by cases q <;> rfl

@[simp] theorem State.setPort_lcMax (s : State) (q : Port) (x : PortState) :
    (s.setPort q x).lcMax = s.lcMax := by cases q <;> rfl

@[simp] theorem State.setPort_ring0 (s : State) (q : Port) (x : PortState) :
    (s.setPort q x).ring0 = s.ring0 := by cases q <;> rfl

@[simp] theorem State.setPort_ring1 (s : State) (q : Port) (x : PortState) :
    (s.setPort q x).ring1 = s.ring1 := by cases q <;> rfl

@[simp] theorem State.setPort_cfg (s : State) (q : Port) (x : PortState) :
    (s.setPort q x).cfg = s.cfg := by cases q <;> rfl

@[simp] theorem State.setPort_win (s : State) (q : Port) (x : PortState) :
    (s.setPort q x).win = s.win := by cases q <;> rfl

@[simp] theorem State.setPort_acc0 (s : State) (q : Port) (x : PortState) :
    (s.setPort q x).acc0 = s.acc0 := by cases q <;> rfl

@[simp] theorem State.setPort_acc1 (s : State) (q : Port) (x : PortState) :
    (s.setPort q x).acc1 = s.acc1 := by cases q <;> rfl

@[simp] theorem State.setPort_writePos (s : State) (q : Port) (x : PortState) :
    (s.setPort q x).writePos = s.writePos := by cases q <;> rfl

@[simp] theorem State.setPort_fftbuf0 (s : State) (q : Port) (x : PortState) :
    (s.setPort q x).fftbuf0 = s.fftbuf0 := by cases q <;> rfl

@[simp] theorem State.setPort_fftbuf1 (s : State) (q : Port) (x : PortState) :
    (s.setPort q x).fftbuf1 = s.fftbuf1 := by cases q <;> rfl

@[simp] theorem State.setPort_fr (s : State) (q : Port) (x : PortState) :
    (s.setPort q x).fr = s.fr := by cases q <;> rfl

@[simp] theorem State.setPort_active (s : State) (q : Port) (x : PortState) :
    (s.setPort q x).active = s.active := by cases q <;> rfl

@[simp] theorem State.setPort_agenda (s : State) (q : Port) (x : PortState) :
    (s.setPort q x).agenda = s.agenda := by cases q <;> rfl

@[simp] theorem State.setPort_draws (s : State) (q : Port) (x : PortState) :
    (s.setPort q x).draws = s.draws := by cases q <;> rfl

/-! ## setAcc -/

@[simp] theorem State.setAcc_variant (s : State) (q : Channel) (x : Memory F32) :
    (s.setAcc q x).variant = s.variant := by cases q <;> rfl

@[simp] theorem State.setAcc_lcMax (s : State) (q : Channel) (x : Memory F32) :
    (s.setAcc q x).lcMax = s.lcMax := by cases q <;> rfl

@[simp] theorem State.setAcc_ring0 (s : State) (q : Channel) (x : Memory F32) :
    (s.setAcc q x).ring0 = s.ring0 := by cases q <;> rfl

@[simp] theorem State.setAcc_ring1 (s : State) (q : Channel) (x : Memory F32) :
    (s.setAcc q x).ring1 = s.ring1 := by cases q <;> rfl

@[simp] theorem State.setAcc_cfg (s : State) (q : Channel) (x : Memory F32) :
    (s.setAcc q x).cfg = s.cfg := by cases q <;> rfl

@[simp] theorem State.setAcc_win (s : State) (q : Channel) (x : Memory F32) :
    (s.setAcc q x).win = s.win := by cases q <;> rfl

@[simp] theorem State.setAcc_writePos (s : State) (q : Channel) (x : Memory F32) :
    (s.setAcc q x).writePos = s.writePos := by cases q <;> rfl

@[simp] theorem State.setAcc_fftbuf0 (s : State) (q : Channel) (x : Memory F32) :
    (s.setAcc q x).fftbuf0 = s.fftbuf0 := by cases q <;> rfl

@[simp] theorem State.setAcc_fftbuf1 (s : State) (q : Channel) (x : Memory F32) :
    (s.setAcc q x).fftbuf1 = s.fftbuf1 := by cases q <;> rfl

@[simp] theorem State.setAcc_fr (s : State) (q : Channel) (x : Memory F32) :
    (s.setAcc q x).fr = s.fr := by cases q <;> rfl

@[simp] theorem State.setAcc_portP (s : State) (q : Channel) (x : Memory F32) :
    (s.setAcc q x).portP = s.portP := by cases q <;> rfl

@[simp] theorem State.setAcc_portD (s : State) (q : Channel) (x : Memory F32) :
    (s.setAcc q x).portD = s.portD := by cases q <;> rfl

@[simp] theorem State.setAcc_portR (s : State) (q : Channel) (x : Memory F32) :
    (s.setAcc q x).portR = s.portR := by cases q <;> rfl

@[simp] theorem State.setAcc_portG (s : State) (q : Channel) (x : Memory F32) :
    (s.setAcc q x).portG = s.portG := by cases q <;> rfl

@[simp] theorem State.setAcc_active (s : State) (q : Channel) (x : Memory F32) :
    (s.setAcc q x).active = s.active := by cases q <;> rfl

@[simp] theorem State.setAcc_agenda (s : State) (q : Channel) (x : Memory F32) :
    (s.setAcc q x).agenda = s.agenda := by cases q <;> rfl

@[simp] theorem State.setAcc_draws (s : State) (q : Channel) (x : Memory F32) :
    (s.setAcc q x).draws = s.draws := by cases q <;> rfl

/-! ## setFftbuf -/

@[simp] theorem State.setFftbuf_variant (s : State) (q : Channel) (x : Memory F32) :
    (s.setFftbuf q x).variant = s.variant := by cases q <;> rfl

@[simp] theorem State.setFftbuf_lcMax (s : State) (q : Channel) (x : Memory F32) :
    (s.setFftbuf q x).lcMax = s.lcMax := by cases q <;> rfl

@[simp] theorem State.setFftbuf_ring0 (s : State) (q : Channel) (x : Memory F32) :
    (s.setFftbuf q x).ring0 = s.ring0 := by cases q <;> rfl

@[simp] theorem State.setFftbuf_ring1 (s : State) (q : Channel) (x : Memory F32) :
    (s.setFftbuf q x).ring1 = s.ring1 := by cases q <;> rfl

@[simp] theorem State.setFftbuf_cfg (s : State) (q : Channel) (x : Memory F32) :
    (s.setFftbuf q x).cfg = s.cfg := by cases q <;> rfl

@[simp] theorem State.setFftbuf_win (s : State) (q : Channel) (x : Memory F32) :
    (s.setFftbuf q x).win = s.win := by cases q <;> rfl

@[simp] theorem State.setFftbuf_acc0 (s : State) (q : Channel) (x : Memory F32) :
    (s.setFftbuf q x).acc0 = s.acc0 := by cases q <;> rfl

@[simp] theorem State.setFftbuf_acc1 (s : State) (q : Channel) (x : Memory F32) :
    (s.setFftbuf q x).acc1 = s.acc1 := by cases q <;> rfl

@[simp] theorem State.setFftbuf_writePos (s : State) (q : Channel) (x : Memory F32) :
    (s.setFftbuf q x).writePos = s.writePos := by cases q <;> rfl

@[simp] theorem State.setFftbuf_fr (s : State) (q : Channel) (x : Memory F32) :
    (s.setFftbuf q x).fr = s.fr := by cases q <;> rfl

@[simp] theorem State.setFftbuf_portP (s : State) (q : Channel) (x : Memory F32) :
    (s.setFftbuf q x).portP = s.portP := by cases q <;> rfl

@[simp] theorem State.setFftbuf_portD (s : State) (q : Channel) (x : Memory F32) :
    (s.setFftbuf q x).portD = s.portD := by cases q <;> rfl

@[simp] theorem State.setFftbuf_portR (s : State) (q : Channel) (x : Memory F32) :
    (s.setFftbuf q x).portR = s.portR := by cases q <;> rfl

@[simp] theorem State.setFftbuf_portG (s : State) (q : Channel) (x : Memory F32) :
    (s.setFftbuf q x).portG = s.portG := by cases q <;> rfl

@[simp] theorem State.setFftbuf_active (s : State) (q : Channel) (x : Memory F32) :
    (s.setFftbuf q x).active = s.active := by cases q <;> rfl

@[simp] theorem State.setFftbuf_agenda (s : State) (q : Channel) (x : Memory F32) :
    (s.setFftbuf q x).agenda = s.agenda := by cases q <;> rfl

@[simp] theorem State.setFftbuf_draws (s : State) (q : Channel) (x : Memory F32) :
    (s.setFftbuf q x).draws = s.draws := by cases q <;> rfl

/-! ## What an update puts, and where -/

@[simp] theorem State.ring_setRing_same (s : State) (q : RingId) (x : SampleRing) : (s.setRing q x).ring q = x := by
  cases q <;> rfl

theorem State.ring_setRing_other (s : State) {q o : RingId} (x : SampleRing) (h : o ≠ q) :
    (s.setRing q x).ring o = s.ring o := by
  cases q <;> cases o <;> first | rfl | exact absurd rfl h

@[simp] theorem State.setRing_ring (s : State) (q : RingId) : s.setRing q (s.ring q) = s := by cases q <;> rfl

@[simp] theorem State.port_setPort_same (s : State) (q : Port) (x : PortState) : (s.setPort q x).port q = x := by
  cases q <;> rfl

theorem State.port_setPort_other (s : State) {q o : Port} (x : PortState) (h : o ≠ q) :
    (s.setPort q x).port o = s.port o := by
  cases q <;> cases o <;> first | rfl | exact absurd rfl h

@[simp] theorem State.port_setRing (s : State) (q : RingId) (x : SampleRing) (o : Port) :
    (s.setRing q x).port o = s.port o := by cases o <;> simp [State.port]

@[simp] theorem State.ring_setPort (s : State) (q : Port) (x : PortState) (o : RingId) :
    (s.setPort q x).ring o = s.ring o := by cases o <;> simp [State.ring]

@[simp] theorem State.acc_setAcc_same (s : State) (c : Channel) (m : Memory F32) : (s.setAcc c m).acc c = m := by
  cases c <;> rfl

theorem State.acc_setAcc_other (s : State) {c o : Channel} (m : Memory F32) (h : o ≠ c) :
    (s.setAcc c m).acc o = s.acc o := by
  cases c <;> cases o <;> first | rfl | exact absurd rfl h

@[simp] theorem State.acc_setFftbuf (s : State) (c o : Channel) (m : Memory F32) :
    (s.setFftbuf c m).acc o = s.acc o := by cases o <;> simp [State.acc]

@[simp] theorem State.fftbuf_setFftbuf_same (s : State) (c : Channel) (m : Memory F32) :
    (s.setFftbuf c m).fftbuf c = m := by cases c <;> rfl

theorem State.fftbuf_setFftbuf_other (s : State) {c o : Channel} (m : Memory F32) (h : o ≠ c) :
    (s.setFftbuf c m).fftbuf o = s.fftbuf o := by
  cases c <;> cases o <;> first | rfl | exact absurd rfl h

/-! ## Responses -/

@[simp] theorem State.respond_variant (s : State) (ws : List Word) : (s.respond ws).variant = s.variant := by
  simp [State.respond]

@[simp] theorem State.respond_lcMax (s : State) (ws : List Word) : (s.respond ws).lcMax = s.lcMax := by
  simp [State.respond]

@[simp] theorem State.respond_ring0 (s : State) (ws : List Word) : (s.respond ws).ring0 = s.ring0 := by
  simp [State.respond]

@[simp] theorem State.respond_ring1 (s : State) (ws : List Word) : (s.respond ws).ring1 = s.ring1 := by
  simp [State.respond]

@[simp] theorem State.respond_cfg (s : State) (ws : List Word) : (s.respond ws).cfg = s.cfg := by
  simp [State.respond]

@[simp] theorem State.respond_win (s : State) (ws : List Word) : (s.respond ws).win = s.win := by
  simp [State.respond]

@[simp] theorem State.respond_acc0 (s : State) (ws : List Word) : (s.respond ws).acc0 = s.acc0 := by
  simp [State.respond]

@[simp] theorem State.respond_acc1 (s : State) (ws : List Word) : (s.respond ws).acc1 = s.acc1 := by
  simp [State.respond]

@[simp] theorem State.respond_writePos (s : State) (ws : List Word) : (s.respond ws).writePos = s.writePos := by
  simp [State.respond]

@[simp] theorem State.respond_fftbuf0 (s : State) (ws : List Word) : (s.respond ws).fftbuf0 = s.fftbuf0 := by
  simp [State.respond]

@[simp] theorem State.respond_fftbuf1 (s : State) (ws : List Word) : (s.respond ws).fftbuf1 = s.fftbuf1 := by
  simp [State.respond]

@[simp] theorem State.respond_fr (s : State) (ws : List Word) : (s.respond ws).fr = s.fr := by
  simp [State.respond]

@[simp] theorem State.respond_active (s : State) (ws : List Word) : (s.respond ws).active = s.active := by
  simp [State.respond]

@[simp] theorem State.respond_agenda (s : State) (ws : List Word) : (s.respond ws).agenda = s.agenda := by
  simp [State.respond]

@[simp] theorem State.respond_draws (s : State) (ws : List Word) : (s.respond ws).draws = s.draws := by
  simp [State.respond]

@[simp] theorem State.respond_ring (s : State) (ws : List Word) (q : RingId) : (s.respond ws).ring q = s.ring q := by
  simp [State.respond]

/-- A response goes to the active port's output and changes nothing else of that port. -/
theorem State.respond_port_active (s : State) (ws : List Word) :
    (s.respond ws).port s.active = { s.port s.active with output := (s.port s.active).output ++ ws } := by
  simp [State.respond]

/-- A response leaves every other port as it was. -/
theorem State.respond_port_other (s : State) (ws : List Word) {o : Port} (h : o ≠ s.active) :
    (s.respond ws).port o = s.port o := by
  simp [State.respond, State.port_setPort_other _ _ h]

/-- A response leaves every port's command in progress. -/
@[simp] theorem State.respond_busy (s : State) (ws : List Word) (o : Port) :
    ((s.respond ws).port o).busy = (s.port o).busy := by
  by_cases h : o = s.active
  · subst h; simp [State.respond]
  · rw [State.respond_port_other s ws h]

/-- A response leaves every port's measured count. -/
@[simp] theorem State.respond_measured (s : State) (ws : List Word) (o : Port) :
    ((s.respond ws).port o).measured = (s.port o).measured := by
  by_cases h : o = s.active
  · subst h; simp [State.respond]
  · rw [State.respond_port_other s ws h]

/-- A response leaves every port's offered words. -/
@[simp] theorem State.respond_input (s : State) (ws : List Word) (o : Port) :
    ((s.respond ws).port o).input = (s.port o).input := by
  by_cases h : o = s.active
  · subst h; simp [State.respond]
  · rw [State.respond_port_other s ws h]

/-! ## Reads of other fields -/

@[simp] theorem State.ring_withActive (s : State) (q : Port) (o : RingId) : ({ s with active := q } : State).ring o = s.ring o := by
  cases o <;> rfl

@[simp] theorem State.port_withActive (s : State) (q o : Port) : ({ s with active := q } : State).port o = s.port o := by
  cases o <;> rfl

@[simp] theorem State.port_withAgenda (s : State) (a : List Turn) (o : Port) :
    ({ s with agenda := a } : State).port o = s.port o := by
  cases o <;> rfl

@[simp] theorem State.ring_withAgenda (s : State) (a : List Turn) (o : RingId) :
    ({ s with agenda := a } : State).ring o = s.ring o := by
  cases o <;> rfl

end Sys2Proof.Machine
end

