-- ==== Sys2Proof/Laws/Exec.lean ====
section
/-!
SUPPORT. Every command is its admission test and then its effect: `exec_next_iff` says once when a command answers a next
state and which, and the `stopOf_…` lemmas say for each command exactly when it is admitted.
-/

namespace Sys2Proof.Machine

open Sys2Proof

/-- The state a command leaves where it has a meaning. -/
def effect (i : Instr) (s : State) : State :=
  match i with
  | .srSetSize ch lc => afterSrSetSize ch lc s
  | .srPush ch data => afterSrPush ch data s
  | .srPop ch n => afterSrPop ch n s
  | .srGetFree ch => afterSrGetFree ch s
  | .srGetReady ch => afterSrGetReady ch s
  | .prepare order rate => afterPrepare order rate s
  | .setWindow type => afterSetWindow type s
  | .setOverlap frac => afterSetOverlap frac s
  | .getFftSize => afterGetFftSize s
  | .getNumBins => afterGetNumBins s
  | .getSampleRate => afterGetSampleRate s
  | .pushSamples data => afterPushSamples data s
  | .pushSamples2 left right => afterPushSamples2 left right s
  | .pullFrame n => afterPullFrame n s
  | .pullFrame2 => afterPullFrame2 s

theorem exec_eq_guarded (i : Instr) (s : State) : exec i s = guarded i s (effect i s) := by cases i <;> rfl

theorem guarded_next_iff (i : Instr) (s u t : State) : guarded i s u = .next t ↔ stopOf i s = none ∧ u = t := by
  unfold guarded
  cases h : stopOf i s with
  | none => simp
  | some stop => cases stop <;> simp [Stop.outcome]

/-- A command answers a next state exactly when it is admitted, and then the one its effect gives. -/
theorem exec_next_iff (i : Instr) (s t : State) : exec i s = .next t ↔ stopOf i s = none ∧ effect i s = t := by
  rw [exec_eq_guarded, guarded_next_iff]

/-- A command that is not admitted answers its stop. -/
theorem exec_stop {i : Instr} {s : State} {stop : Stop} (h : stopOf i s = some stop) : exec i s = stop.outcome := by
  rw [exec_eq_guarded]; simp [guarded, h]

theorem stopOf_none_iff (i : Instr) (s : State) :
    stopOf i s = none ↔
      reservedTest i s = none ∧ operandTest i s = none ∧ stateTest i s = none ∧ hazardTest i s = none := by
  unfold stopOf
  cases reservedTest i s <;> cases operandTest i s <;> cases stateTest i s <;> simp [Option.orElse]

/-! ## The two tests of the race, in the words of Safety (R77, R297, R298) -/

theorem othersBusy_iff (s : State) : s.othersBusy = true ↔ ¬ OthersIdle s := by
  unfold State.othersBusy OthersIdle
  cases s.portP.busy <;> cases s.portD.busy <;> cases s.portR.busy <;> simp

theorem reconfigInProgress_iff (s : State) : s.reconfigInProgress = true ↔ ¬ Settled s := by
  unfold State.reconfigInProgress Settled
  cases s.busyOp .g <;> simp

/-! ## When each command is admitted (R97, R98, R120, R165, R297, R301) -/

theorem stopOf_srSetSize (ch : RingId) (lc : BitVec 5) (s : State) :
    stopOf (.srSetSize ch lc) s = none ↔ s.active = .g ∧ s.hasRing ch = true ∧ 1 ≤ lc.toNat ∧ lc.toNat ≤ s.lcMax
      ∧ s.races .srSetSize = false := by
  rw [stopOf_none_iff]
  simp only [reservedTest, operandTest, stateTest, hazardTest, Instr.op, Op.row, Instr.ring?, needsReady,
    needsSized, isPull]
  cases hs : s.active <;> cases hr : s.hasRing ch <;> simp [and_assoc]

theorem stopOf_srPush (ch : RingId) (data : List F32) (s : State) :
    stopOf (.srPush ch data) s = none ↔ s.active = .p ∧ s.hasRing ch = true ∧ (s.ring ch).sized = true
      ∧ s.races .srPush = false := by
  rw [stopOf_none_iff]
  simp only [reservedTest, operandTest, stateTest, hazardTest, Instr.op, Op.row, Instr.ring?, needsReady,
    needsSized, isPull]
  cases hs : s.active <;> cases hr : s.hasRing ch <;> simp

theorem stopOf_srPop (ch : RingId) (n : BitVec 23) (s : State) :
    stopOf (.srPop ch n) s = none ↔ s.active = .d ∧ s.hasRing ch = true ∧ (s.ring ch).sized = true
      ∧ s.races .srPop = false := by
  rw [stopOf_none_iff]
  simp only [reservedTest, operandTest, stateTest, hazardTest, Instr.op, Op.row, Instr.ring?, needsReady,
    needsSized, isPull]
  cases hs : s.active <;> cases hr : s.hasRing ch <;> simp

theorem stopOf_srGetFree (ch : RingId) (s : State) :
    stopOf (.srGetFree ch) s = none ↔ (s.active = .p ∨ s.active = .d) ∧ s.hasRing ch = true ∧ (s.ring ch).sized = true
      ∧ s.races .srGetFree = false := by
  rw [stopOf_none_iff]
  simp only [reservedTest, operandTest, stateTest, hazardTest, Instr.op, Op.row, Instr.ring?, needsReady,
    needsSized, isPull]
  cases hs : s.active <;> cases hr : s.hasRing ch <;> simp

theorem stopOf_srGetReady (ch : RingId) (s : State) :
    stopOf (.srGetReady ch) s = none ↔ (s.active = .p ∨ s.active = .d) ∧ s.hasRing ch = true ∧ (s.ring ch).sized = true
      ∧ s.races .srGetReady = false := by
  rw [stopOf_none_iff]
  simp only [reservedTest, operandTest, stateTest, hazardTest, Instr.op, Op.row, Instr.ring?, needsReady,
    needsSized, isPull]
  cases hs : s.active <;> cases hr : s.hasRing ch <;> simp

theorem stopOf_prepare (order : BitVec 8) (rate : F32) (s : State) :
    stopOf (.prepare order rate) s = none ↔ s.active = .g ∧ 10 ≤ order.toNat ∧ order.toNat ≤ 13 ∧ s.races .prepare = false := by
  rw [stopOf_none_iff]
  simp only [reservedTest, operandTest, stateTest, hazardTest, Instr.op, Op.row, Instr.ring?, needsReady,
    needsSized, isPull]
  cases hs : s.active <;> simp [and_assoc]

theorem stopOf_setWindow (type : WindowType) (s : State) :
    stopOf (.setWindow type) s = none ↔ s.active = .g ∧ s.races .setWindow = false := by
  rw [stopOf_none_iff]
  simp only [reservedTest, operandTest, stateTest, hazardTest, Instr.op, Op.row, Instr.ring?, needsReady,
    needsSized, isPull]
  cases hs : s.active <;> simp

theorem stopOf_setOverlap (frac : F32) (s : State) :
    stopOf (.setOverlap frac) s = none ↔ s.active = .g ∧ isNaN frac = false ∧ s.races .setOverlap = false := by
  rw [stopOf_none_iff]
  simp only [reservedTest, operandTest, stateTest, hazardTest, Instr.op, Op.row, Instr.ring?, needsReady,
    needsSized, isPull]
  cases hs : s.active <;> simp

theorem stopOf_getFftSize (s : State) :
    stopOf (.getFftSize) s = none ↔ s.cfg.state = .ready ∧ s.races .getFftSize = false := by
  rw [stopOf_none_iff]
  simp only [reservedTest, operandTest, stateTest, hazardTest, Instr.op, Op.row, Instr.ring?, needsReady,
    needsSized, isPull]
  cases hs : s.active <;> cases hc : s.cfg.state <;> simp

theorem stopOf_getNumBins (s : State) :
    stopOf (.getNumBins) s = none ↔ s.cfg.state = .ready ∧ s.races .getNumBins = false := by
  rw [stopOf_none_iff]
  simp only [reservedTest, operandTest, stateTest, hazardTest, Instr.op, Op.row, Instr.ring?, needsReady,
    needsSized, isPull]
  cases hs : s.active <;> cases hc : s.cfg.state <;> simp

theorem stopOf_getSampleRate (s : State) :
    stopOf (.getSampleRate) s = none ↔ s.cfg.state = .ready ∧ s.races .getSampleRate = false := by
  rw [stopOf_none_iff]
  simp only [reservedTest, operandTest, stateTest, hazardTest, Instr.op, Op.row, Instr.ring?, needsReady,
    needsSized, isPull]
  cases hs : s.active <;> cases hc : s.cfg.state <;> simp

theorem stopOf_pushSamples (data : List F32) (s : State) :
    stopOf (.pushSamples data) s = none ↔ s.active = .d ∧ s.variant = .mono ∧ s.cfg.state = .ready ∧ s.races .pushSamples = false := by
  rw [stopOf_none_iff]
  simp only [reservedTest, operandTest, stateTest, hazardTest, Instr.op, Op.row, Instr.ring?, needsReady,
    needsSized, isPull]
  cases hs : s.active <;> cases hc : s.cfg.state <;> cases hv : s.variant <;> simp

theorem stopOf_pushSamples2 (left right : List F32) (s : State) :
    stopOf (.pushSamples2 left right) s = none ↔ s.active = .d ∧ s.variant = .stereo ∧ s.cfg.state = .ready ∧ s.races .pushSamples2 = false := by
  rw [stopOf_none_iff]
  simp only [reservedTest, operandTest, stateTest, hazardTest, Instr.op, Op.row, Instr.ring?, needsReady,
    needsSized, isPull]
  cases hs : s.active <;> cases hc : s.cfg.state <;> cases hv : s.variant <;> simp

theorem stopOf_pullFrame (n : BitVec 24) (s : State) :
    stopOf (.pullFrame n) s = none ↔ s.active = .r ∧ s.variant = .mono ∧ s.cfg.state = .ready
      ∧ s.races .pullFrame = false ∧ s.fr.trueLead < 2 ^ 32 := by
  rw [stopOf_none_iff]
  simp only [reservedTest, operandTest, stateTest, hazardTest, Instr.op, Op.row, Instr.ring?, needsReady,
    needsSized, isPull]
  cases hs : s.active <;> cases hc : s.cfg.state <;> cases hv : s.variant <;> simp
  all_goals cases s.races .pullFrame <;> simp

theorem stopOf_pullFrame2 (s : State) :
    stopOf (.pullFrame2) s = none ↔ s.active = .r ∧ s.variant = .stereo ∧ s.cfg.state = .ready
      ∧ s.races .pullFrame2 = false ∧ s.fr.trueLead < 2 ^ 32 := by
  rw [stopOf_none_iff]
  simp only [reservedTest, operandTest, stateTest, hazardTest, Instr.op, Op.row, Instr.ring?, needsReady,
    needsSized, isPull]
  cases hs : s.active <;> cases hc : s.cfg.state <;> cases hv : s.variant <;> simp
  all_goals cases s.races .pullFrame2 <;> simp

end Sys2Proof.Machine
end

