-- ==== Sys2Proof/Laws/Framing.lean ====
section
/-!
SUPPORT. The frames of sample ingest: what the FFT step, the frame push, the shift and a whole PUSHSAMPLES leave of every
field outside the accumulators, the work buffers, the FrameRing and the draw counter.
-/

namespace Sys2Proof.Machine

open Sys2Proof

/-- What every single ingest keeps, a whole run of them keeps. -/
theorem foldl_keeps {α β : Type} (f : State → β) (g : State → α → State) (h : ∀ s x, f (g s x) = f s) (l : List α)
    (s : State) : f (l.foldl g s) = f s := by
  induction l generalizing s with
  | nil => rfl
  | cons x l ih => rw [List.foldl_cons, ih, h]

/-- A property every single ingest keeps, a whole run of them keeps. -/
theorem foldl_invariant {α : Type} (P : State → Prop) (g : State → α → State) (h : ∀ s x, P s → P (g s x)) (l : List α)
    (s : State) (hs : P s) : P (l.foldl g s) := by
  induction l generalizing s with
  | nil => exact hs
  | cons x l ih => exact ih _ (h s x hs)

@[simp] theorem frPush_variant (x : Slot) (s : State) : (frPush x s).variant = s.variant := rfl

@[simp] theorem ingest_variant (s : State) (x : F32) : (ingest s x).variant = s.variant := by
  simp only [ingest]; split <;> rfl

@[simp] theorem ingest2_variant (s : State) (x : F32 × F32) : (ingest2 s x).variant = s.variant := by
  simp only [ingest2]; split <;> rfl

@[simp] theorem afterPushSamples_variant (data : List F32) (s : State) : (afterPushSamples data s).variant = s.variant :=
  foldl_keeps (fun s => s.variant) ingest ingest_variant data s

@[simp] theorem afterPushSamples2_variant (left right : List F32) (s : State) :
    (afterPushSamples2 left right s).variant = s.variant :=
  foldl_keeps (fun s => s.variant) ingest2 ingest2_variant _ s

@[simp] theorem frPush_lcMax (x : Slot) (s : State) : (frPush x s).lcMax = s.lcMax := rfl

@[simp] theorem ingest_lcMax (s : State) (x : F32) : (ingest s x).lcMax = s.lcMax := by
  simp only [ingest]; split <;> rfl

@[simp] theorem ingest2_lcMax (s : State) (x : F32 × F32) : (ingest2 s x).lcMax = s.lcMax := by
  simp only [ingest2]; split <;> rfl

@[simp] theorem afterPushSamples_lcMax (data : List F32) (s : State) : (afterPushSamples data s).lcMax = s.lcMax :=
  foldl_keeps (fun s => s.lcMax) ingest ingest_lcMax data s

@[simp] theorem afterPushSamples2_lcMax (left right : List F32) (s : State) :
    (afterPushSamples2 left right s).lcMax = s.lcMax :=
  foldl_keeps (fun s => s.lcMax) ingest2 ingest2_lcMax _ s

@[simp] theorem frPush_ring0 (x : Slot) (s : State) : (frPush x s).ring0 = s.ring0 := rfl

@[simp] theorem ingest_ring0 (s : State) (x : F32) : (ingest s x).ring0 = s.ring0 := by
  simp only [ingest]; split <;> rfl

@[simp] theorem ingest2_ring0 (s : State) (x : F32 × F32) : (ingest2 s x).ring0 = s.ring0 := by
  simp only [ingest2]; split <;> rfl

@[simp] theorem afterPushSamples_ring0 (data : List F32) (s : State) : (afterPushSamples data s).ring0 = s.ring0 :=
  foldl_keeps (fun s => s.ring0) ingest ingest_ring0 data s

@[simp] theorem afterPushSamples2_ring0 (left right : List F32) (s : State) :
    (afterPushSamples2 left right s).ring0 = s.ring0 :=
  foldl_keeps (fun s => s.ring0) ingest2 ingest2_ring0 _ s

@[simp] theorem frPush_ring1 (x : Slot) (s : State) : (frPush x s).ring1 = s.ring1 := rfl

@[simp] theorem ingest_ring1 (s : State) (x : F32) : (ingest s x).ring1 = s.ring1 := by
  simp only [ingest]; split <;> rfl

@[simp] theorem ingest2_ring1 (s : State) (x : F32 × F32) : (ingest2 s x).ring1 = s.ring1 := by
  simp only [ingest2]; split <;> rfl

@[simp] theorem afterPushSamples_ring1 (data : List F32) (s : State) : (afterPushSamples data s).ring1 = s.ring1 :=
  foldl_keeps (fun s => s.ring1) ingest ingest_ring1 data s

@[simp] theorem afterPushSamples2_ring1 (left right : List F32) (s : State) :
    (afterPushSamples2 left right s).ring1 = s.ring1 :=
  foldl_keeps (fun s => s.ring1) ingest2 ingest2_ring1 _ s

@[simp] theorem frPush_cfg (x : Slot) (s : State) : (frPush x s).cfg = s.cfg := rfl

@[simp] theorem ingest_cfg (s : State) (x : F32) : (ingest s x).cfg = s.cfg := by
  simp only [ingest]; split <;> rfl

@[simp] theorem ingest2_cfg (s : State) (x : F32 × F32) : (ingest2 s x).cfg = s.cfg := by
  simp only [ingest2]; split <;> rfl

@[simp] theorem afterPushSamples_cfg (data : List F32) (s : State) : (afterPushSamples data s).cfg = s.cfg :=
  foldl_keeps (fun s => s.cfg) ingest ingest_cfg data s

@[simp] theorem afterPushSamples2_cfg (left right : List F32) (s : State) :
    (afterPushSamples2 left right s).cfg = s.cfg :=
  foldl_keeps (fun s => s.cfg) ingest2 ingest2_cfg _ s

@[simp] theorem frPush_win (x : Slot) (s : State) : (frPush x s).win = s.win := rfl

@[simp] theorem ingest_win (s : State) (x : F32) : (ingest s x).win = s.win := by
  simp only [ingest]; split <;> rfl

@[simp] theorem ingest2_win (s : State) (x : F32 × F32) : (ingest2 s x).win = s.win := by
  simp only [ingest2]; split <;> rfl

@[simp] theorem afterPushSamples_win (data : List F32) (s : State) : (afterPushSamples data s).win = s.win :=
  foldl_keeps (fun s => s.win) ingest ingest_win data s

@[simp] theorem afterPushSamples2_win (left right : List F32) (s : State) :
    (afterPushSamples2 left right s).win = s.win :=
  foldl_keeps (fun s => s.win) ingest2 ingest2_win _ s

@[simp] theorem frPush_portP (x : Slot) (s : State) : (frPush x s).portP = s.portP := rfl

@[simp] theorem ingest_portP (s : State) (x : F32) : (ingest s x).portP = s.portP := by
  simp only [ingest]; split <;> rfl

@[simp] theorem ingest2_portP (s : State) (x : F32 × F32) : (ingest2 s x).portP = s.portP := by
  simp only [ingest2]; split <;> rfl

@[simp] theorem afterPushSamples_portP (data : List F32) (s : State) : (afterPushSamples data s).portP = s.portP :=
  foldl_keeps (fun s => s.portP) ingest ingest_portP data s

@[simp] theorem afterPushSamples2_portP (left right : List F32) (s : State) :
    (afterPushSamples2 left right s).portP = s.portP :=
  foldl_keeps (fun s => s.portP) ingest2 ingest2_portP _ s

@[simp] theorem frPush_portD (x : Slot) (s : State) : (frPush x s).portD = s.portD := rfl

@[simp] theorem ingest_portD (s : State) (x : F32) : (ingest s x).portD = s.portD := by
  simp only [ingest]; split <;> rfl

@[simp] theorem ingest2_portD (s : State) (x : F32 × F32) : (ingest2 s x).portD = s.portD := by
  simp only [ingest2]; split <;> rfl

@[simp] theorem afterPushSamples_portD (data : List F32) (s : State) : (afterPushSamples data s).portD = s.portD :=
  foldl_keeps (fun s => s.portD) ingest ingest_portD data s

@[simp] theorem afterPushSamples2_portD (left right : List F32) (s : State) :
    (afterPushSamples2 left right s).portD = s.portD :=
  foldl_keeps (fun s => s.portD) ingest2 ingest2_portD _ s

@[simp] theorem frPush_portR (x : Slot) (s : State) : (frPush x s).portR = s.portR := rfl

@[simp] theorem ingest_portR (s : State) (x : F32) : (ingest s x).portR = s.portR := by
  simp only [ingest]; split <;> rfl

@[simp] theorem ingest2_portR (s : State) (x : F32 × F32) : (ingest2 s x).portR = s.portR := by
  simp only [ingest2]; split <;> rfl

@[simp] theorem afterPushSamples_portR (data : List F32) (s : State) : (afterPushSamples data s).portR = s.portR :=
  foldl_keeps (fun s => s.portR) ingest ingest_portR data s

@[simp] theorem afterPushSamples2_portR (left right : List F32) (s : State) :
    (afterPushSamples2 left right s).portR = s.portR :=
  foldl_keeps (fun s => s.portR) ingest2 ingest2_portR _ s

@[simp] theorem frPush_portG (x : Slot) (s : State) : (frPush x s).portG = s.portG := rfl

@[simp] theorem ingest_portG (s : State) (x : F32) : (ingest s x).portG = s.portG := by
  simp only [ingest]; split <;> rfl

@[simp] theorem ingest2_portG (s : State) (x : F32 × F32) : (ingest2 s x).portG = s.portG := by
  simp only [ingest2]; split <;> rfl

@[simp] theorem afterPushSamples_portG (data : List F32) (s : State) : (afterPushSamples data s).portG = s.portG :=
  foldl_keeps (fun s => s.portG) ingest ingest_portG data s

@[simp] theorem afterPushSamples2_portG (left right : List F32) (s : State) :
    (afterPushSamples2 left right s).portG = s.portG :=
  foldl_keeps (fun s => s.portG) ingest2 ingest2_portG _ s

@[simp] theorem frPush_active (x : Slot) (s : State) : (frPush x s).active = s.active := rfl

@[simp] theorem ingest_active (s : State) (x : F32) : (ingest s x).active = s.active := by
  simp only [ingest]; split <;> rfl

@[simp] theorem ingest2_active (s : State) (x : F32 × F32) : (ingest2 s x).active = s.active := by
  simp only [ingest2]; split <;> rfl

@[simp] theorem afterPushSamples_active (data : List F32) (s : State) : (afterPushSamples data s).active = s.active :=
  foldl_keeps (fun s => s.active) ingest ingest_active data s

@[simp] theorem afterPushSamples2_active (left right : List F32) (s : State) :
    (afterPushSamples2 left right s).active = s.active :=
  foldl_keeps (fun s => s.active) ingest2 ingest2_active _ s

@[simp] theorem frPush_agenda (x : Slot) (s : State) : (frPush x s).agenda = s.agenda := rfl

@[simp] theorem ingest_agenda (s : State) (x : F32) : (ingest s x).agenda = s.agenda := by
  simp only [ingest]; split <;> rfl

@[simp] theorem ingest2_agenda (s : State) (x : F32 × F32) : (ingest2 s x).agenda = s.agenda := by
  simp only [ingest2]; split <;> rfl

@[simp] theorem afterPushSamples_agenda (data : List F32) (s : State) : (afterPushSamples data s).agenda = s.agenda :=
  foldl_keeps (fun s => s.agenda) ingest ingest_agenda data s

@[simp] theorem afterPushSamples2_agenda (left right : List F32) (s : State) :
    (afterPushSamples2 left right s).agenda = s.agenda :=
  foldl_keeps (fun s => s.agenda) ingest2 ingest2_agenda _ s

@[simp] theorem ingest_fr_bins (s : State) (x : F32) : (ingest s x).fr.bins = s.fr.bins := by
  simp only [ingest]; split <;> rfl

@[simp] theorem ingest2_fr_bins (s : State) (x : F32 × F32) : (ingest2 s x).fr.bins = s.fr.bins := by
  simp only [ingest2]; split <;> rfl

@[simp] theorem afterPushSamples_fr_bins (data : List F32) (s : State) :
    (afterPushSamples data s).fr.bins = s.fr.bins :=
  foldl_keeps (fun s => s.fr.bins) ingest ingest_fr_bins data s

@[simp] theorem afterPushSamples2_fr_bins (left right : List F32) (s : State) :
    (afterPushSamples2 left right s).fr.bins = s.fr.bins :=
  foldl_keeps (fun s => s.fr.bins) ingest2 ingest2_fr_bins _ s

@[simp] theorem ingest_fr_r (s : State) (x : F32) : (ingest s x).fr.r = s.fr.r := by
  simp only [ingest]; split <;> rfl

@[simp] theorem ingest2_fr_r (s : State) (x : F32 × F32) : (ingest2 s x).fr.r = s.fr.r := by
  simp only [ingest2]; split <;> rfl

@[simp] theorem afterPushSamples_fr_r (data : List F32) (s : State) :
    (afterPushSamples data s).fr.r = s.fr.r :=
  foldl_keeps (fun s => s.fr.r) ingest ingest_fr_r data s

@[simp] theorem afterPushSamples2_fr_r (left right : List F32) (s : State) :
    (afterPushSamples2 left right s).fr.r = s.fr.r :=
  foldl_keeps (fun s => s.fr.r) ingest2 ingest2_fr_r _ s

/-! ## One sample, said once -/

/-- A sample that does not fill the accumulator is appended and nothing else happens (R182, R183). -/
theorem ingest_short (s : State) (x : F32) (h : s.writePos + 1 ≠ s.cfg.fftSize) : ingest s x = append x s := by
  simp only [ingest]; rw [if_neg (by simpa [append] using h)]

/-- A sample that fills the accumulator makes one frame, and the accumulator is shifted (R183, R184). -/
theorem ingest_full (s : State) (x : F32) (h : s.writePos + 1 = s.cfg.fftSize) :
    ingest s x = shift (fftStep (append x s)) := by
  simp only [ingest]; rw [if_pos (by simpa [append] using h)]

theorem ingest2_short (s : State) (x : F32 × F32) (h : s.writePos + 1 ≠ s.cfg.fftSize) : ingest2 s x = append2 x s := by
  simp only [ingest2]; rw [if_neg (by simpa [append2] using h)]

theorem ingest2_full (s : State) (x : F32 × F32) (h : s.writePos + 1 = s.cfg.fftSize) :
    ingest2 s x = shift2 (fftStep2 (append2 x s)) := by
  simp only [ingest2]; rw [if_pos (by simpa [append2] using h)]

/-! ## FR_PUSH, said once (R232) -/

theorem frPush_slots (x : Slot) (s : State) :
    (frPush x s).fr.slots = s.fr.slots.write (frameSlot s.fr.w) (s.framedSlot x) := rfl

theorem frPush_w (x : Slot) (s : State) : (frPush x s).fr.w = s.fr.w + 1 := rfl

theorem frPush_r (x : Slot) (s : State) : (frPush x s).fr.r = s.fr.r := rfl

theorem frPush_trueLead (x : Slot) (s : State) : (frPush x s).fr.trueLead = s.fr.trueLead + 1 := rfl

/-! ## Where an FFT step and a shift leave the accumulators -/

@[simp] theorem fftStep_acc0 (s : State) : (fftStep s).acc0 = s.acc0 := rfl

@[simp] theorem fftStep_acc1 (s : State) : (fftStep s).acc1 = s.acc1 := rfl

@[simp] theorem fftStep_writePos (s : State) : (fftStep s).writePos = s.writePos := rfl

@[simp] theorem fftStep_cfg (s : State) : (fftStep s).cfg = s.cfg := rfl

@[simp] theorem fftStep_fr (s : State) : (fftStep s).fr = (frPush s.monoFrame s).fr := rfl

@[simp] theorem fftStep2_acc0 (s : State) : (fftStep2 s).acc0 = s.acc0 := rfl

@[simp] theorem fftStep2_acc1 (s : State) : (fftStep2 s).acc1 = s.acc1 := rfl

@[simp] theorem fftStep2_writePos (s : State) : (fftStep2 s).writePos = s.writePos := rfl

@[simp] theorem fftStep2_cfg (s : State) : (fftStep2 s).cfg = s.cfg := rfl

@[simp] theorem fftStep2_fr (s : State) : (fftStep2 s).fr = (frPush s.stereoFrame s).fr := rfl

end Sys2Proof.Machine
end

