-- ==== Sys2Proof/Laws/Step.lean ====
section
/-!
SUPPORT. What a step can do, said once: `step_cases` lists the forms a next state can have, so that an invariant is one
small case analysis over it.
-/

namespace Sys2Proof.Machine

open Sys2Proof

/-- The forms of a turn's next state. -/
inductive TurnCase (s t : State) : Prop where
  /-- Nothing to do, or words still to come. -/
  | waits (h : t = s)
  /-- A command completes on port `q`: `exec` on the state with the command's words taken. -/
  | completes (q : Port) (i : Instr) (input : List Word) (h : exec i (onPort q input none none s) = .next t)
  /-- A command word is taken and the command is in progress on port `q`. -/
  | begins (q : Port) (w : Word) (input : List Word) (op : Op) (idle : (s.port q).busy = none)
      (offered : (s.port q).input = w :: input) (row : opOf w = some op)
      (admitted : stopOf (assemble op w input) { s with active := q } = none)
      (h : t = onPort q input (some w) (s.measure (assemble op w input)) s)
  /-- Part of a PUSHSAMPLES or PUSHSAMPLES2 in progress on port `D`: the rest stays in progress. -/
  | parts (w : Word) (k : Nat) (op : Op) (i : Instr) (input : List Word) (u : State)
      (busy : s.portD.busy = some w) (row : opOf w = some op) (same : i.op = op)
      (isPush : op = .pushSamples ∨ op = .pushSamples2)
      (h : exec i (onPort .d input none none s) = .next u)
      (ht : t = u.setPort .d { u.portD with busy := some (remainingHead w k) })
  /-- SYNC_W on a ring. -/
  | syncW (q : RingId) (k : Nat) (h : t = s.setRing q ((s.ring q).syncW k))
  /-- SYNC_R on a ring. -/
  | syncR (q : RingId) (k : Nat) (h : t = s.setRing q ((s.ring q).syncR k))

theorem completeOn_cases {q : Port} {i : Instr} {rest : List Word} {s t : State}
    (h : completeOn q i rest s = .next t) : TurnCase s t := .completes q i rest h

theorem mapNext_next {f : State → State} {o : Host.Outcome State Fault Refusal} {t : State}
    (h : mapNext f o = .next t) : ∃ u, o = .next u ∧ t = f u := by
  cases o with
  | next u => exact ⟨u, rfl, by simpa [mapNext] using h.symm⟩
  | fault r => cases h
  | refused r => cases h

theorem startPort_cases {q : Port} {s t : State} (h : startPort q s = .next t) : TurnCase s t := by
  unfold startPort at h
  cases hb : (s.port q).busy with
  | some w => rw [hb] at h; cases h
  | none =>
    rw [hb] at h
    cases hi : (s.port q).input with
    | nil => rw [hi] at h; exact .waits (by cases h; rfl)
    | cons w rest =>
      rw [hi] at h
      simp only [beginOn] at h
      cases ho : opOf w with
      | none => rw [ho] at h; cases h
      | some op =>
        rw [ho] at h
        simp only at h
        cases ha : stopOf (assemble op w rest) { s with active := q } with
        | some stop => rw [ha] at h; cases stop <;> cases h
        | none =>
          rw [ha] at h
          cases h
          exact .begins q w rest op hb hi ho ha rfl

theorem finishPort_cases {q : Port} {w : Word} {s t : State} (h : finishPort q w s = .next t) : TurnCase s t := by
  unfold finishPort at h
  cases hd : decode q (w :: (s.port q).input) with
  | command i rest => rw [hd] at h; exact completeOn_cases h
  | reserved row rest => rw [hd] at h; cases h
  | incomplete => rw [hd] at h; exact .waits (by cases h; rfl)
  | nothing => rw [hd] at h; exact .waits (by cases h; rfl)

theorem runPort_cases {q : Port} {s t : State} (h : runPort q s = .next t) : TurnCase s t := by
  unfold runPort at h
  cases hb : (s.port q).busy with
  | some w => rw [hb] at h; exact finishPort_cases h
  | none =>
    rw [hb] at h
    cases hd : decode q (s.port q).input with
    | command i rest => rw [hd] at h; exact completeOn_cases h
    | reserved row rest => rw [hd] at h; cases h
    | incomplete => rw [hd] at h; exact startPort_cases h
    | nothing => rw [hd] at h; exact .waits (by cases h; rfl)

theorem partMono_cases {w : Word} {k : Nat} {s t : State} (hb : s.portD.busy = some w)
    (ho : opOf w = some .pushSamples) (h : partMono w k s = .next t) : TurnCase s t := by
  simp only [partMono] at h
  split_ifs at h with hk
  · obtain ⟨u, hu, ht⟩ := mapNext_next h
    exact .parts w _ _ _ _ u hb ho rfl (.inl rfl) hu ht
  · exact .waits (by cases h; rfl)

theorem partStereo_cases {w : Word} {k : Nat} {s t : State} (hb : s.portD.busy = some w)
    (ho : opOf w = some .pushSamples2) (h : partStereo w k s = .next t) : TurnCase s t := by
  simp only [partStereo] at h
  split_ifs at h with hk
  · obtain ⟨u, hu, ht⟩ := mapNext_next h
    exact .parts w _ _ _ _ u hb ho rfl (.inr rfl) hu ht
  · exact .waits (by cases h; rfl)

theorem partPort_cases {k : Nat} {s t : State} (h : partPort k s = .next t) : TurnCase s t := by
  unfold partPort at h
  cases hb : s.portD.busy with
  | none => rw [hb] at h; exact .waits (by cases h; rfl)
  | some w =>
    rw [hb] at h
    simp only at h
    split at h
    · next ho => exact partMono_cases hb ho h
    · next ho => exact partStereo_cases hb ho h
    · exact .waits (by cases h; rfl)

/-- What a turn can do. -/
theorem takeTurn_cases {turn : Turn} {s t : State} (h : takeTurn turn s = .next t) : TurnCase s t := by
  cases turn with
  | run q => exact runPort_cases h
  | start q => exact startPort_cases h
  | part k => exact partPort_cases h
  | syncW q k => exact .syncW q k (by cases h; rfl)
  | syncR q k => exact .syncR q k (by cases h; rfl)

/-- What a step can do: hold the state, or take the first turn of the agenda. -/
theorem step_cases {s t : State} (h : step s = .next t) :
    (s.agenda = [] ∧ t = s) ∨ ∃ turn rest, s.agenda = turn :: rest ∧ TurnCase { s with agenda := rest } t := by
  unfold step at h
  cases ha : s.agenda with
  | nil => rw [ha] at h; exact .inl ⟨rfl, by cases h; rfl⟩
  | cons turn rest => rw [ha] at h; exact .inr ⟨turn, rest, rfl, takeTurn_cases h⟩

end Sys2Proof.Machine
end

