-- ==== Sys2Proof/Laws/RingSteps.lean ====
section
/-!
SUPPORT. What a step can do to a SampleRing, said once: nothing, SR_SETSIZE, SR_PUSH, SR_POP or a synchroniser step.
-/

namespace Sys2Proof.Machine

open Sys2Proof

/-- The forms a ring can have after a step. -/
inductive RingMove (x y : SampleRing) : Prop where
  | stays (h : y = x)
  | resizes (lc : BitVec 5) (h : y = SampleRing.resized lc)
  | pushes (data : List F32) (h : y = x.pushed data)
  | pops (n : Nat) (h : y = x.popped n)
  | syncsW (k : Nat) (h : y = x.syncW k)
  | syncsR (k : Nat) (h : y = x.syncR k)

/-- A ring replaced by one of its forms: every other ring stays. -/
theorem RingMove.setRing {s : State} {ch q : RingId} {x : SampleRing} (h : RingMove (s.ring ch) x) :
    RingMove (s.ring q) ((s.setRing ch x).ring q) := by
  by_cases hq : q = ch
  · subst hq; simpa using h
  · exact .stays (State.ring_setRing_other s x hq)

/-- What a command does to a ring. -/
theorem effect_ring (i : Instr) (s : State) (q : RingId) : RingMove (s.ring q) ((effect i s).ring q) := by
  cases i with
  | srSetSize ch lc => exact .setRing (.resizes lc rfl)
  | srPush ch data => exact .setRing (.pushes data rfl)
  | srPop ch n => simpa [effect, afterSrPop] using RingMove.setRing (.pops n.toNat rfl)
  | srGetFree ch => exact .stays (State.respond_ring ..)
  | srGetReady ch => exact .stays (State.respond_ring ..)
  | prepare order rate => exact .stays (by cases q <;> rfl)
  | setWindow type => exact .stays (by cases q <;> rfl)
  | setOverlap frac => exact .stays (by cases q <;> rfl)
  | getFftSize => exact .stays (State.respond_ring ..)
  | getNumBins => exact .stays (State.respond_ring ..)
  | getSampleRate => exact .stays (State.respond_ring ..)
  | pushSamples data => exact .stays (by cases q <;> simp [effect, State.ring])
  | pushSamples2 left right => exact .stays (by cases q <;> simp [effect, State.ring])
  | pullFrame n =>
    refine .stays ?_
    simp only [effect, afterPullFrame]
    split_ifs <;> rw [State.respond_ring]
    cases q <;> rfl
  | pullFrame2 =>
    refine .stays ?_
    simp only [effect, afterPullFrame2]
    split_ifs <;> rw [State.respond_ring]
    cases q <;> rfl

@[simp] theorem onPort_ring (q : Port) (input : List Word) (busy : Option Word) (measured : Option Nat) (s : State)
    (o : RingId) : (onPort q input busy measured s).ring o = s.ring o := by
  cases q <;> cases o <;> rfl

/-- What a turn does to a ring. -/
theorem TurnCase.ring {s t : State} (h : TurnCase s t) (q : RingId) : RingMove (s.ring q) (t.ring q) := by
  have ran : ∀ {i : Instr} {o : Port} {input : List Word} {u : State}, exec i (onPort o input none none s) = .next u →
      RingMove (s.ring q) (u.ring q) := by
    intro i o input u hu
    obtain ⟨-, rfl⟩ := (exec_next_iff ..).mp hu
    simpa using effect_ring i (onPort o input none none s) q
  cases h with
  | waits h => exact .stays (by rw [h])
  | completes o i input h => exact ran h
  | begins o w input op _ _ _ _ h => exact .stays (by rw [h, onPort_ring])
  | parts w k op i input u _ _ _ _ h ht => rw [ht, State.ring_setPort]; exact ran h
  | syncW o k h => rw [h]; exact .setRing (.syncsW k rfl)
  | syncR o k h => rw [h]; exact .setRing (.syncsR k rfl)

/-- What a step does to a ring. -/
theorem step_ring {s t : State} (h : step s = .next t) (q : RingId) : RingMove (s.ring q) (t.ring q) := by
  obtain ⟨-, rfl⟩ | ⟨turn, rest, -, hc⟩ := step_cases h
  · exact .stays rfl
  · simpa using hc.ring q

end Sys2Proof.Machine
end

