-- ==== Sys2Proof/Laws/Memory.lean ====
section
/-!
SUPPORT. The laws of a storage: what a read finds after each operation, and that each operation keeps the canonical form.
-/

namespace Sys2Proof.Machine

open Sys2Proof

variable {α : Type}

/-! ## Reads -/

@[simp] theorem Memory.read_nil (a : Nat) : Memory.read ([] : Memory α) a = none := rfl

theorem Memory.read_cons (b : Nat) (v : α) (m : Memory α) (a : Nat) :
    Memory.read ((b, v) :: m) a = if b = a then some v else Memory.read m a := rfl

/-- A read after a write to the same index gives what was written. -/
@[simp] theorem Memory.read_write_same (m : Memory α) (a : Nat) (v : α) : (Memory.write m a v).read a = some v := by
  induction m with
  | nil => simp [Memory.write, Memory.read]
  | cons c m ih =>
    obtain ⟨b, u⟩ := c
    simp only [Memory.write]
    split_ifs with h1 h2
    · simp [Memory.read]
    · simp [Memory.read]
    · simp only [Memory.read]
      rw [if_neg (fun h => h2 h.symm), ih]

/-- A write leaves every other index alone. -/
theorem Memory.read_write_other (m : Memory α) {a b : Nat} (v : α) (h : b ≠ a) :
    (Memory.write m a v).read b = m.read b := by
  induction m with
  | nil => simp [Memory.write, Memory.read, Ne.symm h]
  | cons c m ih =>
    obtain ⟨k, u⟩ := c
    simp only [Memory.write]
    split_ifs with h1 h2
    · simp [Memory.read, Ne.symm h]
    · subst h2
      simp [Memory.read, Ne.symm h]
    · simp only [Memory.read, ih]

theorem Memory.read_write (m : Memory α) (a b : Nat) (v : α) :
    (Memory.write m a v).read b = if b = a then some v else m.read b := by
  by_cases h : b = a
  · subst h; simp
  · rw [if_neg h, Memory.read_write_other m v h]

/-- A storage laid out from a list holds its words from the start index on, and no others. -/
theorem Memory.read_ofListFrom (i : Nat) (vs : List α) (a : Nat) :
    (Memory.ofListFrom i vs).read a = if a < i then none else vs[a - i]? := by
  induction vs generalizing i with
  | nil => simp [Memory.ofListFrom]
  | cons v vs ih =>
    simp only [Memory.ofListFrom, Memory.read_cons, ih]
    by_cases h : i = a
    · subst h; simp
    · rw [if_neg h]
      by_cases h2 : a < i
      · simp [h2, Nat.lt_succ_of_lt h2]
      · have h3 : ¬ a < i + 1 := by omega
        rw [if_neg h3, if_neg h2]
        obtain ⟨d, rfl⟩ : ∃ d, a = i + 1 + d := ⟨a - (i + 1), by omega⟩
        have e1 : i + 1 + d - (i + 1) = d := by omega
        have e2 : i + 1 + d - i = d + 1 := by omega
        rw [e1, e2, List.getElem?_cons_succ]

theorem Memory.read_append (m n : Memory α) (a : Nat) :
    Memory.read (m ++ n : List (Nat × α)) a = (m.read a).or (Memory.read n a) := by
  induction m with
  | nil => simp [Memory.read]
  | cons c m ih =>
    obtain ⟨b, v⟩ := c
    simp only [List.cons_append, Memory.read_cons, ih]
    split_ifs <;> simp

theorem Memory.read_filter (m : Memory α) (p : Nat → Bool) (a : Nat) :
    Memory.read (m.filter (fun c => p c.1)) a = if p a then m.read a else none := by
  induction m with
  | nil => simp [Memory.read]
  | cons c m ih =>
    obtain ⟨b, v⟩ := c
    by_cases hb : p b = true
    · rw [List.filter_cons_of_pos (by simpa using hb)]
      simp only [Memory.read_cons, ih]
      by_cases h : b = a
      · subst h; simp [hb]
      · simp [h]
    · rw [List.filter_cons_of_neg (by simpa using hb), ih]
      simp only [Memory.read_cons]
      by_cases h : b = a
      · subst h; simp [hb]
      · simp [h]

theorem Memory.read_lowered (m : Memory α) (hop a : Nat) (hm : ∀ c ∈ m, hop ≤ c.1) :
    Memory.read (m.map (fun c => (c.1 - hop, c.2))) a = m.read (a + hop) := by
  induction m with
  | nil => simp [Memory.read]
  | cons c m ih =>
    obtain ⟨b, v⟩ := c
    have hb : hop ≤ b := hm (b, v) (by simp)
    have ih := ih (fun c hc => hm c (by simp [hc]))
    simp only [List.map_cons, Memory.read_cons, ih]
    by_cases h : b = a + hop
    · subst h; simp
    · rw [if_neg h, if_neg (by omega)]

/-- What the overlap shift leaves at each index (R184). -/
theorem Memory.read_shiftDown (size hop : Nat) (m : Memory α) (a : Nat) :
    (Memory.shiftDown size hop m).read a = if a < size - hop then m.read (a + hop) else m.read a := by
  unfold Memory.shiftDown
  rw [Memory.read_append]
  have h1 : ∀ c ∈ m.filter (fun c => decide (hop ≤ c.1) && decide (c.1 < size)), hop ≤ c.1 := by
    intro c hc
    have := (List.mem_filter.mp hc).2
    simp at this
    exact this.1
  rw [Memory.read_lowered _ _ _ h1,
    Memory.read_filter m (fun k => decide (hop ≤ k) && decide (k < size)),
    Memory.read_filter m (fun k => decide (size - hop ≤ k))]
  by_cases h : a < size - hop
  · have h2 : a + hop < size := by omega
    have h3 : ¬ size - hop ≤ a := by omega
    simp [h, h2, h3]
  · have h2 : ¬ a + hop < size := by omega
    simp [h, h2]

/-! ## The canonical form -/

@[simp] theorem Memory.wf_nil : Memory.wf ([] : Memory α) := by simp [Memory.wf]

theorem Memory.write_keys (m : Memory α) (a : Nat) (v : α) (k : Nat) :
    k ∈ (Memory.write m a v).map Prod.fst ↔ k = a ∨ k ∈ m.map Prod.fst := by
  induction m with
  | nil => simp [Memory.write]
  | cons c m ih =>
    obtain ⟨b, u⟩ := c
    simp only [Memory.write]
    split_ifs with h1 h2
    · simp
    · subst h2; simp
    · rw [List.map_cons, List.mem_cons, ih, List.map_cons, List.mem_cons]
      tauto

/-- A write keeps the canonical form. -/
theorem Memory.wf_write (m : Memory α) (a : Nat) (v : α) (h : Memory.wf m) : Memory.wf (Memory.write m a v) := by
  induction m with
  | nil => simp [Memory.write, Memory.wf]
  | cons c m ih =>
    obtain ⟨b, u⟩ := c
    have h' := h
    simp only [Memory.wf, List.map_cons, List.pairwise_cons] at h
    obtain ⟨hb, hm⟩ := h
    simp only [Memory.write]
    split_ifs with h1 h2
    · simp only [Memory.wf, List.map_cons, List.pairwise_cons]
      refine ⟨?_, hb, hm⟩
      intro k hk
      rcases List.mem_cons.mp hk with rfl | hk
      · exact h1
      · exact lt_trans h1 (hb k hk)
    · subst h2; exact h'
    · simp only [Memory.wf, List.map_cons, List.pairwise_cons]
      refine ⟨?_, ih hm⟩
      intro k hk
      rcases (Memory.write_keys m a v k).mp hk with rfl | hk
      · omega
      · exact hb k hk

theorem Memory.ofListFrom_keys_ge (i : Nat) (vs : List α) :
    ∀ k ∈ (Memory.ofListFrom i vs).map Prod.fst, i ≤ k := by
  induction vs generalizing i with
  | nil => simp [Memory.ofListFrom]
  | cons v vs ih =>
    intro k hk
    simp only [Memory.ofListFrom, List.map_cons, List.mem_cons] at hk
    rcases hk with rfl | hk
    · exact le_refl _
    · exact le_trans (Nat.le_succ i) (ih (i + 1) k hk)

/-- A storage laid out from a list is in canonical form. -/
theorem Memory.wf_ofListFrom (i : Nat) (vs : List α) : Memory.wf (Memory.ofListFrom i vs) := by
  induction vs generalizing i with
  | nil => simp [Memory.ofListFrom, Memory.wf]
  | cons v vs ih =>
    simp only [Memory.ofListFrom, Memory.wf, List.map_cons, List.pairwise_cons]
    exact ⟨fun k hk => Memory.ofListFrom_keys_ge (i + 1) vs k hk, ih (i + 1)⟩

/-- A run of writes keeps the canonical form. -/
theorem Memory.wf_writeRun (size start : Nat) (vs : List α) (m : Memory α) (h : Memory.wf m) :
    Memory.wf (Memory.writeRun size start vs m) := by
  induction vs generalizing start m with
  | nil => exact h
  | cons v vs ih => exact ih _ _ (Memory.wf_write m _ v h)

/-- The overlap shift keeps the canonical form. -/
theorem Memory.wf_shiftDown (size hop : Nat) (m : Memory α) (h : Memory.wf m) :
    Memory.wf (Memory.shiftDown size hop m) := by
  unfold Memory.shiftDown Memory.wf
  rw [List.map_append, List.pairwise_append]
  rw [Memory.wf, List.pairwise_map] at h
  refine ⟨?_, ?_, ?_⟩
  · rw [List.map_map, List.pairwise_map]
    refine List.Pairwise.imp_of_mem ?_ (h.filter _)
    intro x y hx hy hxy
    have h1 := (List.mem_filter.mp hx).2
    simp at h1
    simp only [Function.comp]
    omega
  · rw [List.pairwise_map]
    exact h.filter _
  · intro x hx y hy
    simp only [List.map_map, List.mem_map, List.mem_filter, Function.comp] at hx hy
    obtain ⟨c, ⟨_, hc⟩, rfl⟩ := hx
    obtain ⟨d, ⟨_, hd⟩, rfl⟩ := hy
    simp at hc hd
    omega

/-! ## Runs of writes -/

/-- A run of writes leaves alone every index it does not reach. -/
theorem Memory.read_writeRun_other (size start : Nat) (vs : List α) (m : Memory α) (a : Nat)
    (h : ∀ j, j < vs.length → (start + j) % size ≠ a) : (Memory.writeRun size start vs m).read a = m.read a := by
  induction vs generalizing start m with
  | nil => rfl
  | cons v vs ih =>
    rw [Memory.writeRun, ih]
    · exact Memory.read_write_other m v (by simpa using (h 0 (by simp)).symm)
    · intro j hj
      have := h (j + 1) (by simpa using hj)
      rwa [show start + (j + 1) = start + 1 + j by omega] at this

/-- A run of at most `size` writes puts word `j` at `(start + j) mod size`. -/
theorem Memory.read_writeRun (size start : Nat) (vs : List α) (hl : vs.length ≤ size) (m : Memory α)
    (j : Nat) (hj : j < vs.length) : (Memory.writeRun size start vs m).read ((start + j) % size) = vs[j]? := by
  induction vs generalizing start m j with
  | nil => simp at hj
  | cons v vs ih =>
    rw [Memory.writeRun]
    cases j with
    | zero =>
      rw [Memory.read_writeRun_other]
      · simp
      · intro j hj' h
        simp at hl
        have hdvd : (start + 1 + j) ≡ start [MOD size] := by simpa [Nat.ModEq] using h
        have h2 : size ∣ (start + 1 + j) - start := (Nat.modEq_iff_dvd' (by omega)).mp hdvd.symm
        rw [show (start + 1 + j) - start = 1 + j by omega] at h2
        exact absurd (Nat.le_of_dvd (by omega) h2) (by omega)
    | succ j =>
      rw [show start + (j + 1) = start + 1 + j by omega]
      rw [ih (start + 1) (by simp at hl; omega) _ j (by simpa using hj)]
      simp

end Sys2Proof.Machine
end

