-- ==== Sys2Proof/Laws/Rings.lean ====
section
/-!
SUPPORT. Cursor arithmetic of a SampleRing (R129): differences and sums modulo `2C`, said once over numbers, and what each
operation on a ring does to the counts.
-/

namespace Sys2Proof.Machine

open Sys2Proof

/-! ## Differences and sums modulo `2C` -/

theorem cursorDiff_lt {c : Nat} (hc : 0 < c) (a b : Nat) : cursorDiff c a b < 2 * c := Nat.mod_lt _ (by omega)

theorem cursorAdd_lt {c : Nat} (hc : 0 < c) (a k : Nat) : cursorAdd c a k < 2 * c := Nat.mod_lt _ (by omega)

/-- For cursors in range the difference is the plain one, or the one over the wrap. -/
theorem cursorDiff_eq {c a b : Nat} (ha : a < 2 * c) (hb : b < 2 * c) :
    cursorDiff c a b = if b ≤ a then a - b else a + 2 * c - b := by
  unfold cursorDiff
  rw [Nat.mod_eq_of_lt hb]
  split_ifs with h
  · rw [show a + (2 * c - b) = (a - b) + 2 * c by omega, Nat.add_mod_right, Nat.mod_eq_of_lt (by omega)]
  · rw [show a + (2 * c - b) = a + 2 * c - b by omega, Nat.mod_eq_of_lt (by omega)]

theorem cursorAdd_eq {c a k : Nat} (ha : a < 2 * c) (hk : k < 2 * c) :
    cursorAdd c a k = if a + k < 2 * c then a + k else a + k - 2 * c := by
  unfold cursorAdd
  split_ifs with h
  · exact Nat.mod_eq_of_lt h
  · rw [Nat.mod_eq_sub_mod (by omega), Nat.mod_eq_of_lt (by omega)]

@[simp] theorem cursorDiff_self {c a : Nat} (ha : a < 2 * c) : cursorDiff c a a = 0 := by
  rw [cursorDiff_eq ha ha, if_pos (Nat.le_refl a), Nat.sub_self]

/-- Going as far as the difference reaches the cursor. -/
theorem cursorAdd_diff {c a b : Nat} (ha : a < 2 * c) (hb : b < 2 * c) : cursorAdd c b (cursorDiff c a b) = a := by
  rw [cursorAdd_eq hb (cursorDiff_lt (by omega) a b), cursorDiff_eq ha hb]
  split_ifs <;> omega

/-- A cursor that moves forward by `k` is `k` further ahead, while that stays below the modulus. -/
theorem cursorDiff_add_left {c a b k : Nat} (ha : a < 2 * c) (hb : b < 2 * c) (h : cursorDiff c a b + k < 2 * c) :
    cursorDiff c (cursorAdd c a k) b = cursorDiff c a b + k := by
  have hk : k < 2 * c := by omega
  have hs := cursorAdd_lt (c := c) (by omega) a k
  rw [cursorDiff_eq hs hb]
  rw [cursorDiff_eq ha hb] at h ⊢
  rw [cursorAdd_eq ha hk]
  split_ifs at h ⊢ <;> omega

/-- A cursor is `k` less ahead of one that moved `k` towards it. -/
theorem cursorDiff_add_right {c a b k : Nat} (ha : a < 2 * c) (hb : b < 2 * c) (h : k ≤ cursorDiff c a b) :
    cursorDiff c a (cursorAdd c b k) = cursorDiff c a b - k := by
  have hd := cursorDiff_lt (c := c) (by omega) a b
  have hs := cursorAdd_lt (c := c) (by omega) b k
  rw [cursorDiff_eq ha hs]
  rw [cursorDiff_eq ha hb] at h hd ⊢
  rw [cursorAdd_eq hb (by omega)]
  split_ifs at h hd ⊢ <;> omega

/-- Distances add up along a ring, where the whole is not less than a part. -/
theorem cursorDiff_split {c a b d : Nat} (ha : a < 2 * c) (hb : b < 2 * c) (hd : d < 2 * c)
    (h : cursorDiff c b d ≤ cursorDiff c a d) : cursorDiff c a d = cursorDiff c a b + cursorDiff c b d := by
  rw [cursorDiff_eq ha hd, cursorDiff_eq hb hd] at h
  rw [cursorDiff_eq ha hd, cursorDiff_eq ha hb, cursorDiff_eq hb hd]
  split_ifs at h ⊢ <;> omega

/-- Two slots fewer than `C` apart are different. -/
theorem slot_ne {c : Nat} (start : Nat) {i j : Nat} (hij : i < j) (h : j < i + c) : (start + i) % c ≠ (start + j) % c := by
  intro e
  have hm : (start + i) ≡ (start + j) [MOD c] := e
  have hd : c ∣ (start + j) - (start + i) := (Nat.modEq_iff_dvd' (by omega)).mp hm
  have := Nat.le_of_dvd (by omega) hd
  omega

/-- A slot index only depends on the cursor modulo `2C`. -/
theorem slot_mod (c a j : Nat) : (a % (2 * c) + j) % c = (a + j) % c := by
  rw [Nat.add_mod, Nat.mod_mul_left_mod, ← Nat.add_mod]

/-! ## Counts -/

theorem SampleRing.capacity_pos (x : SampleRing) : 0 < x.capacity := Nat.two_pow_pos _

theorem SampleRing.accepted_le (x : SampleRing) (data : List F32) : x.accepted data ≤ data.length := Nat.min_le_left _ _

theorem SampleRing.accepted_le_free (x : SampleRing) (data : List F32) : x.accepted data ≤ x.producerFree :=
  Nat.min_le_right _ _

theorem SampleRing.delivered_le (x : SampleRing) (n : Nat) : x.delivered n ≤ x.consumerReady := Nat.min_le_right _ _

@[simp] theorem SampleRing.pushed_capacity (x : SampleRing) (data : List F32) : (x.pushed data).capacity = x.capacity := rfl

@[simp] theorem SampleRing.popped_capacity (x : SampleRing) (n : Nat) : (x.popped n).capacity = x.capacity := rfl

/-- SYNC_W changes the view of the write cursor and nothing else. -/
theorem SampleRing.syncW_frame (x : SampleRing) (k : Nat) : x.syncW k = { x with wv := (x.syncW k).wv } := by
  unfold SampleRing.syncW; split <;> rfl

/-- SYNC_R changes the view of the read cursor and nothing else. -/
theorem SampleRing.syncR_frame (x : SampleRing) (k : Nat) : x.syncR k = { x with rv := (x.syncR k).rv } := by
  unfold SampleRing.syncR; split <;> rfl

/-- A pop answers as many words as it delivers. -/
@[simp] theorem State.popWords_length (s : State) (q : RingId) (n : Nat) :
    (s.popWords q n).length = (s.ring q).delivered n := by simp [State.popWords]

/-- A pop on a slot that was written answers its word. -/
theorem State.popWords_getElem (s : State) (q : RingId) (n j : Nat) (v : F32) (h : j < (s.ring q).delivered n)
    (hv : (s.ring q).mem.read ((s.ring q).slotIndex (s.ring q).rp j) = some v) : (s.popWords q n)[j]? = some v := by
  simp [State.popWords, h, State.ringWord, wordOf, hv]

end Sys2Proof.Machine
end

