-- ==== Sys2Proof/Laws/Fairness.lean ====
section
/-!
SUPPORT. The fairness of the synchronisers (R68, R69): a run whose schedule moves every view again and again is fair. The
measure is a view's lag, the distance to its cursor: no move of a quiet cursor makes it larger, a synchroniser step makes
it smaller.
-/

namespace Sys2Proof.Machine

open Sys2Proof

/-! ## A view goes through the Gray code unchanged (R66) -/

theorem ungrayUpTo_gray {w : Nat} (b : BitVec w) (n : Nat) : ungrayUpTo (gray b) n = b ^^^ (b >>> n) := by
  induction n with
  | zero => simp [ungrayUpTo]
  | succ n ih =>
    rw [ungrayUpTo, ih, gray, BitVec.ushiftRight_xor_distrib, ← BitVec.shiftRight_add, Nat.add_comm 1 n]
    simp [BitVec.xor_assoc]

theorem throughGray_eq {width v : Nat} (h : v < 2 ^ width) : throughGray width v = v := by
  simp [throughGray, ungray, ungrayUpTo_gray, Nat.mod_eq_of_lt h, Nat.shiftRight_eq_div_pow, Nat.div_eq_of_lt h]

theorem SampleRing.throughGray_cursorAdd (x : SampleRing) (a k : Nat) :
    throughGray (x.lc.toNat + 1) (cursorAdd x.capacity a k) = cursorAdd x.capacity a k :=
  throughGray_eq (by
    rw [Nat.pow_succ, Nat.mul_comm]
    exact cursorAdd_lt x.capacity_pos a k)

/-! ## Lags -/

/-- How far the consumer side's view is behind `wp`. -/
def SampleRing.lagW (x : SampleRing) : Nat := cursorDiff x.capacity x.wp x.wv

/-- How far the producer side's view is behind `rp`. -/
def SampleRing.lagR (x : SampleRing) : Nat := cursorDiff x.capacity x.rp x.rv

theorem SampleRing.lagW_syncW {lcMax : Nat} {x : SampleRing} (hs : x.sized = true) (h : RingRange lcMax x) (k : Nat) :
    (x.syncW k).lagW = x.lagW - min k x.lagW := by
  obtain ⟨-, -, hw, -, -, hv⟩ := h
  simp only [SampleRing.syncW, hs, if_true, SampleRing.throughGray_cursorAdd]
  exact cursorDiff_add_right hw hv (Nat.min_le_right ..)

theorem SampleRing.lagR_syncR {lcMax : Nat} {x : SampleRing} (hs : x.sized = true) (h : RingRange lcMax x) (k : Nat) :
    (x.syncR k).lagR = x.lagR - min k x.lagR := by
  obtain ⟨-, -, -, hr, hv, -⟩ := h
  simp only [SampleRing.syncR, hs, if_true, SampleRing.throughGray_cursorAdd]
  exact cursorDiff_add_right hr hv (Nat.min_le_right ..)

theorem SampleRing.wv_of_lagW {lcMax : Nat} {x : SampleRing} (h : RingRange lcMax x) (h0 : x.lagW = 0) : x.wv = x.wp := by
  obtain ⟨-, -, hw, -, -, hv⟩ := h
  have := cursorAdd_diff hw hv
  rw [show cursorDiff x.capacity x.wp x.wv = 0 from h0, cursorAdd, Nat.add_zero, Nat.mod_eq_of_lt hv] at this
  exact this

theorem SampleRing.rv_of_lagR {lcMax : Nat} {x : SampleRing} (h : RingRange lcMax x) (h0 : x.lagR = 0) : x.rv = x.rp := by
  obtain ⟨-, -, -, hr, hv, -⟩ := h
  have := cursorAdd_diff hr hv
  rw [show cursorDiff x.capacity x.rp x.rv = 0 from h0, cursorAdd, Nat.add_zero, Nat.mod_eq_of_lt hv] at this
  exact this

/-- While `wp` rests, no move makes the lag of its view larger. -/
theorem RingMove.lagW_le {lcMax : Nat} {x y : SampleRing} (h : RingMove x y) (hs : x.sized = true)
    (hx : RingRange lcMax x) (hw : y.wp = x.wp) : y.lagW ≤ x.lagW := by
  cases h with
  | stays h => rw [h]
  | resizes lc h => subst h; simp [SampleRing.lagW, SampleRing.resized, cursorDiff]
  | pushes data h =>
    have hv : y.wv = x.wv := by rw [h]; rfl
    have hc : y.capacity = x.capacity := by rw [h]; rfl
    rw [SampleRing.lagW, SampleRing.lagW, hw, hv, hc]
  | pops n h => rw [h]; exact Nat.le_refl _
  | syncsW k h => rw [h, SampleRing.lagW_syncW hs hx]; exact Nat.sub_le ..
  | syncsR k h => rw [h, SampleRing.syncR_frame]; exact Nat.le_refl _

/-- While `rp` rests, no move makes the lag of its view larger. -/
theorem RingMove.lagR_le {lcMax : Nat} {x y : SampleRing} (h : RingMove x y) (hs : x.sized = true)
    (hx : RingRange lcMax x) (hr : y.rp = x.rp) : y.lagR ≤ x.lagR := by
  cases h with
  | stays h => rw [h]
  | resizes lc h => subst h; simp [SampleRing.lagR, SampleRing.resized, cursorDiff]
  | pushes data h => rw [h]; exact Nat.le_refl _
  | pops n h =>
    have hv : y.rv = x.rv := by rw [h]; rfl
    have hc : y.capacity = x.capacity := by rw [h]; rfl
    rw [SampleRing.lagR, SampleRing.lagR, hr, hv, hc]
  | syncsW k h => rw [h, SampleRing.syncW_frame]; exact Nat.le_refl _
  | syncsR k h => rw [h, SampleRing.lagR_syncR hs hx]; exact Nat.sub_le ..

/-! ## Runs -/

theorem offerWords_ring (p d r g : List Word) (s : State) (q : RingId) : (offerWords p d r g s).ring q = s.ring q := by
  cases q <;> rfl

theorem Moves.ring {s t : State} {turn : Turn} (h : Moves s turn t) (q : RingId) : RingMove (s.ring q) (t.ring q) := by
  obtain ⟨p, d, r, g, hs⟩ := h
  simpa [offerWords_ring] using step_ring hs q

theorem Moves.syncW {s t : State} {q : RingId} {k : Nat} (h : Moves s (.syncW q k) t) : t.ring q = (s.ring q).syncW k := by
  obtain ⟨p, d, r, g, hs⟩ := h
  cases hs
  simp [offerWords_ring]

theorem Moves.syncR {s t : State} {q : RingId} {k : Nat} (h : Moves s (.syncR q k) t) : t.ring q = (s.ring q).syncR k := by
  obtain ⟨p, d, r, g, hs⟩ := h
  cases hs
  simp [offerWords_ring]

/-- A number that never rises and falls again and again until it is zero becomes zero and stays so. -/
theorem eventually_zero {lag : ℕ → ℕ} {n : ℕ} (down : ∀ m, n ≤ m → lag (m + 1) ≤ lag m)
    (falls : ∀ m, n ≤ m → ∃ k, m ≤ k ∧ lag (k + 1) ≤ lag k - 1) : ∃ m, n ≤ m ∧ ∀ k, m ≤ k → lag k = 0 := by
  have mono : ∀ m k, n ≤ m → m ≤ k → lag k ≤ lag m := by
    intro m k hn hk
    induction k, hk using Nat.le_induction with
    | base => exact Nat.le_refl _
    | succ k hk ih => exact (down k (by omega)).trans ih
  have reach : ∀ l m, n ≤ m → lag m ≤ l → ∃ k, n ≤ k ∧ lag k = 0 := by
    intro l
    induction l with
    | zero => intro m hn hl; exact ⟨m, hn, by omega⟩
    | succ l ih =>
      intro m hn hl
      obtain ⟨k, hk, hf⟩ := falls m hn
      have := mono m k hn hk
      exact ih (k + 1) (by omega) (by omega)
  obtain ⟨m, hn, h0⟩ := reach (lag n) n (Nat.le_refl n) (Nat.le_refl _)
  exact ⟨m, hn, fun k hk => by have := mono m k hn hk; omega⟩

/-- A run whose schedule moves each view again and again, with cursors in range all along, is fair (R68, R69). -/
theorem fair_of_fairTurns {run : ℕ → State} {turns : ℕ → Turn} (h : IsRun run turns) (fair : FairTurns turns)
    (range : ∀ n q, ((run n).ring q).sized = true → RingRange (run n).lcMax ((run n).ring q)) : Fair run := by
  intro q
  constructor
  · intro n quiet
    have ok := fun m hm => range m q (quiet m hm).1
    obtain ⟨m, hm, h0⟩ := eventually_zero (lag := fun m => ((run m).ring q).lagW) (n := n)
      (fun m hm => (h m).ring q |>.lagW_le (quiet m hm).1 (ok m hm)
        (by rw [(quiet (m + 1) (by omega)).2, (quiet m hm).2]))
      (fun m hm => by
        obtain ⟨k, j, hk, ht⟩ := (fair q m).1
        refine ⟨k, hk, ?_⟩
        have hs := h k
        rw [ht] at hs
        simp only [hs.syncW, SampleRing.lagW_syncW (quiet k (by omega)).1 (ok k (by omega))]
        omega)
    exact ⟨m, hm, fun k hk => SampleRing.wv_of_lagW (ok k (by omega)) (h0 k hk)⟩
  · intro n quiet
    have ok := fun m hm => range m q (quiet m hm).1
    obtain ⟨m, hm, h0⟩ := eventually_zero (lag := fun m => ((run m).ring q).lagR) (n := n)
      (fun m hm => (h m).ring q |>.lagR_le (quiet m hm).1 (ok m hm)
        (by rw [(quiet (m + 1) (by omega)).2, (quiet m hm).2]))
      (fun m hm => by
        obtain ⟨k, j, hk, ht⟩ := (fair q m).2
        refine ⟨k, hk, ?_⟩
        have hs := h k
        rw [ht] at hs
        simp only [hs.syncR, SampleRing.lagR_syncR (quiet k (by omega)).1 (ok k (by omega))]
        omega)
    exact ⟨m, hm, fun k hk => SampleRing.rv_of_lagR (ok k (by omega)) (h0 k hk)⟩

end Sys2Proof.Machine
end

