-- ==== Sys2Proof/Laws/Frames.lean ====
section
/-!
SUPPORT. What a frame is made of: the window table read back, FFTBUF read back, and the lengths of spectra and frames.
-/

namespace Sys2Proof.Machine

open Sys2Proof

/-- The window table holds the coefficients of its size and nothing beyond. -/
theorem windowTable_read (type : WindowType) (size i : Nat) :
    (windowTable type size).read i = if i < size then some (Numerics.window type size i) else none := by
  rw [windowTable, Memory.read_ofListFrom, if_neg (Nat.not_lt_zero i), Nat.sub_zero]
  split_ifs with h
  · simp [h]
  · rw [List.getElem?_eq_none]; simpa using h

@[simp] theorem windowed_length (s : State) (c : Channel) : (s.windowed c).length = s.cfg.fftSize := by
  simp [State.windowed]

/-- The transform's input read back from FFTBUF is the windowed samples. -/
theorem fftInput_loadFftbuf (s : State) (c : Channel) : (loadFftbuf c s).fftInput c = s.windowed c := by
  apply List.ext_getElem?
  intro i
  by_cases h : i < s.cfg.fftSize
  · have hr : ((loadFftbuf c s).fftbuf c).read i = some (Numerics.mul (s.accWord c i) (s.winWord i)) := by
      rw [loadFftbuf, State.fftbuf_setFftbuf_same, Memory.read_ofListFrom, if_neg (Nat.not_lt_zero i), Nat.sub_zero,
        List.getElem?_append_left (by simpa using h)]
      simp [State.windowed, h]
    have hs : (loadFftbuf c s).cfg = s.cfg := by simp [loadFftbuf]
    simp only [State.fftInput, State.fftbufWord, wordOf, hs, List.getElem?_map, List.getElem?_range h, Option.map_some, hr,
      State.windowed, Option.getD_some]
  · rw [List.getElem?_eq_none (by simpa [State.fftInput, loadFftbuf] using h), List.getElem?_eq_none (by simpa using h)]

/-- The magnitudes of a channel, over the windowed samples. -/
theorem magnitudes_eq (s : State) (c : Channel) :
    s.magnitudes c = (List.range s.cfg.numBins).map fun k =>
      Numerics.mag (Numerics.rfft s.cfg.fftSize (s.windowed c) k).1 (Numerics.rfft s.cfg.fftSize (s.windowed c) k).2
        s.cfg.fftSize := by
  rw [State.magnitudes, State.spectrum, fftInput_loadFftbuf]
  simp [loadFftbuf]

@[simp] theorem magnitudes_length (s : State) (c : Channel) : (s.magnitudes c).length = s.cfg.numBins := by
  simp [magnitudes_eq]

@[simp] theorem monoFrame_mag_length (s : State) : s.monoFrame.mag.length = s.cfg.numBins := by
  unfold State.monoFrame; split <;> simp

@[simp] theorem stereoFrame_mag_length (s : State) : s.stereoFrame.mag.length = s.cfg.numBins := by
  unfold State.stereoFrame; split <;> simp

@[simp] theorem stereoFrame_pan_length (s : State) : s.stereoFrame.pan.length = s.cfg.numBins := by
  unfold State.stereoFrame; split <;> simp

/-- A slot of the FrameRing that was written answers its own words. -/
theorem magWords_getElem (s : State) (j m k : Nat) (frame : Slot) (hr : s.fr.slots.read j = some frame) (hk : k < m)
    (hm : k < frame.mag.length) : (s.magWords j m)[k]? = frame.mag[k]? := by
  simp [State.magWords, State.magWord, hr, hk, hm]

theorem panWords_getElem (s : State) (j m k : Nat) (frame : Slot) (hr : s.fr.slots.read j = some frame) (hk : k < m)
    (hm : k < frame.pan.length) : (s.panWords j m)[k]? = frame.pan[k]? := by
  simp [State.panWords, State.panWord, hr, hk, hm]

@[simp] theorem magWords_length (s : State) (j m : Nat) : (s.magWords j m).length = m := by simp [State.magWords]

@[simp] theorem panWords_length (s : State) (j m : Nat) : (s.panWords j m).length = m := by simp [State.panWords]

end Sys2Proof.Machine
end

