-- ==== Sys2Proof/Laws/PerInstr.lean ====
section
/-!
SUPPORT. One statement about every command as syntax: its command word selects its own row of R94, and that row asks for as
many further words as the command has (R95).
-/

namespace Sys2Proof.Laws.HeadRoundTrip

open Sys2Proof

/-- The command word of a well-formed command selects the command's row and asks for its payload's length. -/
def Statement (i : Instr) : Prop :=
  i.wellFormed = true →
    opOf (encodeHead i) = some i.op ∧ i.op.need (encodeHead i) = (encodePayload i).length

theorem accepts_counted (t : BitVec 8) (x : BitVec 24) (op : Op) (hm : op.row.mask = 0xFF#8 ++ 0#24)
    (hp : op.row.pattern = t ++ 0#24) : op.accepts (t ++ x) = true := by
  have m : t &&& 0xFF#8 = t := by rw [show 0xFF#8 = BitVec.allOnes 8 from rfl, BitVec.and_allOnes]
  rw [Op.accepts, hm, hp, and_append, m, BitVec.and_zero, beq_self_eq_true]

theorem fieldN24_counted (t : BitVec 8) (x : BitVec 24) : fieldN24 (t ++ x : BitVec 32) = x :=
  BitVec.extractLsb'_append_eq_right

theorem fieldN23_counted (t : BitVec 8) (c : BitVec 1) (x : BitVec 23) :
    fieldN23 (t ++ (c ++ x : BitVec 24) : BitVec 32) = x := by
  ext i hi
  simp only [fieldN23, BitVec.getElem_extractLsb', BitVec.getLsbD_append]
  rw [if_pos (by omega), if_pos (by omega)]
  simp [BitVec.getLsbD_eq_getElem hi]

theorem srSetSize (ch : RingId) (lc : BitVec 5) : Statement (.srSetSize ch lc) := fun _ =>
  ⟨(opOf_eq_some_iff _ _).mpr (by cases ch <;> revert lc <;> decide), rfl⟩

theorem srPush (ch : RingId) (data : List F32) : Statement (.srPush ch data) := by
  intro h
  have hl : data.length < 2 ^ 23 := by simpa [Instr.wellFormed] using h
  refine ⟨(opOf_eq_some_iff _ _).mpr (accepts_counted 0x02#8 _ .srPush rfl rfl), ?_⟩
  show (fieldN23 (0x02#8 ++ (ch.bit ++ BitVec.ofNat 23 data.length : BitVec 24) : BitVec 32)).toNat = data.length
  rw [fieldN23_counted, BitVec.toNat_ofNat, Nat.mod_eq_of_lt hl]

theorem srPop (ch : RingId) (n : BitVec 23) : Statement (.srPop ch n) := fun _ =>
  ⟨(opOf_eq_some_iff _ _).mpr (accepts_counted 0x03#8 _ .srPop rfl rfl), rfl⟩

theorem srGetFree (ch : RingId) : Statement (.srGetFree ch) := fun _ =>
  ⟨(opOf_eq_some_iff _ _).mpr (by cases ch <;> decide), rfl⟩

theorem srGetReady (ch : RingId) : Statement (.srGetReady ch) := fun _ =>
  ⟨(opOf_eq_some_iff _ _).mpr (by cases ch <;> decide), rfl⟩

theorem accepts_prepare : ∀ order : BitVec 8, Op.prepare.accepts (encodeHead (.prepare order 0)) = true := by decide

theorem prepare (order : BitVec 8) (rate : F32) : Statement (.prepare order rate) := fun _ =>
  ⟨(opOf_eq_some_iff _ _).mpr (accepts_prepare order), rfl⟩

theorem setWindow (type : WindowType) : Statement (.setWindow type) := fun _ =>
  ⟨(opOf_eq_some_iff _ _).mpr (by cases type <;> decide), rfl⟩

theorem setOverlap (frac : F32) : Statement (.setOverlap frac) := fun _ =>
  ⟨(opOf_eq_some_iff 0x12000000 .setOverlap).mpr (by decide), rfl⟩

theorem getFftSize : Statement .getFftSize := fun _ => ⟨(opOf_eq_some_iff _ _).mpr (by decide), rfl⟩

theorem getNumBins : Statement .getNumBins := fun _ => ⟨(opOf_eq_some_iff _ _).mpr (by decide), rfl⟩

theorem getSampleRate : Statement .getSampleRate := fun _ => ⟨(opOf_eq_some_iff _ _).mpr (by decide), rfl⟩

theorem pushSamples (data : List F32) : Statement (.pushSamples data) := by
  intro h
  have hl : data.length < 2 ^ 24 := by simpa [Instr.wellFormed] using h
  refine ⟨(opOf_eq_some_iff _ _).mpr (accepts_counted 0x20#8 _ .pushSamples rfl rfl), ?_⟩
  show (fieldN24 (0x20#8 ++ BitVec.ofNat 24 data.length : BitVec 32)).toNat = data.length
  rw [fieldN24_counted, BitVec.toNat_ofNat, Nat.mod_eq_of_lt hl]

theorem pushSamples2 (left right : List F32) : Statement (.pushSamples2 left right) := by
  intro h
  have hl : left.length < 2 ^ 24 ∧ left.length = right.length := by simpa [Instr.wellFormed] using h
  refine ⟨(opOf_eq_some_iff _ _).mpr (accepts_counted 0x21#8 _ .pushSamples2 rfl rfl), ?_⟩
  show 2 * (fieldN24 (0x21#8 ++ BitVec.ofNat 24 left.length : BitVec 32)).toNat = (left ++ right).length
  rw [fieldN24_counted, BitVec.toNat_ofNat, Nat.mod_eq_of_lt hl.1, List.length_append, ← hl.2]
  omega

theorem pullFrame (n : BitVec 24) : Statement (.pullFrame n) := fun _ =>
  ⟨(opOf_eq_some_iff _ _).mpr (accepts_counted 0x28#8 _ .pullFrame rfl rfl), rfl⟩

theorem pullFrame2 : Statement .pullFrame2 := fun _ => ⟨(opOf_eq_some_iff _ _).mpr (by decide), rfl⟩

end Sys2Proof.Laws.HeadRoundTrip
end

