-- ==== Sys2Proof/Tests/Slice0.lean ====
section
/-!
SUPPORT. Tests on fixed values. The expected results are those of 95_test_vectors.md (V and P entries) or of the examples in
the rules, worked out there by hand. The last part shows, for each obligation with hypotheses, values that meet them.
-/

namespace Sys2Proof.Tests

open Sys2Proof Sys2Proof.Machine

/-! ## Helpers -/

/-- The answer is a next state of which `p` holds. -/
def nextHas (o : Host.Outcome State Fault Refusal) (p : State → Bool) : Bool :=
  match o with
  | .next s => p s
  | .fault _ => false
  | .refused _ => false

/-- The answer is the given stop. -/
def stopsWith (o : Host.Outcome State Fault Refusal) (stop : Stop) : Bool :=
  match o with
  | .next _ => false
  | .fault f => decide (stop = .fault f)
  | .refused r => decide (stop = .refuse r)

def mono : State := State.resetWith .mono 16 .hann 0x3F000000
def stereo : State := State.resetWith .stereo 16 .hann 0x3F000000

def issuedOn (q : Port) (s : State) : State := { s with active := q }

/-- A ring of capacity 8. -/
def ring8 (wp rp rv wv : Nat) (mem : List F32) : SampleRing :=
  { sized := true, lc := 3, wp := wp, rp := rp, rv := rv, wv := wv, mem := Memory.ofListFrom 0 mem }

def withRing (x : SampleRing) (s : State) : State := { s with ring0 := x }

/-- The configuration in Ready with a given size, hop and offset. -/
def readyCfg (size hop pos : Nat) (s : State) : State :=
  { s with
    cfg := { s.cfg with state := .ready, fftSize := size, numBins := size / 2 + 1, hopSize := hop, sampleRate := 0x472C4400 }
    writePos := pos
    fr := { s.fr with bins := size / 2 + 1 } }

/-- A Mono block in Ready, and a Stereo one. -/
def ready : State := readyCfg 1024 512 0 mono
def readyStereo : State := readyCfg 1024 512 0 stereo

/-- The FrameRing with given cursors, the true lead being the lead. -/
def withFrames (w r : BitVec 32) (slots : Memory Slot) (s : State) : State :=
  { s with fr := { s.fr with w := w, r := r, slots := slots, trueLead := (w - r).toNat } }

def withBusy (q : Port) (w : Word) (s : State) : State := s.setPort q { s.port q with busy := some w }

/-- Words offered on a port and the turns to come. -/
def offered (q : Port) (words : List Word) (turns : List Turn) (s : State) : State :=
  { s.setPort q { s.port q with input := words } with agenda := turns }

/-! ## Decoding: one word per command, written from 30_encoding.md R92 and R94 (V60) -/

theorem test_decode_srSetSize : decode .g [0x0180000E] = .command (.srSetSize .ring1 14) [] := by decide
theorem test_decode_srPush :
    decode .p [0x02000005, 0x3F800000, 0x40000000, 0x40400000, 0x40800000, 0x40A00000, 9] =
      .command (.srPush .ring0 [0x3F800000, 0x40000000, 0x40400000, 0x40800000, 0x40A00000]) [9] := by decide
theorem test_decode_srPop : decode .d [0x03000010] = .command (.srPop .ring0 16) [] := by decide
theorem test_decode_srGetFree : decode .p [0x04000000] = .command (.srGetFree .ring0) [] := by decide
theorem test_decode_srGetReady : decode .d [0x05800000] = .command (.srGetReady .ring1) [] := by decide
theorem test_decode_prepare : decode .g [0x1000000A, 0x473B8000] = .command (.prepare 10 0x473B8000) [] := by decide
theorem test_decode_setWindow : decode .g [0x11000001] = .command (.setWindow .blackmanHarris) [] := by decide
theorem test_decode_setOverlap : decode .g [0x12000000, 0x3F400000] = .command (.setOverlap 0x3F400000) [] := by decide
theorem test_decode_getFftSize : decode .r [0x13000000] = .command .getFftSize [] := by decide
theorem test_decode_getNumBins : decode .p [0x14000000] = .command .getNumBins [] := by decide
theorem test_decode_getSampleRate : decode .g [0x15000000] = .command .getSampleRate [] := by decide
theorem test_decode_pushSamples : decode .d [0x20000002, 5, 6] = .command (.pushSamples [5, 6]) [] := by decide
theorem test_decode_pushSamples2 :
    decode .d [0x21000002, 1, 2, 3, 4, 5] = .command (.pushSamples2 [1, 2] [3, 4]) [5] := by decide
theorem test_decode_pullFrame : decode .r [0x28000201] = .command (.pullFrame 513) [] := by decide
theorem test_decode_pullFrame2 : decode .r [0x29000000] = .command .pullFrame2 [] := by decide

/-- V61: the reserved words and, after each, its nearest accepted neighbour. -/
theorem test_decode_reserved :
    ([0x00000000, 0x01000023, 0x11000002, 0x30000000] : List Word).all (fun w => decide (decode .g [w, 7] = .reserved none [7])) =
        true
      ∧ decode .p [0x04000001] = .reserved none [] ∧ decode .r [0x13000001] = .reserved none []
      ∧ decode .r [0x29000001] = .reserved none [] := by decide

/-- R95: a word that matches no row of its port is taken alone, however many words it would ask for on its own port. -/
theorem test_decode_wrong_port :
    decode .g [0x02000002, 1, 2] = .reserved (some .srPush) [1, 2] ∧ decode .p [0x20FFFFFF, 1] = .reserved (some .pushSamples) [1]
      ∧ decode .d [0x04800000] = .command (.srGetFree .ring1) [] := by decide

/-- R95: a command whose words are not all there yet. -/
theorem test_decode_incomplete :
    decode .p [0x02000002, 1] = .incomplete ∧ decode .g [0x1000000A] = .incomplete ∧ decode .p [] = .nothing := by decide

/-- The table's numbering: PREPARE's operand word is bits 63 to 32. -/
theorem test_decodeTableWord :
    decodeTableWord 64 0x472C44001000000C = some (.prepare 12 0x472C4400)
      ∧ decodeTableWord 32 0x02000002 = some (.srPush .ring0 [0, 0]) ∧ decodeTableWord 32 0x30000000 = none := by decide

/-- V60, encoded. -/
theorem test_encode_words :
    encode (.srSetSize .ring0 3) = [0x01000003] ∧ encode (.srGetReady .ring1) = [0x05800000]
      ∧ encode (.setOverlap 0x3F400000) = [0x12000000, 0x3F400000]
      ∧ encode (.pushSamples2 [1] [2]) = [0x21000001, 1, 2] ∧ encode (.pullFrame 513) = [0x28000201] := by decide

/-- R61: byte 0 carries bits 7 to 0. -/
theorem test_little_endian : bytesOfWord 0x3F800001 = [0x01, 0x00, 0x80, 0x3F] := by decide

/-! ## Ill-formed commands, one for each check of WellFormed -/

theorem test_illformed_srPush : (Instr.srPush .ring0 (List.replicate (2 ^ 23) 0)).wellFormed = false := by
  rw [Instr.wellFormed, List.length_replicate]; decide
theorem test_illformed_pushSamples : (Instr.pushSamples (List.replicate (2 ^ 24) 0)).wellFormed = false := by
  rw [Instr.wellFormed, List.length_replicate]; decide
theorem test_illformed_pushSamples2 :
    (Instr.pushSamples2 (List.replicate (2 ^ 24) 0) (List.replicate (2 ^ 24) 0)).wellFormed = false := by
  rw [Instr.wellFormed, List.length_replicate]; decide
theorem test_illformed_unequal : (Instr.pushSamples2 [0] []).wellFormed = false := by decide

/-! ## Arithmetic the spec tabulates -/

/-- V1. -/
theorem test_gray :
    (List.range 16).map (fun b => gray (BitVec.ofNat 4 b)) =
        [0b0000, 0b0001, 0b0011, 0b0010, 0b0110, 0b0111, 0b0101, 0b0100,
         0b1100, 0b1101, 0b1111, 0b1110, 0b1010, 0b1011, 0b1001, 0b1000]
      ∧ ungray (0b1110 : BitVec 4) = 11 := by decide

/-- V15: the table's first and last row, and the two inexact overlaps. -/
theorem test_hop :
    Numerics.hop 1024 0x00000000 = 1024 ∧ Numerics.hop 1024 0x3F000000 = 512 ∧ Numerics.hop 1024 0x3F400000 = 256
      ∧ Numerics.hop 8192 0x3F600000 = 1024 ∧ Numerics.hop 1024 0x3E99999A = 716
      ∧ Numerics.hop 1024 0x2EDBE6FF = 1024 := by decide

/-- V16: the clamp. -/
theorem test_clamp :
    clampOverlap 0x3FC00000 = 0x3F600000 ∧ clampOverlap 0xBE800000 = 0x00000000 ∧ clampOverlap 0x7F800000 = 0x3F600000
      ∧ clampOverlap 0xFF800000 = 0x00000000 ∧ clampOverlap 0x80000000 = 0x80000000 ∧ isNaN 0x7FC00000 = true := by
  decide

/-- V20: frames per command and final offset. -/
theorem test_frame_count :
    framesProduced 0 1024 1024 1024 = 1 ∧ finalOffset 0 1024 1024 1024 = 0
      ∧ framesProduced 0 1536 1024 512 = 2 ∧ finalOffset 0 1536 1024 512 = 512
      ∧ framesProduced 512 511 1024 512 = 0 ∧ finalOffset 512 511 1024 512 = 1023
      ∧ framesProduced 0 3000 1024 128 = 16 ∧ finalOffset 0 3000 1024 128 = 952
      ∧ framesProduced 100 5000 2048 256 = 12 ∧ finalOffset 100 5000 2048 256 = 2028
      ∧ framesProduced 0 66560 1024 128 = 513 ∧ finalOffset 0 66560 1024 128 = 896 := by decide

/-! ## SampleRing -/

/-- V11. -/
theorem test_srSetSize_empties :
    nextHas (exec (.srSetSize .ring0 3) (issuedOn .g (withRing (ring8 9 5 5 9 [1, 2]) mono))) (fun t =>
      decide (t.ring0 = ring8 0 0 0 0 []) && t.ring0.producerFree == 8 && t.ring0.producerReady == 0) = true := by decide
theorem test_srSetSize_bad :
    stopsWith (exec (.srSetSize .ring0 0) (issuedOn .g mono)) (.refuse .badRingSize) = true
      ∧ stopsWith (exec (.srSetSize .ring0 17) (issuedOn .g mono)) (.refuse .badRingSize) = true := by decide

/-- V3: the write wraps from slot 7 to slot 0, and two samples are dropped. -/
theorem test_srPush_wraps_and_drops :
    nextHas (exec (.srPush .ring0 [101, 102, 103, 104, 105]) (issuedOn .p (withRing (ring8 6 1 1 6 []) mono))) (fun t =>
      t.ring0.wp == 9 && decide (t.ring0.mem = [(0, 103), (6, 101), (7, 102)])) = true := by decide
/-- V7: three samples are kept although seven slots are free. -/
theorem test_srPush_stale_view :
    nextHas (exec (.srPush .ring0 [1, 2, 3, 4, 5, 6]) (issuedOn .p (withRing (ring8 5 4 0 5 []) mono))) (fun t =>
      t.ring0.wp == 8) = true := by decide

/-- V8. -/
theorem test_srPop_wraps :
    nextHas (exec (.srPop .ring0 10) (issuedOn .d (withRing (ring8 9 5 5 9 [10, 0, 0, 0, 0, 15, 16, 17]) mono))) (fun t =>
      t.ring0.rp == 9 && decide (t.portD.output = [4, 15, 16, 17, 10])) = true := by decide
/-- V9: nothing is seen before SYNC_W. -/
theorem test_srPop_stale_view :
    nextHas (exec (.srPop .ring0 4) (issuedOn .d (withRing (ring8 5 0 0 0 [1, 2, 3, 4, 5]) mono))) (fun t =>
      t.ring0.rp == 0 && decide (t.portD.output = [0])) = true
      ∧ ((ring8 5 0 0 0 [1, 2, 3, 4, 5]).syncW 5).delivered 4 = 4 := by decide

/-- V10, with `rv = 4`: the two sides answer differently. -/
theorem test_srGetFree :
    nextHas (exec (.srGetFree .ring0) (issuedOn .p (withRing (ring8 9 5 4 9 []) mono)))
        (fun t => decide (t.portP.output = [3])) = true
      ∧ nextHas (exec (.srGetFree .ring0) (issuedOn .d (withRing (ring8 9 5 4 9 []) mono)))
        (fun t => decide (t.portD.output = [4])) = true := by decide
theorem test_srGetReady :
    nextHas (exec (.srGetReady .ring0) (issuedOn .p (withRing (ring8 9 5 4 9 []) mono)))
        (fun t => decide (t.portP.output = [5])) = true
      ∧ nextHas (exec (.srGetReady .ring0) (issuedOn .d (withRing (ring8 9 5 4 9 []) mono)))
        (fun t => decide (t.portD.output = [4])) = true := by decide

/-- V11, V61: a ring never sized, a wrong port, no ring 1 in a Mono block. -/
theorem test_ring_refusals :
    stopsWith (exec (.srPush .ring0 [1]) (issuedOn .p mono)) (.refuse .ringNotSized) = true
      ∧ stopsWith (exec (.srPush .ring0 [1]) (issuedOn .d mono)) (.refuse .wrongPort) = true
      ∧ stopsWith (exec (.srPush .ring1 [1]) (issuedOn .p mono)) (.refuse .noSuchRing) = true := by decide

/-- P1: SYNC_W takes the view to the cursor, past the end of a lap. -/
theorem test_sync :
    ((ring8 11 4 4 5 []).syncW 6).wv = 11 ∧ ((ring8 11 11 4 11 []).syncR 7).rv = 11
      ∧ ((ring8 1 13 13 14 []).syncW 3).wv = 1 := by decide

/-! ## Configuration -/

/-- V17. -/
theorem test_prepare :
    nextHas (exec (.prepare 12 0x472C4400) (issuedOn .g mono)) (fun t =>
      t.cfg.fftSize == 4096 && t.cfg.numBins == 2049 && t.fr.bins == 2049 && t.cfg.hopSize == 2048 && t.writePos == 0
        && decide (t.cfg.state = .ready) && t.cfg.sampleRate == 0x472C4400) = true := by decide
theorem test_prepare_bad :
    stopsWith (exec (.prepare 9 0) (issuedOn .g mono)) (.refuse .badFftOrder) = true
      ∧ stopsWith (exec (.prepare 14 0) (issuedOn .g mono)) (.refuse .badFftOrder) = true := by decide

/-- V18: the offset and the frame cursors stay. -/
theorem test_setWindow :
    nextHas (exec (.setWindow .blackmanHarris) (issuedOn .g (withFrames 3 1 [] (readyCfg 1024 512 700 mono)))) (fun t =>
      t.writePos == 700 && t.fr.w == 3 && t.fr.r == 1 && decide (t.cfg.windowType = .blackmanHarris)) = true := by decide

/-- V23: the hop changes, the offset stays. -/
theorem test_setOverlap :
    nextHas (exec (.setOverlap 0x3F400000) (issuedOn .g (readyCfg 1024 512 900 mono))) (fun t =>
      t.cfg.hopSize == 256 && t.writePos == 900 && t.cfg.overlap == 0x3F400000) = true := by decide
/-- V16: a NaN. -/
theorem test_setOverlap_nan :
    stopsWith (exec (.setOverlap 0x7FC00000) (issuedOn .g mono)) (.refuse .nanOverlap) = true := by decide

/-- V17, V19. -/
theorem test_getFftSize :
    nextHas (exec .getFftSize (issuedOn .p (readyCfg 4096 2048 0 mono))) (fun t => decide (t.portP.output = [0x1000])) = true
      ∧ stopsWith (exec .getFftSize (issuedOn .p mono)) (.refuse .unconfigured) = true := by decide
theorem test_getNumBins :
    nextHas (exec .getNumBins (issuedOn .r (readyCfg 4096 2048 0 mono))) (fun t => decide (t.portR.output = [0x801])) = true := by
  decide
theorem test_getSampleRate :
    nextHas (exec .getSampleRate (issuedOn .g (readyCfg 4096 2048 0 mono)))
      (fun t => decide (t.portG.output = [0x472C4400])) = true := by decide

/-! ## Framing -/

/-- P2: 512 + 511 < 1024, so no frame; one more sample completes it. -/
theorem test_pushSamples_triggers :
    nextHas (exec (.pushSamples [0, 0]) (issuedOn .d (readyCfg 1024 512 1021 mono)))
        (fun t => t.writePos == 1023 && t.fr.w == 0) = true
      ∧ nextHas (exec (.pushSamples [0]) (issuedOn .d (readyCfg 1024 512 1023 mono)))
        (fun t => t.writePos == 512 && t.fr.w == 1) = true := by decide
/-- V21's shift on an accumulator of 8 with a hop of 2. -/
theorem test_pushSamples_shifts :
    Memory.shiftDown 8 2 (Memory.ofListFrom 0 [0, 1, 2, 3, 4, 5, 6, 7]) =
      Memory.ofListFrom 0 [2, 3, 4, 5, 6, 7, 6, 7] := by decide

/-- R211's example, its last pair: one StereoFrame, and the offset back at 0. -/
theorem test_pushSamples2_triggers :
    nextHas (exec (.pushSamples2 [0] [0]) (issuedOn .d (readyCfg 1024 1024 1023 stereo)))
        (fun t => t.writePos == 0 && t.fr.w == 1) = true := by decide
/-- R212: both channels at the one offset. -/
theorem test_pushSamples2_appends :
    nextHas (exec (.pushSamples2 [7, 8] [9, 10]) (issuedOn .d (readyCfg 1024 512 100 stereo)))
        (fun t => t.writePos == 102 && decide (t.acc0 = [(100, 7), (101, 8)]) && decide (t.acc1 = [(100, 9), (101, 10)]))
      = true := by decide

/-! ## FrameRing, with frames of 3 bins -/

/-- V51: the first `n` words of slot 1. -/
theorem test_pullFrame :
    nextHas (exec (.pullFrame 2) (issuedOn .r (withFrames 3 1 [(1, ⟨[11, 12, 13], []⟩)] (readyCfg 4 2 0 mono))))
        (fun t => t.fr.r == 2 && decide (t.portR.output = [1, 11, 12])) = true := by decide
/-- V54: frames that were overwritten are skipped, to slot 276. -/
theorem test_pullFrame_skips :
    nextHas (exec (.pullFrame 5000) (issuedOn .r (withFrames 1300 0 [(276, ⟨[7, 8, 9], []⟩)] (readyCfg 4 2 0 mono))))
        (fun t => t.fr.r == 789 && decide (t.portR.output = [1, 7, 8, 9])) = true := by decide

/-- V55 in a Stereo block: the cursors wrap, slot 511. -/
theorem test_pullFrame2 :
    nextHas (exec .pullFrame2
        (issuedOn .r (withFrames 2 0xFFFFFFFF [(511, ⟨[1, 2, 3], [4, 5, 6]⟩)] (readyCfg 4 2 0 stereo))))
        (fun t => t.fr.r == 0 && decide (t.portR.output = [1, 1, 2, 3, 4, 5, 6])) = true := by decide
/-- V50: an empty ring. -/
theorem test_pullFrame2_empty :
    nextHas (exec .pullFrame2 (issuedOn .r (readyCfg 4 2 0 stereo))) (fun t => t.fr.r == 0 && decide (t.portR.output = [0]))
      = true := by decide

/-! ## Steps -/

/-- A word placed after reset runs in the very next step. -/
theorem test_withFetchWord :
    nextHas (step (State.reset.withFetchWord 64 0x472C44001000000C)) (fun t => t.cfg.fftSize == 4096) = true
      ∧ stopsWith (step (State.reset.withFetchWord 32 0x13000000)) (.refuse .unconfigured) = true
      ∧ stopsWith (step (State.reset.withFetchWord 32 0)) (.refuse .reservedEncoding) = true := by decide

/-- R121, R297, R298: a ring resized while a push is in progress, and while a pull is (R77). -/
theorem test_race :
    stopsWith (step (offered .g [0x01000003] [.run .g] (withBusy .p 0x02000001 mono))) (.fault .reconfigRace) = true
      ∧ stopsWith (step (offered .g [0x01000003] [.run .g] (withBusy .r 0x28000001 ready))) (.fault .reconfigRace) = true := by
  decide
/-- R298: a data command that begins while a command of port `G` is marked: a push beside SETOVERLAP, a pull beside
SR_SETSIZE. An accessor of port `G` reconfigures nothing. -/
theorem test_race_begin :
    stopsWith (step (offered .p [0x02000001] [.start .p] (withBusy .g 0x12000000 (withRing (ring8 0 0 0 0 []) mono))))
        (.fault .reconfigRace) = true
      ∧ stopsWith (step (offered .r [0x28000001] [.start .r] (withBusy .g 0x01000003 ready))) (.fault .reconfigRace) = true
      ∧ nextHas (step (offered .r [0x28000001] [.start .r] (withBusy .g 0x13000000 ready)))
        (fun t => t.portR.busy == some 0x28000001) = true := by decide

/-- R71, R122: three slots were free when the push began, so three samples are kept, although two more are free at its end. -/
theorem test_push_measures_at_begin :
    (let ring := withRing (ring8 5 2 0 5 []) mono
     nextHas (step (offered .p [0x02000005, 1, 2, 3, 4, 5] [.start .p] ring)) (fun s =>
      nextHas (step { s with agenda := [.syncR .ring0 2] }) (fun s =>
        s.ring0.rv == 2 && nextHas (step { s with agenda := [.run .p] }) (fun t =>
          t.ring0.wp == 8 && decide (t.portP.measured = none)))) = true) := by decide
/-- R71, R125: two samples were ready when the pop began. -/
theorem test_pop_measures_at_begin :
    (let ring := withRing (ring8 5 0 0 2 [1, 2, 3, 4, 5]) mono
     nextHas (step (offered .d [0x03000004] [.start .d] ring)) (fun s =>
      nextHas (step { s with agenda := [.syncW .ring0 3] }) (fun s =>
        nextHas (step { s with agenda := [.run .d] }) (fun t =>
          t.ring0.rp == 2 && decide (t.portD.output = [2, 1, 2])))) = true) := by decide

/-- A schedule of the synchronisers, one after another. -/
def syncsInTurn (n : Nat) : Turn :=
  match n % 4 with
  | 0 => .syncW .ring0 1
  | 1 => .syncR .ring0 1
  | 2 => .syncW .ring1 1
  | _ => .syncR .ring1 1

/-- R68, R69: that schedule is fair. -/
theorem test_fairTurns : FairTurns syncsInTurn := by
  intro q n
  cases q
  · exact ⟨⟨4 * n, 0, by omega, by simp [syncsInTurn]⟩, 4 * n + 1, 0, by omega, by simp [syncsInTurn, Nat.add_mod]⟩
  · exact ⟨⟨4 * n + 2, 0, by omega, by simp [syncsInTurn, Nat.add_mod]⟩,
      4 * n + 3, 0, by omega, by simp [syncsInTurn, Nat.add_mod]⟩

/-- A move of such a schedule: the view of five samples takes its first step. -/
theorem test_moves : Moves (withRing (ring8 5 0 0 0 []) mono) (.syncW .ring0 1) (withRing (ring8 5 0 0 1 []) mono) :=
  ⟨[], [], [], [], by rfl⟩

/-! ## Values that meet the hypotheses of the obligations

`test_meets_<name>` is about `Obligations.<Name>`; where an obligation has several clauses, each has its values, at a
boundary of its range where it has one.
-/

theorem test_meets_decodeInvertsEncode :
    (Instr.pullFrame 0xFFFFFF).wellFormed = true ∧ .r ∈ (Instr.pullFrame 0xFFFFFF).op.row.ports
      ∧ (Instr.pushSamples2 [1] [2]).wellFormed = true ∧ .d ∈ (Instr.pushSamples2 [1] [2]).op.row.ports
      ∧ (Instr.srPush .ring1 []).wellFormed = true ∧ .p ∈ (Instr.srPush .ring1 []).op.row.ports := by decide

theorem test_meets_encodeInvertsDecode :
    decode .d [0x22000000 - 0x01000000, 7] = .command (.pushSamples2 [] []) [7]
      ∧ decode .d [0x20000001, 5, 7] = .command (.pushSamples [5]) [7] := by decide

/-- The first and last opcode of each reserved range, and such a word on a port whose turn is next. -/
theorem test_meets_reservedOpcodesRefused :
    ([0x00000000, 0x06000000, 0x0FFFFFFF, 0x16000000, 0x1FFFFFFF, 0x22000000, 0x27FFFFFF, 0x2A000000, 0xFFFFFFFF] : List Word).all
        (fun w =>
          let opc := (w.extractLsb' 24 8).toNat
          decide (opc = 0 ∨ (0x06 ≤ opc ∧ opc ≤ 0x0F) ∨ (0x16 ≤ opc ∧ opc ≤ 0x1F) ∨ (0x22 ≤ opc ∧ opc ≤ 0x27) ∨ 0x2A ≤ opc)) =
        true
      ∧ (let s := offered .r [0x2A000000, 1] [.run .r, .run .p] mono
         s.agenda = .run .r :: [.run .p] ∧ (s.port .r).busy = none ∧ (s.port .r).input = 0x2A000000 :: [1]) := by decide

theorem test_meets_serialisedWordsAreLittleEndian : bytesOfWord 0x04030201 = [1, 2, 3, 4] := by decide

theorem test_meets_stepRunsDecodedCommand :
    (let s := offered .g [0x1000000A, 0x473B8000, 9] [.run .g, .run .p] mono
     s.agenda = .run .g :: [.run .p] ∧ (s.port .g).busy = none
      ∧ decode .g (s.port .g).input = .command (.prepare 10 0x473B8000) [9])
      ∧ (let s := offered .g [0x473B8000] [.run .g] (withBusy .g 0x1000000A mono)
         s.agenda = .run .g :: [] ∧ (s.port .g).busy = some 0x1000000A
          ∧ decode .g (0x1000000A :: (s.port .g).input) = .command (.prepare 10 0x473B8000) [])
      ∧ mono.agenda = [] := by decide

theorem test_meets_commandBeginsAndEnds :
    (let s := offered .g [0x1000000A, 0x473B8000] [.start .g, .run .g] mono
     s.agenda = .start .g :: .run .g :: [] ∧ decode .g (s.port .g).input = .command (.prepare 10 0x473B8000) []
      ∧ nextHas (step s) (fun s1 => s1.portG.busy == some 0x1000000A) = true)
      ∧ (let s := offered .g [0x13000000] [.start .g] (withBusy .g 0x1000000A mono)
         s.agenda = .start .g :: [] ∧ (s.port .g).busy = some 0x1000000A) := by decide

theorem test_meets_splittingPushSamplesChangesNothing : ([1] : List F32).length = ([2] : List F32).length := by decide

/-- One sample of two, for each of the two commands. -/
theorem test_meets_partThenRunIsRun :
    (let s := offered .d [5, 6] [.part 1, .run .d] (withBusy .d 0x20000002 ready)
     s.agenda = .part 1 :: .run .d :: [] ∧ s.portD.busy = some 0x20000002 ∧ opOf 0x20000002 = some .pushSamples
      ∧ Op.pushSamples.need 0x20000002 ≤ s.portD.input.length
      ∧ nextHas (step s) (fun s1 => s1.writePos == 1 && s1.portD.busy == some 0x20000001) = true)
      ∧ (let s := offered .d [5, 6, 7, 8] [.part 1, .run .d] (withBusy .d 0x21000002 readyStereo)
         s.agenda = .part 1 :: .run .d :: [] ∧ s.portD.busy = some 0x21000002 ∧ opOf 0x21000002 = some .pushSamples2
          ∧ Op.pushSamples2.need 0x21000002 ≤ s.portD.input.length
          ∧ nextHas (step s) (fun s1 => s1.writePos == 1 && decide (s1.portD.input = [6, 8])) = true) := by decide

/-- The smallest and the largest legal size. -/
theorem test_meets_setSizeEmptiesRing :
    (let s := withBusy .g 0x13000000 (issuedOn .g mono)
     s.active = .g ∧ s.hasRing .ring0 = true ∧ 1 ≤ (1 : BitVec 5).toNat ∧ (1 : BitVec 5).toNat ≤ s.lcMax
      ∧ OthersIdle s)
      ∧ (let s := issuedOn .g stereo
         s.active = .g ∧ s.hasRing .ring1 = true ∧ 1 ≤ (16 : BitVec 5).toNat ∧ (16 : BitVec 5).toNat ≤ s.lcMax
          ∧ OthersIdle s) := by decide

theorem test_meets_pushStoresPrefix :
    let s := issuedOn .p (withRing (ring8 6 1 1 6 []) mono)
    s.active = .p ∧ s.hasRing .ring0 = true ∧ (s.ring .ring0).sized = true ∧ Settled s := by decide

theorem test_meets_popReturnsOldest :
    let s := issuedOn .d (withRing (ring8 9 5 5 9 [10, 0, 0, 0, 0, 15, 16, 17]) mono)
    s.active = .d ∧ s.hasRing .ring0 = true ∧ (s.ring .ring0).sized = true ∧ Settled s := by decide

/-- On port P and on port D. -/
theorem test_meets_queriesAnswerIssuersView :
    let s := withRing (ring8 9 5 4 9 []) mono
    s.hasRing .ring0 = true ∧ (s.ring .ring0).sized = true ∧ Settled s
      ∧ (issuedOn .p s).active = .p ∧ (issuedOn .d s).active = .d := by decide

/-- A full ring with a stale view on either side, and an empty one. -/
theorem test_meets_countsBracketTheTruth :
    (let x := ring8 9 5 1 7 [8, 1, 2, 3, 4, 5, 6, 7]
     x.sized = true ∧ RingInv 16 x) ∧ (ring8 15 15 15 15 []).sized = true ∧ RingInv 16 (ring8 15 15 15 15 []) := by decide

/-- Size 0 and the first size above LC_MAX; a ring never sized. -/
theorem test_meets_ringNeedsLegalSize :
    mono.hasRing .ring0 = true ∧ (issuedOn .g mono).active = .g ∧ (0 : BitVec 5).toNat = 0
      ∧ mono.lcMax < (17 : BitVec 5).toNat ∧ (mono.ring .ring0).sized = false ∧ (issuedOn .p mono).active = .p
      ∧ (issuedOn .d mono).active = .d := by decide

theorem test_meets_sampleRingIsFifo :
    let s := withRing (ring8 9 5 1 7 [8, 1, 2, 3, 4, 5, 6, 7]) mono
    (s.ring .ring0).sized = true ∧ RingInv s.lcMax (s.ring .ring0)
      ∧ nextHas (exec (.srPush .ring0 [1]) (issuedOn .p s)) (fun _ => true) = true
      ∧ nextHas (exec (.srPop .ring0 3) (issuedOn .d s)) (fun _ => true) = true := by decide

theorem test_meets_grayCodeExchange : 0 < 1 ∧ 0 < 4 ∧ 0 + 1 < 4 ∧ 2 + 1 < 4 := by decide

/-- Views that lag, across the wrap; the view itself and the cursor as values to reach. -/
theorem test_meets_viewsMoveForwardToCursor :
    (let s := offered .p [] [.syncW .ring0 3] (withRing (ring8 1 13 11 14 []) mono)
     (s.ring .ring0).sized = true ∧ RingRange s.lcMax (s.ring .ring0) ∧ s.agenda = .syncW .ring0 3 :: []
      ∧ 14 < 2 * (s.ring .ring0).capacity ∧ cursorDiff 8 14 14 ≤ cursorDiff 8 1 14 ∧ cursorDiff 8 1 14 ≤ cursorDiff 8 1 14)
      ∧ (let s := offered .p [] [.syncR .ring0 0] (withRing (ring8 1 13 11 14 []) mono)
         (s.ring .ring0).sized = true ∧ RingRange s.lcMax (s.ring .ring0) ∧ s.agenda = .syncR .ring0 0 :: []
          ∧ cursorDiff 8 11 11 ≤ cursorDiff 8 13 11 ∧ cursorDiff 8 13 11 ≤ cursorDiff 8 13 11) := by decide

theorem test_meets_stepKeepsRingInvariants :
    let s := offered .d [0x03000003] [.run .d] (withRing (ring8 9 5 1 7 [8, 1, 2, 3, 4, 5, 6, 7]) mono)
    RingsInv s ∧ nextHas (step s) (fun t => t.ring0.rp == 7) = true := by decide

/-- The ends of the legal range and the negative zero. -/
theorem test_meets_resetMeetsInvariants :
    OverlapLegal 0x00000000 ∧ OverlapLegal 0x3F600000 ∧ OverlapLegal 0x80000000 := by decide

theorem test_meets_prepareConfigures :
    let s := issuedOn .g mono
    s.active = .g ∧ 10 ≤ (10 : BitVec 8).toNat ∧ (13 : BitVec 8).toNat ≤ 13 ∧ OthersIdle s := by decide

theorem test_meets_illegalConfigurationRefused :
    (issuedOn .g mono).active = .g
      ∧ ([0, 9, 14, 255] : List (BitVec 8)).all (fun o => decide
          (¬ (o.toNat = 10 ∨ o.toNat = 11 ∨ o.toNat = 12 ∨ o.toNat = 13))) = true
      ∧ isNaN 0x7F800001 = true ∧ isNaN 0xFFFFFFFF = true := by decide

theorem test_meets_setWindowRebuildsTable :
    (let s := issuedOn .g ready
     s.active = .g ∧ OthersIdle s ∧ s.cfg.state = .ready)
      ∧ (let s := issuedOn .g mono
         s.active = .g ∧ OthersIdle s ∧ s.cfg.state = .unconfigured) := by decide

theorem realOf_eq (x : F32) (k : Int) (h : scaled x = k) : realOf x = k / 2 ^ 149 := by rw [realOf, h]

/-- The smallest negative value; the first value above 0.875; both zeros and 0.875 itself. -/
theorem test_meets_setOverlapClamps :
    ((issuedOn .g ready).active = .g ∧ OthersIdle (issuedOn .g ready) ∧ ready.cfg.state = .ready
        ∧ mono.cfg.state = .unconfigured ∧ isNaN 0x80000001 = false ∧ isNaN 0x3F600001 = false
        ∧ isNaN 0x80000000 = false ∧ isNaN 0x3F600000 = false)
      ∧ realOf 0x80000001 < 0 ∧ 0.875 < realOf 0x3F600001
      ∧ 0 ≤ realOf 0x80000000 ∧ realOf 0x80000000 ≤ 0.875 ∧ 0 ≤ realOf 0x3F600000 ∧ realOf 0x3F600000 ≤ 0.875 := by
  refine ⟨by decide, ?_, ?_, ?_, ?_, ?_, ?_⟩
  · rw [realOf_eq 0x80000001 (-1) (by decide)]; norm_num
  · rw [realOf_eq 0x3F600001 (14680065 * 2 ^ 125) (by decide)]; norm_num
  · rw [realOf_eq 0x80000000 0 (by decide)]; norm_num
  · rw [realOf_eq 0x80000000 0 (by decide)]; norm_num
  · rw [realOf_eq 0x3F600000 (7 * 2 ^ 146) (by decide)]; norm_num
  · rw [realOf_eq 0x3F600000 (7 * 2 ^ 146) (by decide)]; norm_num

theorem test_meets_accessorsAnswerConfiguration :
    (let s := withBusy .g 0x13000000 (issuedOn .p ready)
     s.cfg.state = .ready ∧ (s.active ≠ .g → Settled s))
      ∧ (let s := withBusy .d 0x20000001 (withBusy .g 0x11000000 (issuedOn .g ready))
         s.cfg.state = .ready ∧ (s.active ≠ .g → Settled s)) := by decide

theorem test_meets_unconfiguredRefused :
    mono.cfg.state = .unconfigured ∧ mono.variant = .mono ∧ stereo.cfg.state = .unconfigured ∧ stereo.variant = .stereo
      ∧ (issuedOn .d mono).active = .d ∧ (issuedOn .r mono).active = .r
      ∧ (let s := withBusy .g 0x11000000 (issuedOn .p ready)
         s.cfg.state = .ready ∧ s.active ≠ .g ∧ ¬ Settled s) := by decide

theorem test_meets_hopWithinBounds :
    10 ≤ 10 ∧ 10 ≤ 13 ∧ OverlapLegal 0x00000001 ∧ OverlapLegal 0x3F600000 := by decide

/-- 0.75 and the smallest step of the grid. -/
theorem test_meets_hopMatchesReferenceOnGrid :
    OverlapLegal 0x3F400000 ∧ realOf 0x3F400000 = (12582912 : Nat) / 2 ^ 24
      ∧ OverlapLegal 0x33800000 ∧ realOf 0x33800000 = (1 : Nat) / 2 ^ 24 := by
  refine ⟨by decide, ?_, by decide, ?_⟩
  · rw [realOf_eq 0x3F400000 (3 * 2 ^ 147) (by decide)]; norm_num
  · rw [realOf_eq 0x33800000 (2 ^ 125) (by decide)]; norm_num

/-- A block as PREPARE leaves it, with a push next; and the block after reset, with PREPARE next. -/
theorem test_meets_stepKeepsAnalyserInvariant :
    (let s := offered .d [0x20000001, 5] [.run .d] (afterPrepare 10 0x473B8000 mono)
     AnalyserInv s ∧ nextHas (step s) (fun t => t.writePos == 1) = true)
      ∧ (let s := offered .g [0x1000000A, 0x473B8000] [.run .g] mono
         AnalyserInv s ∧ nextHas (step s) (fun t => decide (t.cfg.state = .ready)) = true) := by
  refine ⟨⟨⟨⟨by decide, fun _ => ⟨by decide, by decide, by decide, by decide, by decide, by decide,
      by simp [offered, afterPrepare, Cfg.prepared, State.setPort]⟩⟩,
    by decide, by decide, ⟨by decide, fun i h => absurd h (by simp [offered, afterPrepare, State.setPort])⟩⟩, by decide⟩,
    ⟨⟨by decide, fun h => absurd h (by decide)⟩, by decide, by decide,
      ⟨by decide, fun i h => absurd h (by simp [offered, mono, State.resetWith, FrameRing.reset, State.setPort])⟩⟩, by decide⟩

theorem test_meets_stepKeepsMemoriesCanonical :
    let s := offered .p [0x02000001, 5] [.run .p] (withRing (ring8 6 1 1 6 []) mono)
    MemoriesWf s ∧ nextHas (step s) (fun t => decide (t.ring0.mem = [(6, 5)])) = true := by decide

/-- A push and a pull in progress, with a start next; and a reconfiguration in progress, to be completed. -/
theorem test_meets_stepKeepsReconfigurationAlone :
    (let s := offered .d [0x03000001] [.start .d] (withBusy .p 0x02000001 (withRing (ring8 0 0 0 0 []) mono))
     BusyAccepted s ∧ ReconfigAlone s ∧ nextHas (step s) (fun t => t.portD.busy == some 0x03000001) = true)
      ∧ (let s := offered .g [0x473B8000] [.run .g] (withBusy .g 0x1000000A mono)
         BusyAccepted s ∧ ReconfigAlone s ∧ nextHas (step s) (fun t => t.portG.busy == none) = true) := by
  refine ⟨⟨?_, by decide, by decide⟩, ⟨?_, by decide, by decide⟩⟩
  · intro q w h
    cases q with
    | p => exact ⟨.srPush, by cases h; decide⟩
    | d => cases h
    | r => cases h
    | g => cases h
  · intro q w h
    cases q with
    | g => exact ⟨.prepare, by cases h; decide⟩
    | p => cases h
    | d => cases h
    | r => cases h

/-- The last offset below `fftSize`, and the smallest and the largest hop. -/
theorem test_meets_pushSamplesFramesAndOffset :
    (let s := issuedOn .d (readyCfg 1024 1 1023 mono)
     s.active = .d ∧ s.variant = .mono ∧ s.cfg.state = .ready ∧ Settled s
      ∧ 1 ≤ s.cfg.hopSize ∧ s.cfg.hopSize ≤ s.cfg.fftSize ∧ s.writePos < s.cfg.fftSize)
      ∧ (let s := issuedOn .d (readyCfg 1024 1024 0 mono)
         s.cfg.hopSize ≤ s.cfg.fftSize ∧ s.writePos < s.cfg.fftSize) := by decide

theorem test_meets_pushSamplesAppends :
    let s := issuedOn .d (readyCfg 1024 512 1021 mono)
    s.active = .d ∧ s.variant = .mono ∧ s.cfg.state = .ready ∧ Settled s
      ∧ s.writePos + ([1, 2] : List F32).length < s.cfg.fftSize := by decide

theorem test_meets_filledAccumulatorFramesAndShifts :
    let s := issuedOn .d (readyCfg 1024 512 1023 mono)
    s.active = .d ∧ s.variant = .mono ∧ s.cfg.state = .ready ∧ Settled s
      ∧ s.writePos + 1 = s.cfg.fftSize := by decide

theorem test_meets_pushSamples2FramesAndOffset :
    let s := issuedOn .d (readyCfg 1024 512 1023 stereo)
    s.active = .d ∧ s.variant = .stereo ∧ s.cfg.state = .ready ∧ Settled s
      ∧ ([1] : List F32).length = ([2] : List F32).length
      ∧ 1 ≤ s.cfg.hopSize ∧ s.cfg.hopSize ≤ s.cfg.fftSize ∧ s.writePos < s.cfg.fftSize := by decide

/-- The last pair that does not fill the accumulators, and the pair that does. -/
theorem test_meets_stereoChannelsInLockStep :
    (let s := issuedOn .d (readyCfg 1024 512 1022 stereo)
     s.active = .d ∧ s.variant = .stereo ∧ s.cfg.state = .ready ∧ Settled s
      ∧ ([1] : List F32).length = ([2] : List F32).length ∧ s.writePos + ([1] : List F32).length < s.cfg.fftSize)
      ∧ (issuedOn .d (readyCfg 1024 512 1023 stereo)).writePos + 1 = 1024 := by decide

/-- Accumulators of four samples. -/
def filled (left right : List F32) : State :=
  { readyCfg 4 2 0 stereo with acc0 := Memory.ofListFrom 0 left, acc1 := Memory.ofListFrom 0 right }

/-- The largest finite samples of both signs, a denormal and a negative zero. -/
theorem test_meets_monoFrameIsTransformOfWindowedSamples :
    (filled [0x7F7FFFFF, 0xFF7FFFFF, 1, 0x80000000] []).frameFinite .left = true ∧ 2 < (filled [] []).cfg.numBins := by decide

theorem test_meets_stereoFrameCombinesChannels :
    let s := filled [0x7F7FFFFF, 0xFF7FFFFF, 1, 0x80000000] [1, 2, 3, 4]
    s.frameFinite .left = true ∧ s.frameFinite .right = true := by decide

theorem test_meets_silenceGivesFloor :
    let s := filled [0, 0x80000000, 0, 0] [0x80000000, 0, 0, 0]
    (∀ j, j < s.cfg.fftSize → isZero (s.accWord .left j) = true)
      ∧ ∀ j, j < s.cfg.fftSize → isZero (s.accWord .right j) = true := by decide

theorem test_meets_storedBinsInRange :
    let s := filled [0x7F7FFFFF, 0xFF7FFFFF, 1, 0x80000000] [1, 2, 3, 4]
    s.frameFinite .left = true ∧ s.frameFinite .right = true := by decide

/-- Equal channels; the right one silent; the left one silent. -/
theorem test_meets_panTellsTheSides :
    (let s := filled [1, 2, 3, 4] [1, 2, 3, 4]
     s.frameFinite .left = true ∧ s.frameFinite .right = true
      ∧ ∀ j, j < s.cfg.fftSize → s.accWord .left j = s.accWord .right j)
      ∧ (let s := filled [0x3F800000, 2, 3, 4] [0, 0, 0x80000000, 0]
         s.frameFinite .left = true ∧ s.frameFinite .right = true ∧ 2 < s.cfg.numBins
          ∧ ∀ j, j < s.cfg.fftSize → isZero (s.accWord .right j) = true)
      ∧ (let s := filled [0, 0, 0x80000000, 0] [0x3F800000, 2, 3, 4]
         s.frameFinite .left = true ∧ s.frameFinite .right = true ∧ 0 < s.cfg.numBins
          ∧ ∀ j, j < s.cfg.fftSize → isZero (s.accWord .left j) = true) := by decide

theorem test_meets_windowTableProperties : 2 ≤ 2 ∧ 0 < 2 ∧ 1 < 2 ∧ 2 ≤ 1024 ∧ 1023 < 1024 := by decide

/-- Both zeros, a negative value, and the largest word that is not above `10^−5`. -/
theorem test_meets_dbFloorMatchesReference :
    (isNaN 0x00000000 = false ∧ isNaN 0x80000000 = false ∧ isNaN 0xBF800000 = false ∧ isNaN 0x3727C5AC = false)
      ∧ realOf 0x00000000 ≤ 1e-5 ∧ realOf 0x80000000 ≤ 1e-5 ∧ realOf 0xBF800000 ≤ 1e-5
      ∧ realOf 0x3727C5AC ≤ 1e-5 ∧ 1e-5 < realOf 0x3727C5AD := by
  refine ⟨by decide, ?_, ?_, ?_, ?_, ?_⟩
  · rw [realOf_eq 0x00000000 0 (by decide)]; norm_num
  · rw [realOf_eq 0x80000000 0 (by decide)]; norm_num
  · rw [realOf_eq 0xBF800000 (-2 ^ 149) (by decide)]; norm_num
  · rw [realOf_eq 0x3727C5AC (10995116 * 2 ^ 109) (by decide)]; norm_num
  · rw [realOf_eq 0x3727C5AD (10995117 * 2 ^ 109) (by decide)]; norm_num

/-- The largest word that is not above `10^−10`, beside a zero; the next word is above it. -/
theorem test_meets_panMatchesReferenceThreshold :
    (isNaN 0x80000000 = false ∧ isNaN 0x2EDBE6FE = false)
      ∧ realOf 0x80000000 + realOf 0x2EDBE6FE ≤ 1e-10 ∧ 1e-10 < realOf 0x80000000 + realOf 0x2EDBE6FF
      ∧ (0 : ℝ) ≤ 0 ∧ (0 : ℝ) ≤ 1 := by
  rw [realOf_eq 0x80000000 0 (by decide), realOf_eq 0x2EDBE6FE (14411518 * 2 ^ 92) (by decide),
    realOf_eq 0x2EDBE6FF (14411519 * 2 ^ 92) (by decide)]
  refine ⟨by decide, ?_⟩
  norm_num

/-- A lead of 2, of exactly 512 and of 513. -/
theorem test_meets_pullFrameTakesOldest :
    ([(3, 1), (512, 0), (513, 0)] : List (BitVec 32 × BitVec 32)).all (fun c =>
      let s := withBusy .g 0x13000000 (issuedOn .r (withFrames c.1 c.2 [] (readyCfg 1024 512 0 mono)))
      decide (s.active = .r) && decide (s.variant = .mono) && decide (s.cfg.state = .ready)
        && decide (Settled s) && decide (s.fr.trueLead < 2 ^ 32) && decide (s.fr.w ≠ s.fr.r)) = true := by
  decide

theorem test_meets_pullFrame2TakesOldest :
    let s := issuedOn .r (withFrames 1 0 [(0, ⟨[1, 2, 3], [4, 5, 6]⟩)] (readyCfg 4 2 0 stereo))
    s.active = .r ∧ s.variant = .stereo ∧ s.cfg.state = .ready ∧ Settled s
      ∧ s.fr.trueLead < 2 ^ 32 ∧ s.fr.w ≠ s.fr.r ∧ s.fr.slots.read 0 = some ⟨[1, 2, 3], [4, 5, 6]⟩
      ∧ WholeSlot s ⟨[1, 2, 3], [4, 5, 6]⟩ := by decide

theorem test_meets_pullOnEmptyRingAnswersFalse :
    (let s := issuedOn .r (withFrames 7 7 [] ready)
     s.active = .r ∧ s.cfg.state = .ready ∧ Settled s ∧ s.fr.trueLead < 2 ^ 32 ∧ s.fr.w = s.fr.r
      ∧ s.variant = .mono) ∧ (issuedOn .r readyStereo).variant = .stereo := by decide

/-- A full queue, and the largest lead a push may meet. -/
theorem test_meets_frameRingIsDropOldestQueue :
    (withFrames 512 0 [] ready).fr.lead + 1 < 2 ^ 32 ∧ (withFrames 0xFFFFFFFE 0 [] ready).fr.lead + 1 < 2 ^ 32
      ∧ (withFrames 512 0 [] ready).fr.w ≠ (withFrames 512 0 [] ready).fr.r := by decide

theorem test_meets_frameSequenceAliasFaults :
    let late := fun (s : State) => issuedOn .r { s with fr := { s.fr with trueLead := 2 ^ 32 } }
    (late ready).active = .r ∧ (late ready).cfg.state = .ready ∧ Settled (late ready)
      ∧ 2 ^ 32 ≤ (late ready).fr.trueLead ∧ (late ready).variant = .mono ∧ (late readyStereo).variant = .stereo := by
  decide

/-- A command for each cursor and storage that changes it. -/
theorem test_meets_eachCursorHasOneWriter :
    (let s := withRing (ring8 9 5 1 7 [8, 1, 2, 3, 4, 5, 6, 7]) mono
     nextHas (exec (.srPush .ring0 [1]) (issuedOn .p (withRing (ring8 0 0 0 0 []) mono)))
        (fun t => decide (t.ring0.wp ≠ 0) && decide (t.ring0.mem ≠ [])) = true
      ∧ nextHas (exec (.srPop .ring0 1) (issuedOn .d s)) (fun t => decide (t.ring0.rp ≠ s.ring0.rp)) = true
      ∧ nextHas (exec (.srSetSize .ring0 4) (issuedOn .g s))
        (fun t => decide (t.ring0.rv ≠ s.ring0.rv) && decide (t.ring0.wv ≠ s.ring0.wv) && decide (t.ring0.lc ≠ s.ring0.lc))
          = true)
      ∧ (let s := { readyCfg 1024 512 1023 stereo with fftbuf0 := [(0, 1)], fftbuf1 := [(0, 1)] }
         nextHas (exec (.pushSamples2 [0] [0]) (issuedOn .d s)) (fun t =>
            decide (t.acc0 ≠ s.acc0) && decide (t.acc1 ≠ s.acc1) && decide (t.writePos ≠ s.writePos)
              && decide (t.fftbuf0 ≠ s.fftbuf0) && decide (t.fftbuf1 ≠ s.fftbuf1) && decide (t.fr.w ≠ s.fr.w)) = true)
      ∧ nextHas (exec (.pushSamples [0]) (issuedOn .d (readyCfg 1024 512 1023 mono))) (fun t => decide (t.fr.w ≠ 0)) = true
      ∧ nextHas (exec (.pullFrame 0) (issuedOn .r (withFrames 3 1 [] ready))) (fun t => decide (t.fr.r ≠ 1)) = true
      ∧ nextHas (exec (.prepare 10 0) (issuedOn .g { mono with writePos := 5 }))
        (fun t => decide (t.writePos ≠ 5) && decide (t.fr.bins ≠ 0)) = true
      ∧ nextHas (exec (.setOverlap 0) (issuedOn .g mono)) (fun t => decide (t.cfg ≠ mono.cfg)) = true
      ∧ nextHas (exec (.setWindow .hann) (issuedOn .g (readyCfg 4 2 0 mono))) (fun t => !t.win.isEmpty) = true := by decide

theorem test_meets_onlyPrepareEntersReady :
    nextHas (step (offered .d [0x20000001, 5] [.run .d] ready)) (fun _ => true) = true ∧ ready.cfg.state = .ready
      ∧ nextHas (exec (.prepare 10 0) (issuedOn .g mono)) (fun t => decide (t.cfg.state ≠ mono.cfg.state)) = true := by decide

theorem test_meets_reconfigurationRaceFaults :
    (let admitted := fun (i : Instr) (s : State) => reservedTest i s = none ∧ operandTest i s = none ∧ stateTest i s = none
     (let s := withBusy .r 0x28000001 (issuedOn .g ready)
      admitted (.srSetSize .ring0 3) s ∧ (Instr.srSetSize .ring0 3).op = .srSetSize
        ∧ admitted (.setWindow .hann) s ∧ (Instr.setWindow .hann).op = .setWindow ∧ ¬ OthersIdle s)
      ∧ (let s := withBusy .g 0x01000003 (issuedOn .r ready)
         admitted (.pullFrame 1) s ∧ s.active ≠ .g ∧ ¬ Settled s)
      ∧ (let s := withBusy .d 0x03000001 (withBusy .g 0x13000000 (issuedOn .g ready))
         admitted .getFftSize s ∧ admitted (.setOverlap 0) s ∧ ¬ OthersIdle s ∧ Settled s)) := by decide

theorem test_meets_reservedOnPortRefused :
    (issuedOn .d mono).active ∉ (Instr.srPush .ring0 [1]).op.row.ports
      ∧ ((issuedOn .d stereo).active ∈ (Instr.pushSamples [1]).op.row.ports
        ∧ (Instr.pushSamples [1]).op.row.variant = some .mono ∧ Variant.mono ≠ (issuedOn .d stereo).variant)
      ∧ ((issuedOn .p mono).active ∈ (Instr.srPush .ring1 [1]).op.row.ports ∧ (issuedOn .p mono).variant = .mono
        ∧ (Instr.srPush .ring1 [1]).ring? = some .ring1)
      ∧ (let s := offered .g [0x02000001, 5] [.run .g] mono
         opOf 0x02000001 = some .srPush ∧ .g ∉ Op.srPush.row.ports ∧ s.agenda = .run .g :: [] ∧ (s.port .g).busy = none
          ∧ (s.port .g).input = 0x02000001 :: [5]) := by decide

theorem test_meets_configureReachesReady :
    10 ≤ (10 : BitVec 8).toNat ∧ (13 : BitVec 8).toNat ≤ 13 ∧ isNaN 0x3F000000 = false ∧ OthersIdle mono := by
  decide

theorem test_meets_drainTwoTakesEqualCounts :
    let s := { readyCfg 1024 512 1023 stereo with
      ring0 := ring8 9 5 1 7 [8, 1, 2, 3, 4, 5, 6, 7], ring1 := ring8 5 5 5 5 [] }
    s.variant = .stereo ∧ s.cfg.state = .ready ∧ Settled s ∧ s.ring0.sized = true
      ∧ s.ring1.sized = true ∧ RingsInv s ∧ 1 ≤ s.cfg.hopSize ∧ s.cfg.hopSize ≤ s.cfg.fftSize
      ∧ s.writePos < s.cfg.fftSize := by
  refine ⟨by decide, by decide, by decide, by decide, by decide, by decide, by decide, ?_⟩
  decide

theorem test_meets_referenceWindowShapes : 2 ≤ 2 ∧ 1 < 2 := by decide

theorem test_meets_realTransformIsHermitian : 0 < 1 ∧ 0 ≤ 1 ∧ 1 ≤ 1 ∧ 1024 % 2 = 0 := by decide

theorem test_meets_butterfliesComputeTransform : 0 < 2 ^ 0 ∧ 2 ^ 13 - 1 < 2 ^ 13 := by decide

theorem test_meets_magnitudeSquaredForm : (0 : ℝ) < 1 ^ 2 + 0 ^ 2 := by norm_num

end Sys2Proof.Tests
end

section
/-!
The Gray code exchange of R10 and R66. `ungray` is the solution of `u = g xor (u >> 1)`, which read bit by bit is the
recurrence of R10. Adding one to `b` flips its bits up to the number of trailing zeros of `b + 1`, the wrap included,
so the Gray code changes in the last of these bits that the width holds.
-/

namespace Sys2Proof.Machine

open Sys2Proof

/-! ## Decoding -/

theorem ungrayUpTo_succ {w : Nat} (g : BitVec w) (n : Nat) : ungrayUpTo g (n + 1) = g ^^^ (ungrayUpTo g n >>> 1) := by
  induction n with
  | zero => simp [ungrayUpTo]
  | succ n ih =>
    calc ungrayUpTo g (n + 1) ^^^ (g >>> (n + 1))
        = g ^^^ (ungrayUpTo g n >>> 1) ^^^ (g >>> n >>> 1) := by rw [ih, BitVec.shiftRight_add]
      _ = g ^^^ (ungrayUpTo g (n + 1) >>> 1) := by
        rw [ungrayUpTo, BitVec.ushiftRight_xor_distrib, BitVec.xor_assoc]

theorem ungray_eq_xor_shift {w : Nat} (g : BitVec w) : ungray g = g ^^^ (ungray g >>> 1) := by
  have beyond : g >>> w = 0 := BitVec.ushiftRight_eq_zero (Nat.le_refl w)
  calc ungray g = ungrayUpTo g (w + 1) := by simp [ungrayUpTo, ungray, beyond]
    _ = g ^^^ (ungray g >>> 1) := ungrayUpTo_succ g w

theorem getLsbD_ungray {w : Nat} (g : BitVec w) (i : Nat) :
    (ungray g).getLsbD i = ((ungray g).getLsbD (i + 1) ^^ g.getLsbD i) := by
  conv_lhs => rw [ungray_eq_xor_shift]
  rw [BitVec.getLsbD_xor, BitVec.getLsbD_ushiftRight, Bool.xor_comm, Nat.add_comm 1 i]

theorem ungray_gray {w : Nat} (b : BitVec w) : ungray (gray b) = b := by
  have beyond : b >>> w = 0 := BitVec.ushiftRight_eq_zero (Nat.le_refl w)
  simp [ungray, ungrayUpTo_gray, beyond]

/-! ## The step from one code to the next -/

@[simp] theorem getLsbD_gray {w : Nat} (b : BitVec w) (j : Nat) :
    (gray b).getLsbD j = (b.getLsbD j ^^ b.getLsbD (j + 1)) := by
  simp [gray, Nat.add_comm 1 j]

theorem testBit_succ_eq_xor (n j : Nat) : (n + 1).testBit j = (n.testBit j ^^ decide (2 ^ j ∣ n + 1)) := by
  simp only [Nat.testBit_eq_decide_div_mod_eq, Nat.succ_div]
  by_cases carried : 2 ^ j ∣ n + 1
  · simp only [carried, if_true]
    rcases Nat.mod_two_eq_zero_or_one (n / 2 ^ j) with h | h <;> simp [Nat.add_mod, h]
  · simp [carried]

/-- The number of trailing zeros of `b + 1`, taken before the wrap. -/
def trailingZerosSucc {w : Nat} (b : BitVec w) : Nat := padicValNat 2 (b.toNat + 1)

theorem getLsbD_add_one {w : Nat} (b : BitVec w) {j : Nat} (hj : j < w) :
    (b + 1).getLsbD j = (b.getLsbD j ^^ decide (j ≤ trailingZerosSucc b)) := by
  have divides : 2 ^ j ∣ b.toNat + 1 ↔ j ≤ trailingZerosSucc b := padicValNat_dvd_iff_le (Nat.succ_ne_zero _)
  simp [BitVec.getLsbD, Nat.testBit_mod_two_pow, hj, testBit_succ_eq_xor, divides]

theorem gray_add_one_differs_iff {w : Nat} (b : BitVec w) {j : Nat} (hj : j < w) :
    (gray b).getLsbD j ≠ (gray (b + 1)).getLsbD j ↔ j = min (w - 1) (trailingZerosSucc b) := by
  by_cases top : j + 1 < w
  · have flips : ((gray b).getLsbD j ≠ (gray (b + 1)).getLsbD j)
        ↔ (j ≤ trailingZerosSucc b ∧ ¬ j + 1 ≤ trailingZerosSucc b) := by
      simp only [getLsbD_gray, getLsbD_add_one b hj, getLsbD_add_one b top]
      by_cases low : j + 1 ≤ trailingZerosSucc b
      · simp [low, Nat.le_of_succ_le low]
      · by_cases h : j ≤ trailingZerosSucc b <;> simp [low, h]
    rw [flips]
    omega
  · have above (c : BitVec w) : c.getLsbD (j + 1) = false := BitVec.getLsbD_of_ge c _ (Nat.le_of_not_lt top)
    have flips : ((gray b).getLsbD j ≠ (gray (b + 1)).getLsbD j) ↔ j ≤ trailingZerosSucc b := by
      simp only [getLsbD_gray, getLsbD_add_one b hj, above]
      by_cases h : j ≤ trailingZerosSucc b <;> simp [h]
    rw [flips]
    omega

/-- Settles O17: `ungray` by its fixed-point equation, the step by the trailing zeros of `b + 1`. -/
theorem grayCodeExchange : Obligations.GrayCodeExchange := by
  intro w hw
  refine ⟨fun _ => rfl, fun g => ⟨?_, fun i _ => getLsbD_ungray g i⟩, ungray_gray, fun b => ?_⟩
  · have above : (ungray g).getLsbD (w - 1 + 1) = false := BitVec.getLsbD_of_ge _ _ (by omega)
    rw [getLsbD_ungray, above, Bool.false_xor]
  · exact ⟨min (w - 1) (trailingZerosSucc b), by omega, fun j hj => gray_add_one_differs_iff b hj⟩

end Sys2Proof.Machine
end

section
/-!
What every step keeps, packaged once: a property that the bookkeeping of a turn (agenda, ports, active port) does not
touch holds after a step if every admitted command and both synchroniser steps keep it.
-/

namespace Sys2Proof.Machine

open Sys2Proof

/-- What the bookkeeping of a turn, every admitted command and both synchroniser steps keep, a step keeps. -/
theorem step_keeps {P : State → Prop} (agenda : ∀ s turns, P s → P { s with agenda := turns })
    (port : ∀ s q x, P s → P (s.setPort q x)) (active : ∀ s q, P s → P { s with active := q })
    (command : ∀ i s, stopOf i s = none → P s → P (effect i s))
    (syncW : ∀ s q k, P s → P (s.setRing q ((s.ring q).syncW k)))
    (syncR : ∀ s q k, P s → P (s.setRing q ((s.ring q).syncR k))) {s t : State} (hs : P s) (h : step s = .next t) :
    P t := by
  have served : ∀ {s q input busy measured}, P s → P (onPort q input busy measured s) :=
    fun hs => active _ _ (port _ _ _ hs)
  have ran : ∀ {i q input s u}, P s → exec i (onPort q input none none s) = .next u → P u := by
    intro i q input s u hs hu
    obtain ⟨admitted, rfl⟩ := (exec_next_iff ..).mp hu
    exact command _ _ admitted (served hs)
  obtain ⟨-, rfl⟩ | ⟨turn, turns, -, turnCase⟩ := step_cases h
  · exact hs
  · have hs := agenda s turns hs
    cases turnCase with
    | waits h => rwa [h]
    | completes q i input h => exact ran hs h
    | begins q w input op _ _ _ _ h => rw [h]; exact served hs
    | parts w k op i input u _ _ _ _ h ht => rw [ht]; exact port _ _ _ (ran hs h)
    | syncW q k h => rw [h]; exact syncW _ _ _ hs
    | syncR q k h => rw [h]; exact syncR _ _ _ hs

/-! ## What a command leaves alone -/

/-- A pull answers, and moves the FrameRing's read cursor past its oldest frame unless the ring is empty (R235,
R237). -/
theorem effect_pull {i : Instr} (h : isPull i.op = true) (s : State) :
    ∃ fr words, effect i s = State.respond { s with fr := fr } words
      ∧ (fr = s.fr ∨ s.fr.lead ≠ 0 ∧ fr = s.fr.consumed) := by
  cases i with
  | pullFrame n =>
    by_cases empty : s.fr.lead = 0
    · exact ⟨s.fr, _, if_pos empty, .inl rfl⟩
    · exact ⟨_, _, if_neg empty, .inr ⟨empty, rfl⟩⟩
  | pullFrame2 =>
    by_cases empty : s.fr.lead = 0
    · exact ⟨s.fr, _, if_pos empty, .inl rfl⟩
    · exact ⟨_, _, if_neg empty, .inr ⟨empty, rfl⟩⟩
  | _ => exact absurd h Bool.false_ne_true

/-- What neither a response nor the FrameRing shows, a pull keeps. -/
theorem effect_pull_keeps {β : Type} {i : Instr} (h : isPull i.op = true) (f : State → β)
    (respond : ∀ s words, f (State.respond s words) = f s) (fr : ∀ s x, f { s with fr := x } = f s) (s : State) :
    f (effect i s) = f s := by
  obtain ⟨x, words, he, -⟩ := effect_pull h s
  rw [he, respond, fr]

/-- A command other than SR_SETSIZE, SR_PUSH and SR_POP leaves every ring alone. -/
theorem effect_ring_other {i : Instr} (h : i.op ≠ .srSetSize ∧ i.op ≠ .srPush ∧ i.op ≠ .srPop) (s : State)
    (q : RingId) : (effect i s).ring q = s.ring q := by
  obtain ⟨notSetSize, notPush, notPop⟩ := h
  cases i with
  | srSetSize ch lc => exact absurd rfl notSetSize
  | srPush ch data => exact absurd rfl notPush
  | srPop ch n => exact absurd rfl notPop
  | prepare order rate => cases q <;> rfl
  | setWindow type => cases q <;> rfl
  | setOverlap frac => cases q <;> rfl
  | pushSamples data => cases q <;> simp [effect, State.ring]
  | pushSamples2 left right => cases q <;> simp [effect, State.ring]
  | pullFrame n =>
    exact effect_pull_keeps rfl (·.ring q) (State.respond_ring · · q) (fun _ _ => by cases q <;> rfl) s
  | pullFrame2 =>
    exact effect_pull_keeps rfl (·.ring q) (State.respond_ring · · q) (fun _ _ => by cases q <;> rfl) s
  | _ => exact State.respond_ring ..

/-- No command changes LC_MAX (R8). -/
@[simp] theorem effect_lcMax (i : Instr) (s : State) : (effect i s).lcMax = s.lcMax := by
  cases i with
  | srSetSize ch lc => exact State.setRing_lcMax s ch _
  | srPush ch data => exact State.setRing_lcMax ..
  | srPop ch n => exact (State.respond_lcMax ..).trans (State.setRing_lcMax ..)
  | prepare order rate => rfl
  | setWindow type => rfl
  | setOverlap frac => rfl
  | pushSamples data => exact afterPushSamples_lcMax data s
  | pushSamples2 left right => exact afterPushSamples2_lcMax left right s
  | pullFrame n => exact effect_pull_keeps rfl (·.lcMax) State.respond_lcMax (fun _ _ => rfl) s
  | pullFrame2 => exact effect_pull_keeps rfl (·.lcMax) State.respond_lcMax (fun _ _ => rfl) s
  | _ => exact State.respond_lcMax ..

end Sys2Proof.Machine
end

section
/-!
The SampleRing invariants of R28: what SR_PUSH, SR_POP and the synchroniser steps do to the three counts and to the
contents, and from it that every step keeps the invariants and that a ring is a queue.
-/

namespace Sys2Proof.Machine

open Sys2Proof

section Operations

variable {lcMax : Nat} {x : SampleRing}

/-! ## Counts after an operation -/

/-- A push accepts no more than fits beside what its side sees as stored. -/
theorem producerReady_add_accepted_le (views : RingViews x) (data : List F32) :
    x.producerReady + x.accepted data ≤ x.capacity := by
  obtain ⟨-, readyLe, -⟩ := views
  have fits : x.accepted data ≤ x.capacity - x.producerReady := x.accepted_le_free data
  omega

/-- A pop delivers no more than is stored. -/
theorem delivered_le_used (views : RingViews x) (n : Nat) : x.delivered n ≤ x.used := by
  obtain ⟨-, -, readyLe⟩ := views
  exact (x.delivered_le n).trans readyLe

theorem used_pushed (range : RingRange lcMax x) (views : RingViews x) (data : List F32) :
    (x.pushed data).used = x.used + x.accepted data := by
  have fits := producerReady_add_accepted_le views data
  have := x.capacity_pos
  obtain ⟨-, -, hwp, hrp, -, -⟩ := range
  obtain ⟨usedLe, -, -⟩ := views
  exact cursorDiff_add_left hwp hrp (by change x.used + _ < 2 * x.capacity; omega)

theorem producerReady_pushed (range : RingRange lcMax x) (views : RingViews x) (data : List F32) :
    (x.pushed data).producerReady = x.producerReady + x.accepted data := by
  have fits := producerReady_add_accepted_le views data
  have := x.capacity_pos
  obtain ⟨-, -, hwp, -, hrv, -⟩ := range
  exact cursorDiff_add_left hwp hrv (by change x.producerReady + _ < 2 * x.capacity; omega)

theorem used_popped (range : RingRange lcMax x) (views : RingViews x) (n : Nat) :
    (x.popped n).used = x.used - x.delivered n := by
  obtain ⟨-, -, hwp, hrp, -, -⟩ := range
  exact cursorDiff_add_right hwp hrp (delivered_le_used views n)

theorem consumerReady_popped (range : RingRange lcMax x) (n : Nat) :
    (x.popped n).consumerReady = x.consumerReady - x.delivered n := by
  obtain ⟨-, -, -, hrp, -, hwv⟩ := range
  exact cursorDiff_add_right hwv hrp (x.delivered_le n)

/-- The write cursor is further ahead of the read cursor than its view is, by the view's lag. -/
theorem used_eq_lagW_add (range : RingRange lcMax x) (views : RingViews x) : x.used = x.lagW + x.consumerReady := by
  obtain ⟨-, -, hwp, hrp, -, hwv⟩ := range
  obtain ⟨-, -, readyLe⟩ := views
  exact cursorDiff_split hwp hwv hrp readyLe

/-- The view of the read cursor is further behind the write cursor than the read cursor is, by its lag. -/
theorem producerReady_eq_used_add (range : RingRange lcMax x) (views : RingViews x) :
    x.producerReady = x.used + x.lagR := by
  obtain ⟨-, -, hwp, hrp, hrv, -⟩ := range
  obtain ⟨usedLe, -, -⟩ := views
  unfold SampleRing.producerReady SampleRing.used SampleRing.lagR at *
  rw [cursorDiff_eq hwp hrp, cursorDiff_eq hwp hrv] at *
  rw [cursorDiff_eq hrp hrv]
  split_ifs at usedLe ⊢ <;> omega

/-! ## Slots -/

/-- The slots after the write cursor follow those of the stored samples. -/
theorem slotIndex_wp (range : RingRange lcMax x) (j : Nat) :
    x.slotIndex x.wp j = x.slotIndex x.rp (x.used + j) := by
  obtain ⟨-, -, hwp, hrp, -, -⟩ := range
  have reach : (x.rp + x.used) % (2 * x.capacity) = x.wp := cursorAdd_diff hwp hrp
  calc x.slotIndex x.wp j = ((x.rp + x.used) % (2 * x.capacity) + j) % x.capacity := by rw [reach]; rfl
    _ = x.slotIndex x.rp (x.used + j) := by rw [slot_mod, Nat.add_assoc]; rfl

/-- The slots after a pop's read cursor are those after the samples it delivered. -/
theorem slotIndex_popped (n j : Nat) :
    (x.popped n).slotIndex (x.popped n).rp j = x.slotIndex x.rp (x.delivered n + j) := by
  change ((x.rp + x.delivered n) % (2 * x.capacity) + j) % x.capacity = _
  rw [slot_mod, Nat.add_assoc]
  rfl

@[simp] theorem slotIndex_pushed (data : List F32) (j : Nat) :
    (x.pushed data).slotIndex (x.pushed data).rp j = x.slotIndex x.rp j := rfl

/-- A push leaves the slots of the stored samples as they were. -/
theorem pushed_read_old (range : RingRange lcMax x) (views : RingViews x) (data : List F32) {j : Nat}
    (hj : j < x.used) :
    (x.pushed data).mem.read (x.slotIndex x.rp j) = x.mem.read (x.slotIndex x.rp j) := by
  have fits := producerReady_add_accepted_le views data
  obtain ⟨usedLe, -, -⟩ := views
  refine Memory.read_writeRun_other _ _ _ _ _ fun k hk => ?_
  rw [List.length_take] at hk
  change x.slotIndex x.wp k ≠ _
  rw [slotIndex_wp range]
  exact (slot_ne x.rp (by omega) (by omega)).symm

/-- A push puts its accepted samples in the slots after those of the stored ones. -/
theorem pushed_read_new (range : RingRange lcMax x) (data : List F32) {j : Nat} (hj : j < x.accepted data) :
    (x.pushed data).mem.read (x.slotIndex x.rp (x.used + j)) = data[j]? := by
  have len : (data.take (x.accepted data)).length = x.accepted data := List.length_take_of_le (x.accepted_le data)
  have fits : x.accepted data ≤ x.capacity := (x.accepted_le_free data).trans (Nat.sub_le ..)
  rw [← slotIndex_wp range, SampleRing.pushed]
  exact (Memory.read_writeRun _ _ _ (by rwa [len]) _ j (by rwa [len])).trans (List.getElem?_take_of_lt hj)

/-! ## Contents (R28 d, R70) -/

/-- A push appends its accepted samples. -/
theorem contents_pushed (range : RingRange lcMax x) (views : RingViews x) (data : List F32) :
    (x.pushed data).contents = x.contents ++ (data.take (x.accepted data)).map some := by
  have accepted := x.accepted_le data
  rw [SampleRing.contents, used_pushed range views, List.range_add, List.map_append, List.map_map]
  congr 1
  · exact List.map_congr_left fun j hj => pushed_read_old range views data (List.mem_range.mp hj)
  · refine List.ext_getElem (by simpa using accepted) fun j hj _ => ?_
    have hj : j < x.accepted data := by simpa using hj
    have stored := pushed_read_new range data hj
    rw [List.getElem?_eq_getElem (by omega)] at stored
    simpa using stored

/-- A pop takes its words from the front. -/
theorem contents_popped (range : RingRange lcMax x) (views : RingViews x) (n : Nat) :
    x.contents =
      ((List.range (x.delivered n)).map fun j => x.mem.read (x.slotIndex x.rp j)) ++ (x.popped n).contents := by
  have delivered := delivered_le_used views n
  rw [SampleRing.contents, SampleRing.contents, used_popped range views]
  conv_lhs => rw [← Nat.add_sub_cancel' delivered, List.range_add, List.map_append, List.map_map]
  congr 1
  exact List.map_congr_left fun j _ => by rw [slotIndex_popped]; rfl

/-- On a ring whose unconsumed slots were written a pop answers the words of its slots. -/
theorem popWords_map_some {s : State} {q : RingId} (views : RingViews (s.ring q)) (filled : RingFilled (s.ring q))
    (n : Nat) : (s.popWords q n).map some = (List.range ((s.ring q).delivered n)).map fun j =>
      (s.ring q).mem.read ((s.ring q).slotIndex (s.ring q).rp j) := by
  rw [State.popWords, List.map_map]
  refine List.map_congr_left fun j hj => ?_
  have used : j < (s.ring q).used := (List.mem_range.mp hj).trans_le (delivered_le_used views n)
  obtain ⟨v, hv⟩ := Option.isSome_iff_exists.mp (filled j used)
  simp [State.ringWord, wordOf, hv]

theorem contents_syncW (x : SampleRing) (k : Nat) : (x.syncW k).contents = x.contents := by
  rw [SampleRing.syncW_frame]; rfl

theorem contents_syncR (x : SampleRing) (k : Nat) : (x.syncR k).contents = x.contents := by
  rw [SampleRing.syncR_frame]; rfl

end Operations

/-- Settles O16, from what each operation does to the contents of a ring. -/
theorem sampleRingIsFifo : Obligations.SampleRingIsFifo := by
  intro s t ch sized inv
  obtain ⟨range, views, filled⟩ := inv.1 sized
  refine ⟨fun data h => ?_, fun n h => ?_, fun k => ⟨contents_syncW _ k, contents_syncR _ k⟩⟩
  · obtain ⟨-, rfl⟩ := (exec_next_iff ..).mp h
    simpa [effect, afterSrPush] using contents_pushed range views data
  · obtain ⟨-, rfl⟩ := (exec_next_iff ..).mp h
    refine ⟨s.popWords ch n.toNat, ⟨fun q hq => ?_, ?_⟩, ?_⟩
    · exact (State.respond_port_other _ _ (by simpa using hq)).trans (State.port_setRing ..)
    · simpa [effect, afterSrPop, countWord] using State.respond_port_active (s.setRing ch _) _
    · rw [popWords_map_some views filled]
      simpa [effect, afterSrPop] using contents_popped range views n.toNat

/-! ## The invariants (R28) -/

section Invariants

variable {lcMax : Nat} {x : SampleRing}

/-- The invariants of a ring that exists. -/
abbrev SizedInv (lcMax : Nat) (x : SampleRing) : Prop := RingRange lcMax x ∧ RingViews x ∧ RingFilled x

theorem SizedInv.ringInv (sized : x.sized = true) (h : SizedInv lcMax x) : RingInv lcMax x :=
  ⟨fun _ => h, fun unsized => by simp [sized] at unsized⟩

/-- SR_SETSIZE leaves an empty ring of a legal size. -/
theorem resized_inv {lc : BitVec 5} (pos : 1 ≤ lc.toNat) (le : lc.toNat ≤ lcMax) :
    SizedInv lcMax (SampleRing.resized lc) := by
  have := (SampleRing.resized lc).capacity_pos
  have empty : cursorDiff (SampleRing.resized lc).capacity 0 0 = 0 := cursorDiff_self (by omega)
  refine ⟨⟨pos, le, ?_⟩, ⟨Nat.le_refl _, empty.trans_le (Nat.zero_le _), Nat.le_refl _⟩, ?_⟩
  · simpa [SampleRing.resized] using this
  · exact fun j hj => absurd (empty ▸ hj) (Nat.not_lt_zero j)

theorem pushed_inv (h : SizedInv lcMax x) (data : List F32) : SizedInv lcMax (x.pushed data) := by
  obtain ⟨range, views, filled⟩ := h
  have hu := used_pushed range views data
  have hr := producerReady_pushed range views data
  have fits := producerReady_add_accepted_le views data
  refine ⟨?_, ?_, fun j hj => ?_⟩
  · obtain ⟨pos, le, -, hrp, hrv, hwv⟩ := range
    exact ⟨pos, le, cursorAdd_lt x.capacity_pos .., hrp, hrv, hwv⟩
  · obtain ⟨usedLe, readyLe, consumerLe⟩ := views
    refine ⟨by omega, ?_, consumerLe.trans (by omega)⟩
    rw [hr, SampleRing.pushed_capacity]; omega
  · rw [slotIndex_pushed]
    by_cases old : j < x.used
    · rw [pushed_read_old range views data old]; exact filled j old
    · obtain ⟨k, rfl⟩ := Nat.exists_eq_add_of_le (Nat.le_of_not_lt old)
      have accepted := x.accepted_le data
      rw [pushed_read_new range data (by omega)]
      simpa using (by omega : k < data.length)

theorem popped_inv (h : SizedInv lcMax x) (n : Nat) : SizedInv lcMax (x.popped n) := by
  obtain ⟨range, views, filled⟩ := h
  have hu := used_popped range views n
  have hc := consumerReady_popped range n
  refine ⟨?_, ?_, fun j hj => ?_⟩
  · obtain ⟨pos, le, hwp, -, hrv, hwv⟩ := range
    exact ⟨pos, le, hwp, cursorAdd_lt x.capacity_pos .., hrv, hwv⟩
  · obtain ⟨usedLe, readyLe, consumerLe⟩ := views
    exact ⟨(hu.trans_le (Nat.sub_le ..)).trans usedLe, readyLe, by omega⟩
  · rw [slotIndex_popped]
    exact filled _ (by omega)

theorem syncW_inv (sized : x.sized = true) (h : SizedInv lcMax x) (k : Nat) : SizedInv lcMax (x.syncW k) := by
  obtain ⟨range, views, filled⟩ := h
  have lag := used_eq_lagW_add range views
  obtain ⟨pos, le, hwp, hrp, hrv, hwv⟩ := range
  obtain ⟨usedLe, readyLe, consumerLe⟩ := views
  have moved : x.syncW k = { x with wv := cursorAdd x.capacity x.wv (min k x.lagW) } := by
    simp [SampleRing.syncW, sized, SampleRing.throughGray_cursorAdd, SampleRing.lagW]
  have closer : cursorDiff x.capacity (cursorAdd x.capacity x.wv (min k x.lagW)) x.rp =
      x.consumerReady + min k x.lagW := by
    have := x.capacity_pos
    have := cursorDiff_lt x.capacity_pos x.wp x.rp
    refine cursorDiff_add_left hwv hrp ?_
    change x.consumerReady + _ < _
    change x.used < _ at this
    omega
  rw [moved]
  refine ⟨⟨pos, le, hwp, hrp, hrv, cursorAdd_lt x.capacity_pos ..⟩, ⟨usedLe, readyLe, ?_⟩, filled⟩
  change cursorDiff x.capacity (cursorAdd x.capacity x.wv (min k x.lagW)) x.rp ≤ x.used
  omega

theorem syncR_inv (sized : x.sized = true) (h : SizedInv lcMax x) (k : Nat) : SizedInv lcMax (x.syncR k) := by
  obtain ⟨range, views, filled⟩ := h
  have lag := producerReady_eq_used_add range views
  obtain ⟨pos, le, hwp, hrp, hrv, hwv⟩ := range
  obtain ⟨usedLe, readyLe, consumerLe⟩ := views
  have moved : x.syncR k = { x with rv := cursorAdd x.capacity x.rv (min k x.lagR) } := by
    simp [SampleRing.syncR, sized, SampleRing.throughGray_cursorAdd, SampleRing.lagR]
  have closer : cursorDiff x.capacity x.wp (cursorAdd x.capacity x.rv (min k x.lagR)) =
      x.producerReady - min k x.lagR := by
    refine cursorDiff_add_right hwp hrv ?_
    change _ ≤ x.producerReady
    omega
  rw [moved]
  refine ⟨⟨pos, le, hwp, hrp, cursorAdd_lt x.capacity_pos .., hwv⟩, ⟨?_, ?_, consumerLe⟩, filled⟩
  · change x.used ≤ cursorDiff x.capacity x.wp (cursorAdd x.capacity x.rv (min k x.lagR))
    omega
  · change cursorDiff x.capacity x.wp (cursorAdd x.capacity x.rv (min k x.lagR)) ≤ x.capacity
    omega

/-- A synchroniser step keeps the invariants: a ring that does not exist is left alone. -/
theorem ringInv_syncW (h : RingInv lcMax x) (k : Nat) : RingInv lcMax (x.syncW k) := by
  cases sized : x.sized with
  | true => exact (syncW_inv sized (h.1 sized) k).ringInv (by rw [SampleRing.syncW_frame]; exact sized)
  | false => simpa [SampleRing.syncW, sized] using h

theorem ringInv_syncR (h : RingInv lcMax x) (k : Nat) : RingInv lcMax (x.syncR k) := by
  cases sized : x.sized with
  | true => exact (syncR_inv sized (h.1 sized) k).ringInv (by rw [SampleRing.syncR_frame]; exact sized)
  | false => simpa [SampleRing.syncR, sized] using h

end Invariants

/-- Both rings, by their number. -/
theorem ringsInv_iff (s : State) : RingsInv s ↔ ∀ q, RingInv s.lcMax (s.ring q) :=
  ⟨fun h q => by cases q; exacts [h.1, h.2], fun h => ⟨h .ring0, h .ring1⟩⟩

theorem ringsInv_setRing {s : State} (h : RingsInv s) (ch : RingId) {y : SampleRing} (hy : RingInv s.lcMax y) :
    RingsInv (s.setRing ch y) := by
  rw [ringsInv_iff] at h ⊢
  intro q
  rw [State.setRing_lcMax]
  by_cases same : q = ch
  · rw [same, State.ring_setRing_same]; exact hy
  · rw [State.ring_setRing_other s y same]; exact h q

/-- A state with the rings and the LC_MAX of one that meets the invariants meets them. -/
theorem ringsInv_congr {s t : State} (lcMax : t.lcMax = s.lcMax) (rings : SameRings s t) (h : RingsInv s) :
    RingsInv t := by
  rw [ringsInv_iff] at h ⊢
  intro q
  rw [lcMax, rings q]
  exact h q

/-- Every admitted command keeps the invariants: only an admitted SR_SETSIZE gives a size, and only a sized ring is
pushed to or popped from. -/
theorem effect_ringsInv {i : Instr} {s : State} (admitted : stopOf i s = none) (h : RingsInv s) :
    RingsInv (effect i s) := by
  have inv := (ringsInv_iff s).mp h
  cases i with
  | srSetSize ch lc =>
    obtain ⟨-, -, pos, le, -⟩ := (stopOf_srSetSize ch lc s).mp admitted
    exact ringsInv_congr (s := s.setRing ch (.resized lc)) rfl (fun q => by cases q <;> rfl)
      (ringsInv_setRing h ch ((resized_inv pos le).ringInv rfl))
  | srPush ch data =>
    obtain ⟨-, -, sized, -⟩ := (stopOf_srPush ch data s).mp admitted
    exact ringsInv_setRing h ch ((pushed_inv ((inv ch).1 sized) data).ringInv sized)
  | srPop ch n =>
    obtain ⟨-, -, sized, -⟩ := (stopOf_srPop ch n s).mp admitted
    exact ringsInv_congr (State.respond_lcMax ..) (State.respond_ring _ _)
      (ringsInv_setRing h ch ((popped_inv ((inv ch).1 sized) n.toNat).ringInv sized))
  | _ => exact ringsInv_congr (effect_lcMax ..) (effect_ring_other (by simp [Instr.op]) s) h

/-- Settles O19, operation by operation. -/
theorem stepKeepsRingInvariants : Obligations.StepKeepsRingInvariants := by
  intro s t
  refine step_keeps (P := RingsInv) (fun s turns h => h) (fun s q x h => ?_) (fun s q h => h)
    (fun i s admitted h => effect_ringsInv admitted h) (fun s q k h => ?_) (fun s q k h => ?_)
  · exact ringsInv_congr (State.setPort_lcMax ..) (State.ring_setPort s q x) h
  · exact ringsInv_setRing h q (ringInv_syncW ((ringsInv_iff s).mp h q) k)
  · exact ringsInv_setRing h q (ringInv_syncR ((ringsInv_iff s).mp h q) k)

end Sys2Proof.Machine
end

section
/-!
The analyser's invariant (R29, R36..R38, R41, R42, R44, R46): configuration, write offset, accumulators and FrameRing
one by one, then every command.
-/

namespace Sys2Proof.Machine

open Sys2Proof

/-! ## What the invariant speaks of -/

/-- The configuration invariant speaks of the configuration, the window table and the FrameRing's width only. -/
theorem cfgInv_congr {s t : State} (cfg : t.cfg = s.cfg) (win : t.win = s.win) (bins : t.fr.bins = s.fr.bins)
    (h : CfgInv s) : CfgInv t := by
  simpa only [CfgInv, ReadyCfg, cfg, win, bins] using h

/-- A state with the analyser and the variant of one that meets the invariant meets it. -/
theorem analyserInv_congr {s t : State} (variant : t.variant = s.variant) (same : SameAnalyser s t)
    (h : AnalyserInv s) : AnalyserInv t := by
  obtain ⟨⟨cfg, win⟩, ⟨acc0, acc1, writePos, -, -⟩, fr⟩ := same
  simpa only [AnalyserInv, CfgInv, ReadyCfg, OffsetInv, AccFilled, FrameInv, WholeSlot, variant, cfg, win, acc0, acc1,
    writePos, fr] using h

theorem sameAnalyser_setRing (s : State) (q : RingId) (x : SampleRing) : SameAnalyser s (s.setRing q x) := by
  simp [SameAnalyser, SameConfiguration, SameIngest]

theorem sameAnalyser_setPort (s : State) (q : Port) (x : PortState) : SameAnalyser s (s.setPort q x) := by
  simp [SameAnalyser, SameConfiguration, SameIngest]

theorem analyserInv_respond {s : State} (h : AnalyserInv s) (words : List Word) : AnalyserInv (s.respond words) :=
  analyserInv_congr (State.respond_variant ..) (sameAnalyser_setPort ..) h

theorem analyserInv_setRing {s : State} (h : AnalyserInv s) (q : RingId) (x : SampleRing) :
    AnalyserInv (s.setRing q x) := analyserInv_congr (State.setRing_variant ..) (sameAnalyser_setRing ..) h

/-! ## FrameRing -/

/-- A FrameRing without frames and with equal cursors meets its invariant. -/
theorem frameInv_empty {s : State} (cursors : s.fr.w = s.fr.r) (noFrames : s.fr.trueLead = 0) : FrameInv s := by
  refine ⟨by rw [FrameRing.lead, cursors, noFrames, BitVec.sub_self]; rfl, fun i hi => ?_⟩
  rw [noFrames, Nat.zero_min] at hi
  exact absurd hi (Nat.not_lt_zero i)

/-- A push makes the lead one larger, modulo `2^32`. -/
theorem lead_frPush (frame : Slot) (s : State) : (frPush frame s).fr.lead = (s.fr.lead + 1) % 2 ^ 32 := by
  rw [FrameRing.lead, FrameRing.lead, frPush_w, frPush_r, BitVec.add_sub_comm, BitVec.toNat_add]
  rfl

/-- The slots of the 512 sequence numbers up to `w` differ. -/
theorem frameSlot_sub_ne (w : BitVec 32) {i : Nat} (pos : 0 < i) (lt : i < frameSlots) :
    frameSlot (w - BitVec.ofNat 32 i) ≠ frameSlot w := by
  have := w.isLt
  simp only [frameSlot, frameSlots, BitVec.toNat_sub, BitVec.toNat_ofNat] at *
  omega

/-- FR_PUSH of a whole frame keeps the FrameRing's invariant (R232). -/
theorem frameInv_frPush {frame : Slot} {s : State} (whole : WholeSlot s (s.framedSlot frame)) (h : FrameInv s) :
    FrameInv (frPush frame s) := by
  obtain ⟨lead, slots⟩ := h
  refine ⟨by rw [lead_frPush, frPush_trueLead, lead, Nat.mod_add_mod], fun i hi => ?_⟩
  rw [frPush_trueLead] at hi
  rw [frPush_slots, frPush_w, BitVec.add_sub_cancel]
  cases i with
  | zero => exact ⟨_, by rw [BitVec.sub_zero]; exact Memory.read_write_same .., whole⟩
  | succ i =>
    obtain ⟨x, read, wholeOld⟩ := slots i (by omega)
    have older : s.fr.w - BitVec.ofNat 32 (i + 1) = s.fr.w - 1 - BitVec.ofNat 32 i := by
      rw [BitVec.sub_sub, Nat.add_comm, BitVec.ofNat_add]; rfl
    refine ⟨x, ?_, wholeOld⟩
    rw [Memory.read_write_other _ _ (frameSlot_sub_ne s.fr.w (by omega) (by omega)), older, read]

/-- A frame with as many bins as the FrameRing is wide fills a whole slot. -/
theorem wholeSlot_framedSlot {frame : Slot} {s : State} (mag : frame.mag.length = s.fr.bins)
    (pan : s.variant = .stereo → frame.pan.length = s.fr.bins) : WholeSlot s (s.framedSlot frame) := by
  refine ⟨by simp [State.framedSlot, mag], fun stereo => ?_⟩
  simp [State.framedSlot, stereo, pan stereo]

/-- After a pull the cursors agree with the number of frames left (R235). -/
theorem lead_consumed {x : FrameRing} (notEmpty : x.lead ≠ 0) :
    x.consumed.lead = min x.lead frameSlots - 1 := by
  have := x.w.isLt
  have := x.r.isLt
  change (x.w - (x.oldest + 1)).toNat = _
  by_cases overrun : frameSlots < x.lead
  · rw [FrameRing.oldest, if_pos overrun, Nat.min_eq_right overrun.le, frameSlots]
    bv_omega
  · rw [FrameRing.oldest, if_neg overrun, Nat.min_eq_left (Nat.le_of_not_lt overrun)]
    unfold FrameRing.lead at *
    bv_omega

/-- A pull keeps the FrameRing's invariant. -/
theorem frameInv_consumed {s : State} (notAliased : s.fr.trueLead < 2 ^ 32) (notEmpty : s.fr.lead ≠ 0)
    (h : FrameInv s) : FrameInv { s with fr := s.fr.consumed } := by
  obtain ⟨lead, slots⟩ := h
  rw [Nat.mod_eq_of_lt notAliased] at lead
  refine ⟨?_, fun i hi => slots i ?_⟩
  · have left : min s.fr.trueLead frameSlots - 1 < 2 ^ 32 := by omega
    change s.fr.consumed.lead = (min s.fr.trueLead frameSlots - 1) % 2 ^ 32
    rw [lead_consumed notEmpty, lead, Nat.mod_eq_of_lt left]
  · change i < min (min s.fr.trueLead frameSlots - 1) frameSlots at hi
    omega

/-- An admitted pull keeps the analyser's invariant. -/
theorem analyserInv_effect_pull {i : Instr} {s : State} (pull : isPull i.op = true)
    (notAliased : s.fr.trueLead < 2 ^ 32) (h : AnalyserInv s) : AnalyserInv (effect i s) := by
  obtain ⟨fr, words, he, rfl | ⟨notEmpty, rfl⟩⟩ := effect_pull pull s
  · rw [he]; exact analyserInv_respond h words
  · obtain ⟨cfg, offset, filled, frames⟩ := h
    have taken : AnalyserInv { s with fr := s.fr.consumed } :=
      ⟨cfgInv_congr rfl rfl rfl cfg, offset, filled, frameInv_consumed notAliased notEmpty frames⟩
    rw [he]
    exact analyserInv_respond taken words

/-! ## Configuration -/

/-- SETOVERLAP's clamp gives a legal overlap (R157). -/
theorem clampOverlap_legal (f : F32) : OverlapLegal (clampOverlap f) := by
  unfold clampOverlap
  split_ifs with negative large
  · decide
  · decide
  · exact ⟨not_lt.mp negative, not_lt.mp large⟩

theorem one_le_hop (size : Nat) (f : F32) : 1 ≤ Numerics.hop size f := Nat.le_max_left ..

theorem analyserInv_afterPrepare {order : BitVec 8} {s : State} (low : 10 ≤ order.toNat) (high : order.toNat ≤ 13)
    (rate : F32) (h : AnalyserInv s) : AnalyserInv (afterPrepare order rate s) := by
  obtain ⟨⟨legal, -⟩, -⟩ := h
  have kept : (order.setWidth 4).toNat = order.toNat := by
    rw [BitVec.toNat_setWidth]; exact Nat.mod_eq_of_lt (by omega)
  refine ⟨⟨legal, fun _ => ⟨kept ▸ low, kept ▸ high, ?_, rfl, rfl, rfl, rfl⟩⟩, ⟨fun _ => ?_, fun _ => rfl⟩, ⟨?_, ?_⟩,
    frameInv_empty rfl rfl⟩
  · exact congrArg sizeOfOrder kept.symm
  · exact Nat.two_pow_pos _
  · exact fun j hj => absurd hj (Nat.not_lt_zero j)
  · exact fun _ j hj => absurd hj (Nat.not_lt_zero j)

theorem analyserInv_afterSetWindow {s : State} (type : WindowType) (h : AnalyserInv s) :
    AnalyserInv (afterSetWindow type s) := by
  obtain ⟨⟨legal, ready⟩, offset, filled, frames⟩ := h
  refine ⟨⟨legal, fun isReady => ?_⟩, offset, filled, frames⟩
  obtain ⟨low, high, size, bins, hop, width, -⟩ := ready isReady
  refine ⟨low, high, size, bins, hop, width, ?_⟩
  have isReady : s.cfg.state = .ready := isReady
  simp [afterSetWindow, isReady]

theorem analyserInv_afterSetOverlap {s : State} (frac : F32) (h : AnalyserInv s) :
    AnalyserInv (afterSetOverlap frac s) := by
  obtain ⟨⟨-, ready⟩, offset, filled, frames⟩ := h
  refine ⟨⟨clampOverlap_legal frac, fun isReady => ?_⟩, offset, filled, frames⟩
  obtain ⟨low, high, size, bins, -, width, table⟩ := ready isReady
  refine ⟨low, high, size, bins, ?_, width, table⟩
  have isReady : s.cfg.state = .ready := isReady
  simp [afterSetOverlap, isReady]

/-! ## Accumulators -/

/-- The words below an index were written. -/
abbrev FilledBelow (m : Memory F32) (n : Nat) : Prop := ∀ j, j < n → (m.read j).isSome = true

theorem filledBelow_write {m : Memory F32} {n : Nat} (h : FilledBelow m n) (x : F32) :
    FilledBelow (m.write n x) (n + 1) := by
  intro j hj
  rw [Memory.read_write]
  split_ifs with last
  · rfl
  · exact h j (by omega)

theorem filledBelow_shiftDown {m : Memory F32} {size : Nat} (h : FilledBelow m size) (hop : Nat) :
    FilledBelow (m.shiftDown size hop) (size - hop) := by
  intro j hj
  rw [Memory.read_shiftDown, if_pos hj]
  exact h (j + hop) (by omega)

/-! ## Ingest -/

/-- The offset stays below `fftSize` (R29): the shift takes it back by at least one. -/
theorem ingest_writePos_lt {s : State} (hop : 1 ≤ s.cfg.hopSize) (offset : s.writePos < s.cfg.fftSize) (x : F32) :
    (ingest s x).writePos < s.cfg.fftSize := by
  by_cases full : s.writePos + 1 = s.cfg.fftSize
  · rw [ingest_full s x full]
    change s.cfg.fftSize - s.cfg.hopSize < _
    omega
  · rw [ingest_short s x full]
    change s.writePos + 1 < _
    omega

theorem ingest2_writePos_lt {s : State} (hop : 1 ≤ s.cfg.hopSize) (offset : s.writePos < s.cfg.fftSize)
    (x : F32 × F32) : (ingest2 s x).writePos < s.cfg.fftSize := by
  by_cases full : s.writePos + 1 = s.cfg.fftSize
  · rw [ingest2_full s x full]
    change s.cfg.fftSize - s.cfg.hopSize < _
    omega
  · rw [ingest2_short s x full]
    change s.writePos + 1 < _
    omega

theorem ingest_accFilled {s : State} (mono : s.variant = .mono) (h : AccFilled s) (x : F32) :
    AccFilled (ingest s x) := by
  have appended : FilledBelow (append x s).acc0 (s.writePos + 1) := filledBelow_write h.1 x
  refine ⟨?_, fun stereo => by simp [mono] at stereo⟩
  by_cases full : s.writePos + 1 = s.cfg.fftSize
  · rw [ingest_full s x full]
    exact filledBelow_shiftDown (full ▸ appended) s.cfg.hopSize
  · rw [ingest_short s x full]
    exact appended

theorem ingest2_accFilled {s : State} (stereo : s.variant = .stereo) (h : AccFilled s) (x : F32 × F32) :
    AccFilled (ingest2 s x) := by
  have left : FilledBelow (append2 x s).acc0 (s.writePos + 1) := filledBelow_write h.1 x.1
  have right : FilledBelow (append2 x s).acc1 (s.writePos + 1) := filledBelow_write (h.2 stereo) x.2
  by_cases full : s.writePos + 1 = s.cfg.fftSize
  · rw [ingest2_full s x full]
    exact ⟨filledBelow_shiftDown (full ▸ left) s.cfg.hopSize,
      fun _ => filledBelow_shiftDown (full ▸ right) s.cfg.hopSize⟩
  · rw [ingest2_short s x full]
    exact ⟨left, fun _ => right⟩

theorem ingest_frameInv {s : State} (mono : s.variant = .mono) (width : s.fr.bins = s.cfg.numBins) (h : FrameInv s)
    (x : F32) : FrameInv (ingest s x) := by
  by_cases full : s.writePos + 1 = s.cfg.fftSize
  · rw [ingest_full s x full]
    have whole : WholeSlot (append x s) ((append x s).framedSlot (append x s).monoFrame) :=
      wholeSlot_framedSlot ((monoFrame_mag_length _).trans width.symm) fun stereo => by simp [append, mono] at stereo
    exact frameInv_frPush (s := append x s) whole h
  · rw [ingest_short s x full]
    exact h

theorem ingest2_frameInv {s : State} (width : s.fr.bins = s.cfg.numBins) (h : FrameInv s) (x : F32 × F32) :
    FrameInv (ingest2 s x) := by
  by_cases full : s.writePos + 1 = s.cfg.fftSize
  · rw [ingest2_full s x full]
    have whole : WholeSlot (append2 x s) ((append2 x s).framedSlot (append2 x s).stereoFrame) :=
      wholeSlot_framedSlot ((stereoFrame_mag_length _).trans width.symm) fun _ =>
        (stereoFrame_pan_length _).trans width.symm
    exact frameInv_frPush (s := append2 x s) whole h
  · rw [ingest2_short s x full]
    exact h

/-- A Ready block of the given variant that meets the analyser's invariant: what ingest runs on. -/
abbrev Ingesting (variant : Variant) (s : State) : Prop :=
  s.variant = variant ∧ s.cfg.state = .ready ∧ AnalyserInv s

theorem ingest_keeps {s : State} (x : F32) (h : Ingesting .mono s) : Ingesting .mono (ingest s x) := by
  obtain ⟨mono, isReady, cfg, offset, filled, frames⟩ := h
  obtain ⟨-, -, -, -, hop, width, -⟩ := cfg.2 isReady
  refine ⟨by simpa using mono, by simpa using isReady, cfgInv_congr (by simp) (by simp) (by simp) cfg,
    ⟨fun _ => ?_, fun idle => by simp [isReady] at idle⟩, ingest_accFilled mono filled x,
    ingest_frameInv mono width frames x⟩
  rw [ingest_cfg]
  exact ingest_writePos_lt (hop ▸ one_le_hop ..) (offset.1 isReady) x

theorem ingest2_keeps {s : State} (x : F32 × F32) (h : Ingesting .stereo s) : Ingesting .stereo (ingest2 s x) := by
  obtain ⟨stereo, isReady, cfg, offset, filled, frames⟩ := h
  obtain ⟨-, -, -, -, hop, width, -⟩ := cfg.2 isReady
  refine ⟨by simpa using stereo, by simpa using isReady, cfgInv_congr (by simp) (by simp) (by simp) cfg,
    ⟨fun _ => ?_, fun idle => by simp [isReady] at idle⟩, ingest2_accFilled stereo filled x,
    ingest2_frameInv width frames x⟩
  rw [ingest2_cfg]
  exact ingest2_writePos_lt (hop ▸ one_le_hop ..) (offset.1 isReady) x

/-! ## Commands -/

/-- Every admitted command keeps the analyser's invariant. -/
theorem effect_analyserInv {i : Instr} {s : State} (admitted : stopOf i s = none) (h : AnalyserInv s) :
    AnalyserInv (effect i s) := by
  cases i with
  | srSetSize ch lc => exact analyserInv_setRing h ch _
  | srPush ch data => exact analyserInv_setRing h ch _
  | srPop ch n => exact analyserInv_respond (analyserInv_setRing h ch _) _
  | prepare order rate =>
    obtain ⟨-, low, high, -⟩ := (stopOf_prepare order rate s).mp admitted
    exact analyserInv_afterPrepare low high rate h
  | setWindow type => exact analyserInv_afterSetWindow type h
  | setOverlap frac => exact analyserInv_afterSetOverlap frac h
  | pushSamples data =>
    obtain ⟨-, mono, isReady, -⟩ := (stopOf_pushSamples data s).mp admitted
    obtain ⟨-, -, inv⟩ :=
      foldl_invariant (Ingesting .mono) ingest (fun _ => ingest_keeps) data s ⟨mono, isReady, h⟩
    exact inv
  | pushSamples2 left right =>
    obtain ⟨-, stereo, isReady, -⟩ := (stopOf_pushSamples2 left right s).mp admitted
    obtain ⟨-, -, inv⟩ :=
      foldl_invariant (Ingesting .stereo) ingest2 (fun _ => ingest2_keeps) _ s ⟨stereo, isReady, h⟩
    exact inv
  | pullFrame n =>
    obtain ⟨-, -, -, -, notAliased⟩ := (stopOf_pullFrame n s).mp admitted
    exact analyserInv_effect_pull rfl notAliased h
  | pullFrame2 =>
    obtain ⟨-, -, -, -, notAliased⟩ := (stopOf_pullFrame2 s).mp admitted
    exact analyserInv_effect_pull rfl notAliased h
  | _ => exact analyserInv_respond h _

/-- Settles O30, command by command. -/
theorem stepKeepsAnalyserInvariant : Obligations.StepKeepsAnalyserInvariant := by
  intro s t
  refine step_keeps (P := AnalyserInv) (fun s turns h => h) (fun s q x h => ?_) (fun s q h => h)
    (fun i s admitted h => effect_analyserInv admitted h) (fun s q k h => analyserInv_setRing h q _)
    (fun s q k h => analyserInv_setRing h q _)
  exact analyserInv_congr (State.setPort_variant ..) (sameAnalyser_setPort s q x) h

end Sys2Proof.Machine
end

section
/-!
The turn of a port, and the state after reset.
-/

namespace Sys2Proof.Machine

open Sys2Proof

/-! ## The turn of a port (R40, R95) -/

theorem step_run {s : State} {q : Port} {turns : List Turn} (h : s.agenda = .run q :: turns) :
    step s = runPort q { s with agenda := turns } := by
  simp [step, h, takeTurn]

theorem runPort_idle {s : State} {q : Port} {i : Instr} {rest : List Word} (idle : (s.port q).busy = none)
    (decoded : decode q (s.port q).input = .command i rest) : runPort q s = completeOn q i rest s := by
  simp [runPort, idle, decoded]

theorem runPort_busy {s : State} {q : Port} {w : Word} {i : Instr} {rest : List Word} (busy : (s.port q).busy = some w)
    (decoded : decode q (w :: (s.port q).input) = .command i rest) :
    runPort q s = completeOn q (limited (s.port q).measured i) rest s := by
  simp [runPort, finishPort, busy, decoded]

/-- Settles O6, from what the turn of an idle and of a busy port is. -/
theorem stepRunsDecodedCommand : Obligations.StepRunsDecodedCommand := by
  refine ⟨fun s q turns i rest agenda idle decoded => ?_, fun s q turns w i rest agenda busy decoded => ?_,
    fun s agenda => by simp [step, agenda]⟩
  · rw [step_run agenda, runPort_idle (by simpa using idle) (by simpa using decoded), completeOn]
  · rw [step_run agenda, runPort_busy (by simpa using busy) (by simpa using decoded), completeOn,
      State.port_withAgenda]

/-! ## Reset (R49, R290) -/

/-- The reset overlap of the model is legal (R8, R36). -/
theorem resetOverlap_legal : OverlapLegal resetOverlap := clampOverlap_legal _

/-- Settles O20: each value is the one `State.resetWith` writes. -/
theorem resetLeavesSpecValues : Obligations.ResetLeavesSpecValues := by
  refine ⟨⟨.mono, 16, Config.resetWindow, resetOverlap, rfl, by decide, by decide, resetOverlap_legal⟩, ?_⟩
  intro variant lcMax window overlap
  refine ⟨rfl, rfl, rfl, rfl, rfl, fun q => ?_, rfl, rfl, rfl, fun a => ⟨rfl, rfl, rfl, rfl, rfl, rfl⟩⟩
  cases q <;> exact ⟨rfl, rfl, rfl, rfl, rfl, fun a => rfl⟩

theorem reset_ringInv (lcMax : Nat) : RingInv lcMax SampleRing.reset :=
  ⟨fun sized => absurd sized Bool.false_ne_true, fun _ => rfl⟩

theorem resetWith_analyserInv {overlap : F32} (legal : OverlapLegal overlap) (variant : Variant) (lcMax : Nat)
    (window : WindowType) : AnalyserInv (State.resetWith variant lcMax window overlap) := by
  have unconfigured : (State.resetWith variant lcMax window overlap).cfg.state ≠ .ready :=
    (by decide : AnalyserState.unconfigured ≠ .ready)
  exact ⟨⟨legal, fun h => absurd h unconfigured⟩, ⟨fun h => absurd h unconfigured, fun _ => rfl⟩,
    ⟨fun j hj => absurd hj (Nat.not_lt_zero j), fun _ j hj => absurd hj (Nat.not_lt_zero j)⟩,
    frameInv_empty rfl rfl⟩

theorem resetWith_busy (variant : Variant) (lcMax : Nat) (window : WindowType) (overlap : F32) (q : Port) :
    ((State.resetWith variant lcMax window overlap).port q).busy = none := by cases q <;> rfl

/-- Settles O21, invariant by invariant. -/
theorem resetMeetsInvariants : Obligations.ResetMeetsInvariants := by
  refine ⟨fun variant lcMax window overlap legal => ⟨⟨reset_ringInv lcMax, reset_ringInv lcMax⟩,
    resetWith_analyserInv legal variant lcMax window, ?_, fun q w busy => ?_, fun _ => ⟨rfl, rfl, rfl⟩⟩,
    resetOverlap_legal⟩
  · exact ⟨Memory.wf_nil, Memory.wf_nil, Memory.wf_nil, Memory.wf_nil, Memory.wf_nil, Memory.wf_nil, Memory.wf_nil,
      Memory.wf_nil⟩
  · simp [resetWith_busy] at busy

end Sys2Proof.Machine
end

section
/-!
The canonical form of every storage (R60, log 1). What a step can do to a ring is `RingMove`, and each of these moves
keeps the form of the ring's storage; the storages of the analyser are a property that `step_keeps` carries over a step.
-/

namespace Sys2Proof.Machine

open Sys2Proof

theorem RingMove.memoryWf {x y : SampleRing} (move : RingMove x y) (h : x.mem.wf) : y.mem.wf := by
  cases move with
  | stays hy => rwa [hy]
  | resizes lc hy => rw [hy]; exact Memory.wf_nil
  | pushes data hy => rw [hy]; exact Memory.wf_writeRun _ _ _ _ h
  | pops n hy => rwa [hy]
  | syncsW k hy => rw [hy, SampleRing.syncW_frame]; exact h
  | syncsR k hy => rw [hy, SampleRing.syncR_frame]; exact h

/-! ## The storages of the analyser (R41..R44) -/

/-- Window table, accumulators, work buffers and FrameRing are in their canonical form. -/
abbrev AnalyserMemoriesWf (s : State) : Prop :=
  s.win.wf ∧ s.acc0.wf ∧ s.acc1.wf ∧ s.fftbuf0.wf ∧ s.fftbuf1.wf ∧ s.fr.slots.wf

theorem analyserMemoriesWf_congr {s t : State} (same : SameAnalyser s t) (h : AnalyserMemoriesWf s) :
    AnalyserMemoriesWf t := by
  obtain ⟨⟨-, win⟩, ⟨acc0, acc1, -, fftbuf0, fftbuf1⟩, fr⟩ := same
  rwa [AnalyserMemoriesWf, win, acc0, acc1, fftbuf0, fftbuf1, fr]

theorem analyserMemoriesWf_setRing {s : State} (h : AnalyserMemoriesWf s) (q : RingId) (x : SampleRing) :
    AnalyserMemoriesWf (s.setRing q x) := analyserMemoriesWf_congr (sameAnalyser_setRing ..) h

theorem analyserMemoriesWf_respond {s : State} (h : AnalyserMemoriesWf s) (words : List Word) :
    AnalyserMemoriesWf (s.respond words) := analyserMemoriesWf_congr (sameAnalyser_setPort ..) h

theorem windowTable_wf (type : WindowType) (size : Nat) : (windowTable type size).wf := Memory.wf_ofListFrom ..

theorem analyserMemoriesWf_afterPrepare {s : State} (order : BitVec 8) (rate : F32) (h : AnalyserMemoriesWf s) :
    AnalyserMemoriesWf (afterPrepare order rate s) := by
  obtain ⟨-, -, -, fftbuf0, fftbuf1, -⟩ := h
  exact ⟨windowTable_wf .., Memory.wf_nil, Memory.wf_nil, fftbuf0, fftbuf1, Memory.wf_nil⟩

theorem analyserMemoriesWf_afterSetWindow {s : State} (type : WindowType) (h : AnalyserMemoriesWf s) :
    AnalyserMemoriesWf (afterSetWindow type s) := by
  obtain ⟨win, others⟩ := h
  refine ⟨?_, others⟩
  cases hc : s.cfg.state with
  | ready => simpa only [afterSetWindow, hc] using windowTable_wf type s.cfg.fftSize
  | unconfigured => simpa only [afterSetWindow, hc] using win

/-- One sample writes the accumulator, and where it fills it the frame is written, the work buffer is emptied and the
accumulator is shifted (R181..R185). -/
theorem analyserMemoriesWf_ingest {s : State} (x : F32) (h : AnalyserMemoriesWf s) :
    AnalyserMemoriesWf (ingest s x) := by
  obtain ⟨win, acc0, acc1, fftbuf0, fftbuf1, slots⟩ := h
  have written := Memory.wf_write s.acc0 s.writePos x acc0
  by_cases full : s.writePos + 1 = s.cfg.fftSize
  · rw [ingest_full s x full]
    exact ⟨win, Memory.wf_shiftDown _ _ _ written, acc1, Memory.wf_nil, fftbuf1, Memory.wf_write _ _ _ slots⟩
  · rw [ingest_short s x full]
    exact ⟨win, written, acc1, fftbuf0, fftbuf1, slots⟩

theorem analyserMemoriesWf_ingest2 {s : State} (x : F32 × F32) (h : AnalyserMemoriesWf s) :
    AnalyserMemoriesWf (ingest2 s x) := by
  obtain ⟨win, acc0, acc1, fftbuf0, fftbuf1, slots⟩ := h
  have written0 := Memory.wf_write s.acc0 s.writePos x.1 acc0
  have written1 := Memory.wf_write s.acc1 s.writePos x.2 acc1
  by_cases full : s.writePos + 1 = s.cfg.fftSize
  · rw [ingest2_full s x full]
    exact ⟨win, Memory.wf_shiftDown _ _ _ written0, Memory.wf_shiftDown _ _ _ written1, Memory.wf_nil, Memory.wf_nil,
      Memory.wf_write _ _ _ slots⟩
  · rw [ingest2_short s x full]
    exact ⟨win, written0, written1, fftbuf0, fftbuf1, slots⟩

/-- A pull moves cursors only. -/
theorem analyserMemoriesWf_effect_pull {i : Instr} {s : State} (pull : isPull i.op = true)
    (h : AnalyserMemoriesWf s) : AnalyserMemoriesWf (effect i s) := by
  obtain ⟨fr, words, he, hfr⟩ := effect_pull pull s
  rw [he]
  apply analyserMemoriesWf_respond
  obtain rfl | ⟨-, rfl⟩ := hfr <;> exact h

theorem effect_analyserMemoriesWf (i : Instr) {s : State} (h : AnalyserMemoriesWf s) :
    AnalyserMemoriesWf (effect i s) := by
  cases i with
  | srSetSize ch lc => exact analyserMemoriesWf_setRing h ch _
  | srPush ch data => exact analyserMemoriesWf_setRing h ch _
  | srPop ch n => exact analyserMemoriesWf_respond (analyserMemoriesWf_setRing h ch _) _
  | prepare order rate => exact analyserMemoriesWf_afterPrepare order rate h
  | setWindow type => exact analyserMemoriesWf_afterSetWindow type h
  | setOverlap frac => exact h
  | pushSamples data => exact foldl_invariant AnalyserMemoriesWf ingest (fun _ => analyserMemoriesWf_ingest) data s h
  | pushSamples2 left right =>
    exact foldl_invariant AnalyserMemoriesWf ingest2 (fun _ => analyserMemoriesWf_ingest2) _ s h
  | pullFrame n => exact analyserMemoriesWf_effect_pull rfl h
  | pullFrame2 => exact analyserMemoriesWf_effect_pull rfl h
  | _ => exact analyserMemoriesWf_respond h _

theorem step_analyserMemoriesWf {s t : State} (h : AnalyserMemoriesWf s) (hstep : step s = .next t) :
    AnalyserMemoriesWf t :=
  step_keeps (P := AnalyserMemoriesWf) (fun _ _ h => h)
    (fun s q x h => analyserMemoriesWf_congr (sameAnalyser_setPort s q x) h) (fun _ _ h => h)
    (fun i _ _ h => effect_analyserMemoriesWf i h) (fun _ q _ h => analyserMemoriesWf_setRing h q _)
    (fun _ q _ h => analyserMemoriesWf_setRing h q _) h hstep

/-- Settles O31: the rings by their moves, the storages of the analyser by the commands. -/
theorem stepKeepsMemoriesCanonical : Obligations.StepKeepsMemoriesCanonical := by
  intro s t ⟨ring0, ring1, analyser⟩ hstep
  exact ⟨(step_ring hstep .ring0).memoryWf ring0, (step_ring hstep .ring1).memoryWf ring1,
    step_analyserMemoriesWf analyser hstep⟩

end Sys2Proof.Machine
end

section
/-!
The byte order of a serialised word (R61): the four bytes of a word are its four fields of eight bits, so joined again
they are the word, and byte `k` counts `2^(8k)`.
-/

namespace Sys2Proof

open Sys2Proof

theorem append_bytesOfWord (w : Word) :
    (w.extractLsb' 24 8 ++ (w.extractLsb' 16 8 ++ (w.extractLsb' 8 8 ++ w.extractLsb' 0 8)) : Word) = w := by
  calc (w.extractLsb' 24 8 ++ (w.extractLsb' 16 8 ++ (w.extractLsb' 8 8 ++ w.extractLsb' 0 8)) : Word)
      = w.extractLsb' 0 32 := by
        rw [BitVec.extractLsb'_append_extractLsb'_eq_extractLsb' (by rfl),
          BitVec.extractLsb'_append_extractLsb'_eq_extractLsb' (by rfl),
          BitVec.extractLsb'_append_extractLsb'_eq_extractLsb' (by rfl)]
    _ = w := BitVec.extractLsb'_eq_self

theorem wordsOfBytes_bytesOfWord (w : Word) (rest : List Byte) :
    wordsOfBytes (bytesOfWord w ++ rest) = w :: wordsOfBytes rest :=
  congrArg (· :: wordsOfBytes rest) (append_bytesOfWord w)

theorem wordsOfBytes_bytesOfWords (ws : List Word) : wordsOfBytes (bytesOfWords ws) = ws := by
  induction ws with
  | nil => rfl
  | cons w ws ih => rw [bytesOfWords, wordsOfBytes_bytesOfWord, ih]

/-- Settles O5, word by word. -/
theorem serialisedWordsAreLittleEndian : Obligations.SerialisedWordsAreLittleEndian := by
  refine ⟨wordsOfBytes_bytesOfWords, fun w b0 b1 b2 b3 h => ?_⟩
  simp only [bytesOfWord, List.cons.injEq, and_true] at h
  obtain ⟨rfl, rfl, rfl, rfl⟩ := h
  simp only [BitVec.extractLsb'_toNat, Nat.shiftRight_eq_div_pow]
  omega

end Sys2Proof
end

section
/-!
The synchroniser steps in numbers (R66, R68, R69): the Gray code drops out, and a view that goes as far as its distance
to a value reaches it.
-/

namespace Sys2Proof.Machine

open Sys2Proof

variable {x : SampleRing}

theorem syncW_eq (sized : x.sized = true) (k : Nat) :
    x.syncW k = { x with wv := cursorAdd x.capacity x.wv (min k (cursorDiff x.capacity x.wp x.wv)) } := by
  simp only [SampleRing.syncW, sized, if_true, SampleRing.throughGray_cursorAdd]

theorem syncR_eq (sized : x.sized = true) (k : Nat) :
    x.syncR k = { x with rv := cursorAdd x.capacity x.rv (min k (cursorDiff x.capacity x.rp x.rv)) } := by
  simp only [SampleRing.syncR, sized, if_true, SampleRing.throughGray_cursorAdd]

/-- A view reaches every value up to its cursor, by the distance to that value. -/
theorem cursorAdd_min_diff {c view cursor v : Nat} (hview : view < 2 * c) (hv : v < 2 * c)
    (upTo : cursorDiff c v view ≤ cursorDiff c cursor view) :
    cursorAdd c view (min (cursorDiff c v view) (cursorDiff c cursor view)) = v := by
  rw [Nat.min_eq_left upTo, cursorAdd_diff hv hview]

theorem syncW_reaches {v : Nat} (sized : x.sized = true) (hwv : x.wv < 2 * x.capacity) (hv : v < 2 * x.capacity)
    (upTo : cursorDiff x.capacity v x.wv ≤ cursorDiff x.capacity x.wp x.wv) : ∃ k, (x.syncW k).wv = v :=
  ⟨cursorDiff x.capacity v x.wv, by rw [syncW_eq sized]; exact cursorAdd_min_diff hwv hv upTo⟩

theorem syncR_reaches {v : Nat} (sized : x.sized = true) (hrv : x.rv < 2 * x.capacity) (hv : v < 2 * x.capacity)
    (upTo : cursorDiff x.capacity v x.rv ≤ cursorDiff x.capacity x.rp x.rv) : ∃ k, (x.syncR k).rv = v :=
  ⟨cursorDiff x.capacity v x.rv, by rw [syncR_eq sized]; exact cursorAdd_min_diff hrv hv upTo⟩

theorem step_syncW {s : State} {q : RingId} {k : Nat} {turns : List Turn} (h : s.agenda = .syncW q k :: turns) :
    step s = .next ({ s with agenda := turns }.setRing q ((s.ring q).syncW k)) := by
  simp [step, h, takeTurn]

theorem step_syncR {s : State} {q : RingId} {k : Nat} {turns : List Turn} (h : s.agenda = .syncR q k :: turns) :
    step s = .next ({ s with agenda := turns }.setRing q ((s.ring q).syncR k)) := by
  simp [step, h, takeTurn]

/-- Settles O18: each synchroniser step by its equation, each value by its distance from the view. -/
theorem viewsMoveForwardToCursor : Obligations.ViewsMoveForwardToCursor := by
  rintro s q k turns sized ⟨-, -, -, -, hrv, hwv⟩
  refine ⟨fun agenda => ?_, fun agenda => ?_, fun v => syncW_reaches sized hwv, fun v => syncR_reaches sized hrv⟩
  · rw [step_syncW agenda, syncW_eq sized]; rfl
  · rw [step_syncR agenda, syncR_eq sized]; rfl

end Sys2Proof.Machine
end

section
/-!
Reconfiguration is alone (R77, R273, R297, R298; log 13). `races_iff` reads the test of the race in the words of Safety;
from it the fault, and that the commands in progress stay so through every step.
-/

namespace Sys2Proof.Machine

open Sys2Proof

/-! ## The race -/

theorem isReconfig_iff (op : Op) :
    isReconfig op = true ↔ op = .srSetSize ∨ op = .prepare ∨ op = .setWindow ∨ op = .setOverlap := by
  cases op <;> simp [isReconfig]

/-- Only port `G` accepts a reconfiguration command (R94). -/
theorem isReconfig_ports {op : Op} (h : isReconfig op = true) : op.row.ports = [.g] := by
  obtain rfl | rfl | rfl | rfl := (isReconfig_iff op).mp h <;> rfl

theorem eq_g_of_isReconfig {op : Op} {q : Port} (accepted : op.row.ports.contains q = true)
    (h : isReconfig op = true) : q = .g := by
  simpa [isReconfig_ports h] using accepted

/-- A command its port accepts races as a reconfiguration command beside busy ports, or on another port than `G` beside a
reconfiguration command in progress. -/
theorem races_iff {s : State} {op : Op} (accepted : op.row.ports.contains s.active = true) :
    s.races op = true ↔ (isReconfig op = true ∧ ¬ OthersIdle s) ∨ (s.active ≠ .g ∧ ¬ Settled s) := by
  unfold State.races
  cases reconfig : isReconfig op with
  | true => simp [eq_g_of_isReconfig accepted reconfig, othersBusy_iff]
  | false => simp [reconfigInProgress_iff]

theorem reservedTest_accepted {i : Instr} {s : State} (h : reservedTest i s = none) :
    i.op.row.ports.contains s.active = true := by
  unfold reservedTest at h
  by_contra refused
  rw [if_pos (Bool.eq_false_of_not_eq_true refused)] at h
  cases h

theorem hazardTest_race_iff (i : Instr) (s : State) :
    hazardTest i s = some (.fault .reconfigRace) ↔ s.races i.op = true := by
  unfold hazardTest
  cases s.races i.op <;> simp

/-- An admitted command is on a port that accepts it and does not race. -/
theorem admitted_races {i : Instr} {s : State} (admitted : stopOf i s = none) :
    i.op.row.ports.contains s.active = true ∧ s.races i.op = false := by
  obtain ⟨reserved, -, -, hazard⟩ := (stopOf_none_iff i s).mp admitted
  refine ⟨reservedTest_accepted reserved, Bool.eq_false_of_not_eq_true fun race => ?_⟩
  rw [(hazardTest_race_iff i s).mpr race] at hazard
  cases hazard

theorem exec_fault_iff (i : Instr) (s : State) (f : Fault) : exec i s = .fault f ↔ stopOf i s = some (.fault f) := by
  rw [exec_eq_guarded, guarded]
  cases stopOf i s with
  | none => simp
  | some stop => cases stop <;> simp [Stop.outcome]

/-- Settles O53: past the earlier tests a command stops where its hazard test says. -/
theorem reconfigurationRaceFaults : Obligations.ReconfigurationRaceFaults := by
  intro i s reserved operand state
  have stop : stopOf i s = hazardTest i s := by simp [stopOf, reserved, operand, state]
  rw [exec_fault_iff, stop, hazardTest_race_iff, races_iff (reservedTest_accepted reserved), isReconfig_iff]

/-! ## The commands in progress -/

/-- No command changes which commands are in progress. -/
@[simp] theorem effect_busy (i : Instr) (s : State) (q : Port) : ((effect i s).port q).busy = (s.port q).busy := by
  cases i with
  | srSetSize ch lc => exact congrArg PortState.busy (by cases q <;> cases ch <;> rfl)
  | srPush ch data => exact congrArg PortState.busy (State.port_setRing ..)
  | srPop ch n => exact (State.respond_busy ..).trans (congrArg PortState.busy (State.port_setRing ..))
  | prepare order rate => cases q <;> rfl
  | setWindow type => cases q <;> rfl
  | setOverlap frac => cases q <;> rfl
  | pushSamples data => cases q <;> simp [effect, State.port]
  | pushSamples2 left right => cases q <;> simp [effect, State.port]
  | pullFrame n =>
    exact effect_pull_keeps rfl (fun t => (t.port q).busy) (State.respond_busy · · q) (fun _ _ => by cases q <;> rfl) s
  | pullFrame2 =>
    exact effect_pull_keeps rfl (fun t => (t.port q).busy) (State.respond_busy · · q) (fun _ _ => by cases q <;> rfl) s
  | _ => exact State.respond_busy ..

theorem onPort_busy_same (q : Port) (input : List Word) (busy : Option Word) (measured : Option Nat) (s : State) :
    ((onPort q input busy measured s).port q).busy = busy := by
  rw [onPort, State.port_withActive, State.port_setPort_same]

theorem onPort_busy_other {q o : Port} (h : o ≠ q) (input : List Word) (busy : Option Word) (measured : Option Nat)
    (s : State) : ((onPort q input busy measured s).port o).busy = (s.port o).busy := by
  rw [onPort, State.port_withActive, State.port_setPort_other _ _ h]

theorem othersIdle_iff (s : State) : OthersIdle s ↔ ∀ q, q ≠ .g → (s.port q).busy = none := by
  refine ⟨fun ⟨p, d, r⟩ q hq => ?_, fun h => ⟨h .p (by decide), h .d (by decide), h .r (by decide)⟩⟩
  cases q with
  | p => exact p
  | d => exact d
  | r => exact r
  | g => exact absurd rfl hq

/-- Whether a reconfiguration command is in progress is told by the command in progress on port `G`. -/
theorem settled_congr {s t : State} (same : (t.port .g).busy = (s.port .g).busy) : Settled t ↔ Settled s := by
  rw [Settled, Settled, State.busyOp, State.busyOp, same]

/-- Each command in progress is one its port accepts, and a reconfiguration in progress is alone. -/
abbrev BusyInv (s : State) : Prop := BusyAccepted s ∧ ReconfigAlone s

theorem busyInv_congr {s t : State} (same : ∀ q, (t.port q).busy = (s.port q).busy) (h : BusyInv s) : BusyInv t := by
  obtain ⟨accepted, alone⟩ := h
  refine ⟨fun q w => same q ▸ accepted q w, fun reconfig => ?_⟩
  have idle := alone (mt (settled_congr (same .g)).mpr reconfig)
  exact (othersIdle_iff t).mpr fun q hq => (same q).trans ((othersIdle_iff s).mp idle q hq)

section OnePort

variable {s t : State} {q : Port} (others : ∀ o, o ≠ q → (t.port o).busy = (s.port o).busy)
include others

/-- A port that has completed its command keeps the invariant. -/
theorem busyInv_idle (idle : (t.port q).busy = none) (h : BusyInv s) : BusyInv t := by
  obtain ⟨accepted, alone⟩ := h
  refine ⟨fun o w busy => ?_, fun reconfig => (othersIdle_iff t).mpr fun o ho => ?_⟩
  · by_cases same : o = q
    · rw [same, idle] at busy; cases busy
    · exact accepted o w (others o same ▸ busy)
  · have notG : Port.g ≠ q := by
      rintro rfl
      exact reconfig (by simp [Settled, State.busyOp, idle])
    have othersIdle := alone (mt (settled_congr (others .g notG)).mpr reconfig)
    by_cases same : o = q
    · rw [same, idle]
    · rw [others o same, (othersIdle_iff s).mp othersIdle o ho]

/-- A port with a command in progress that it accepts and that does not race keeps the invariant. -/
theorem busyInv_busy {w : Word} {op : Op} (busy : (t.port q).busy = some w) (row : opOf w = some op)
    (ofPort : op.row.ports.contains q = true) (notBeside : isReconfig op = true → OthersIdle s)
    (notUnder : q ≠ .g → Settled s) (h : BusyInv s) : BusyInv t := by
  obtain ⟨accepted, -⟩ := h
  refine ⟨fun o v hv => ?_, fun reconfig => ?_⟩
  · by_cases same : o = q
    · subst same
      obtain rfl : w = v := Option.some.inj (busy.symm.trans hv)
      exact ⟨op, row, ofPort⟩
    · exact accepted o v (others o same ▸ hv)
  · by_cases hq : q = .g
    · subst hq
      have hop : isReconfig op = true := by simpa [State.busyOp, busy, row] using reconfig
      exact (othersIdle_iff t).mpr fun o ho => (others o ho).trans ((othersIdle_iff s).mp (notBeside hop) o ho)
    · exact absurd ((settled_congr (others .g (Ne.symm hq))).mpr (notUnder hq)) reconfig

end OnePort

/-- A command that completes leaves its port idle and the others as they were. -/
theorem completed_busy {i : Instr} {q : Port} {input : List Word} {s t : State}
    (h : exec i (onPort q input none none s) = .next t) :
    (t.port q).busy = none ∧ ∀ o, o ≠ q → (t.port o).busy = (s.port o).busy := by
  obtain ⟨-, rfl⟩ := (exec_next_iff ..).mp h
  exact ⟨by rw [effect_busy, onPort_busy_same], fun o ho => by rw [effect_busy, onPort_busy_other ho]⟩

/-- What is left of a PUSHSAMPLES or PUSHSAMPLES2 is a command of the same row (R181, R211). -/
theorem opOf_remainingHead {w : Word} {op : Op} (row : opOf w = some op) (isPush : op = .pushSamples ∨ op = .pushSamples2)
    (k : Nat) : opOf (remainingHead w k) = some op := by
  have opcode := Op.opc_of_accepts ((opOf_eq_some_iff w op).mp row)
  rw [opOf_eq_some_iff, remainingHead, opcode]
  obtain rfl | rfl := isPush <;> exact Laws.HeadRoundTrip.accepts_counted _ _ _ rfl rfl

theorem TurnCase.busyInv {s t : State} (turn : TurnCase s t) (h : BusyInv s) : BusyInv t := by
  cases turn with
  | waits ht => rwa [ht]
  | completes q i input ht =>
    obtain ⟨idle, others⟩ := completed_busy ht
    exact busyInv_idle others idle h
  | begins q w input op _ _ row admitted ht =>
    obtain ⟨accepted, races⟩ := admitted_races admitted
    rw [op_assemble] at accepted races
    have noRace := mt (races_iff accepted).mpr (by simp [races])
    subst ht
    refine busyInv_busy (fun o ho => onPort_busy_other ho ..) (onPort_busy_same ..) row accepted ?_ ?_ h
    · exact fun reconfig => by_contra fun busy => noRace (.inl ⟨reconfig, busy⟩)
    · exact fun notG => by_contra fun reconfig => noRace (.inr ⟨notG, reconfig⟩)
  | parts w k op i input u busy row _ isPush hu ht =>
    obtain ⟨-, others⟩ := completed_busy hu
    have settled : Settled s := by_contra fun reconfig => by simpa [busy] using (h.2 reconfig).2.1
    subst ht
    refine busyInv_busy (q := .d) (fun o ho => ?_) (by rw [State.port_setPort_same])
      (opOf_remainingHead row isPush k) ?_ ?_ (fun _ => settled) h
    · rw [State.port_setPort_other _ _ ho, others o ho]
    · obtain rfl | rfl := isPush <;> rfl
    · obtain rfl | rfl := isPush <;> exact fun reconfig => absurd reconfig Bool.false_ne_true
  | syncW q k ht => exact busyInv_congr (fun o => by rw [ht, State.port_setRing]) h
  | syncR q k ht => exact busyInv_congr (fun o => by rw [ht, State.port_setRing]) h

/-- Settles O32, turn by turn. -/
theorem stepKeepsReconfigurationAlone : Obligations.StepKeepsReconfigurationAlone := by
  intro s t accepted alone hstep
  obtain ⟨-, rfl⟩ | ⟨turn, turns, -, turnCase⟩ := step_cases hstep
  · exact ⟨accepted, alone⟩
  · exact turnCase.busyInv (busyInv_congr (fun q => by rw [State.port_withAgenda]) ⟨accepted, alone⟩)

end Sys2Proof.Machine
end

section
/-!
Encoding and decoding (R91..R95) are inverse. One way, the command word selects its row and its fields read back the
operands; the other way, the bits under a row's mask are those of its pattern, so a word is its opcode, its fields and
the row's fixed bits, and no bit is lost.
-/

namespace Sys2Proof

open Sys2Proof

/-! ## Fields of an encoded word (R92, R93) -/

@[simp] theorem ringOfBit_bit (ch : RingId) : ringOfBit ch.bit = ch := by cases ch <;> rfl

@[simp] theorem windowOfBit_bit (type : WindowType) : windowOfBit type.bit = type := by cases type <;> rfl

theorem bit_ringOfBit : ∀ b : BitVec 1, (ringOfBit b).bit = b := by decide

theorem bit_windowOfBit : ∀ b : BitVec 1, (windowOfBit b).bit = b := by decide

theorem fieldCh_append (t : BitVec 8) (c : BitVec 1) (x : BitVec 23) :
    fieldCh (t ++ (c ++ x : BitVec 24) : Word) = c :=
  (BitVec.extractLsb'_append_eq_of_add_le (by decide)).trans BitVec.extractLsb'_append_eq_left

theorem ringOfBit_fieldCh (t : BitVec 8) (ch : RingId) (x : BitVec 23) :
    ringOfBit (fieldCh (t ++ (ch.bit ++ x : BitVec 24) : Word)) = ch := by rw [fieldCh_append, ringOfBit_bit]

theorem fieldLc_append (t : BitVec 8) (c : BitVec 1) (z : BitVec 18) (lc : BitVec 5) :
    fieldLc (t ++ (c ++ (z ++ lc : BitVec 23) : BitVec 24) : Word) = lc := by
  calc fieldLc (t ++ (c ++ (z ++ lc : BitVec 23) : BitVec 24) : Word)
      = (c ++ (z ++ lc : BitVec 23) : BitVec 24).extractLsb' 0 5 := BitVec.extractLsb'_append_eq_of_add_le (by decide)
    _ = (z ++ lc : BitVec 23).extractLsb' 0 5 := BitVec.extractLsb'_append_eq_of_add_le (by decide)
    _ = lc := BitVec.extractLsb'_append_eq_right

theorem fieldK8_append (t : BitVec 8) (z : BitVec 16) (k : BitVec 8) : fieldK8 (t ++ (z ++ k : BitVec 24) : Word) = k :=
  (BitVec.extractLsb'_append_eq_of_add_le (by decide)).trans BitVec.extractLsb'_append_eq_right

theorem fieldType_append (t : BitVec 8) (z : BitVec 23) (b : BitVec 1) :
    fieldType (t ++ (z ++ b : BitVec 24) : Word) = b :=
  (BitVec.extractLsb'_append_eq_of_add_le (by decide)).trans BitVec.extractLsb'_append_eq_right

theorem windowOfBit_fieldType (t : BitVec 8) (z : BitVec 23) (type : WindowType) :
    windowOfBit (fieldType (t ++ (z ++ type.bit : BitVec 24) : Word)) = type := by
  rw [fieldType_append, windowOfBit_bit]

/-! ## Decoding, said once (R91, R95) -/

/-- What decodes to a command is a word of a row of the port and enough words after it. -/
theorem decode_command_iff (q : Port) (words : List Word) (i : Instr) (rest : List Word) :
    decode q words = .command i rest ↔
      ∃ w payload op, words = w :: payload ∧ opOf w = some op ∧ op.row.ports.contains q = true
        ∧ op.need w ≤ payload.length ∧ i = assemble op w payload ∧ rest = payload.drop (op.need w) := by
  constructor
  · intro h
    cases words with
    | nil => cases h
    | cons w payload =>
      cases row : opOf w with
      | none => simp [decode, row] at h
      | some op =>
        simp only [decode, row] at h
        split_ifs at h with refused enough
        cases h
        exact ⟨w, payload, op, rfl, row, Bool.eq_true_of_not_eq_false refused, enough, rfl, rfl⟩
  · rintro ⟨w, payload, op, rfl, row, accepted, enough, rfl, rfl⟩
    simp only [decode, row, accepted, Bool.true_eq_false, if_false, if_pos enough]

/-! ## Decoding what was encoded -/

/-- The command word of a well-formed command selects its row and asks for its payload's length. -/
theorem headRoundTrip (i : Instr) : Laws.HeadRoundTrip.Statement i := by
  cases i with
  | srSetSize ch lc => exact Laws.HeadRoundTrip.srSetSize ch lc
  | srPush ch data => exact Laws.HeadRoundTrip.srPush ch data
  | srPop ch n => exact Laws.HeadRoundTrip.srPop ch n
  | srGetFree ch => exact Laws.HeadRoundTrip.srGetFree ch
  | srGetReady ch => exact Laws.HeadRoundTrip.srGetReady ch
  | prepare order rate => exact Laws.HeadRoundTrip.prepare order rate
  | setWindow type => exact Laws.HeadRoundTrip.setWindow type
  | setOverlap frac => exact Laws.HeadRoundTrip.setOverlap frac
  | getFftSize => exact Laws.HeadRoundTrip.getFftSize
  | getNumBins => exact Laws.HeadRoundTrip.getNumBins
  | getSampleRate => exact Laws.HeadRoundTrip.getSampleRate
  | pushSamples data => exact Laws.HeadRoundTrip.pushSamples data
  | pushSamples2 left right => exact Laws.HeadRoundTrip.pushSamples2 left right
  | pullFrame n => exact Laws.HeadRoundTrip.pullFrame n
  | pullFrame2 => exact Laws.HeadRoundTrip.pullFrame2

/-- Two payloads of one length, taken apart at half their count (R92, R211). -/
theorem take_append_halves {left right : List Word} {n : Nat} (same : left.length = right.length)
    (count : 2 * n = (left ++ right).length) (rest : List Word) :
    (left ++ right ++ rest).take n = left ∧ ((left ++ right ++ rest).drop n).take n = right := by
  rw [List.length_append] at count
  rw [List.append_assoc, List.drop_left' (by omega)]
  exact ⟨List.take_left' (by omega), List.take_left' (by omega)⟩

/-- The fields of a command's word and the payload after it make the command again. -/
theorem assemble_encode {i : Instr} (h : i.wellFormed = true) (rest : List Word) :
    assemble i.op (encodeHead i) (encodePayload i ++ rest) = i := by
  obtain ⟨-, count⟩ := headRoundTrip i h
  cases i with
  | srSetSize ch lc => exact congrArg₂ Instr.srSetSize (ringOfBit_fieldCh ..) (fieldLc_append ..)
  | srPush ch data => exact congrArg₂ Instr.srPush (ringOfBit_fieldCh ..) (List.take_left' count.symm)
  | srPop ch n =>
    exact congrArg₂ Instr.srPop (ringOfBit_fieldCh ..) (Laws.HeadRoundTrip.fieldN23_counted ..)
  | srGetFree ch => exact congrArg Instr.srGetFree (ringOfBit_fieldCh ..)
  | srGetReady ch => exact congrArg Instr.srGetReady (ringOfBit_fieldCh ..)
  | prepare order rate => exact congrArg (Instr.prepare · rate) (fieldK8_append ..)
  | setWindow type => exact congrArg Instr.setWindow (windowOfBit_fieldType ..)
  | setOverlap frac => rfl
  | getFftSize => rfl
  | getNumBins => rfl
  | getSampleRate => rfl
  | pushSamples data => exact congrArg Instr.pushSamples (List.take_left' count.symm)
  | pushSamples2 left right =>
    obtain ⟨-, same⟩ : left.length < 2 ^ 24 ∧ left.length = right.length := by simpa [Instr.wellFormed] using h
    obtain ⟨hl, hr⟩ := take_append_halves same count rest
    exact congrArg₂ Instr.pushSamples2 hl hr
  | pullFrame n => exact congrArg Instr.pullFrame (Laws.HeadRoundTrip.fieldN24_counted ..)
  | pullFrame2 => rfl

/-- Settles O2: the command word selects the command's row, the row counts the payload, and the fields read back. -/
theorem decodeInvertsEncode : Obligations.DecodeInvertsEncode := by
  intro i rest q wellFormed accepted
  obtain ⟨row, count⟩ := headRoundTrip i wellFormed
  refine (decode_command_iff ..).mpr ⟨encodeHead i, encodePayload i ++ rest, i.op, rfl, row,
    List.contains_iff_mem.mpr accepted, ?_, (assemble_encode wellFormed rest).symm, ?_⟩
  · rw [count, List.length_append]
    exact Nat.le_add_right ..
  · rw [count, List.drop_left]

/-! ## The words of a row (R94) -/

/-- Where a row's mask is all ones, a word the row accepts has the bits of the row's pattern. -/
theorem Op.extract_of_accepts {op : Op} {w : Word} (h : op.accepts w = true) {start len : Nat}
    (fixed : op.row.mask.extractLsb' start len = BitVec.allOnes len) :
    w.extractLsb' start len = op.row.pattern.extractLsb' start len := by
  rw [Op.accepts, beq_iff_eq] at h
  rw [← h, BitVec.extractLsb'_and, fixed, BitVec.and_allOnes]

/-- A row whose mask is all ones accepts its pattern only. -/
theorem Op.eq_pattern_of_accepts {op : Op} {w : Word} (h : op.accepts w = true)
    (fixed : op.row.mask = BitVec.allOnes 32) : w = op.row.pattern := by
  rwa [Op.accepts, beq_iff_eq, fixed, BitVec.and_allOnes] at h

/-- A command word is its opcode and its lower 24 bits. -/
theorem opc_append_fieldN24 {op : Op} {w : Word} (h : op.accepts w = true) : (op.opc ++ fieldN24 w : Word) = w := by
  rw [← Op.opc_of_accepts h]
  exact (BitVec.extractLsb'_append_extractLsb'_eq_extractLsb' (by rfl)).trans BitVec.extractLsb'_eq_self

/-- A field of `len` bits and the `start` bits below it are the lowest `len + start` bits. -/
theorem extract_append_extract (w : Word) (start len : Nat) :
    (w.extractLsb' start len ++ w.extractLsb' 0 start) = w.extractLsb' 0 (len + start) :=
  BitVec.extractLsb'_append_extractLsb'_eq_extractLsb' (by omega)

/-! ## Encoding what was decoded -/

theorem encodeHead_assemble {op : Op} {w : Word} {payload : List Word} (h : op.accepts w = true)
    (enough : op.need w ≤ payload.length) : encodeHead (assemble op w payload) = w := by
  have word := opc_append_fieldN24 h
  have chField : (fieldCh w ++ fieldN23 w : BitVec 24) = fieldN24 w := extract_append_extract w 23 1
  cases op with
  | srSetSize =>
    have zero : w.extractLsb' 5 18 = 0#18 := Op.extract_of_accepts h (by decide)
    have low : (0#18 ++ fieldLc w : BitVec 23) = fieldN23 w := by rw [← zero]; exact extract_append_extract w 5 18
    simp only [assemble, encodeHead, bit_ringOfBit, low, chField]
    exact word
  | srPush =>
    change (fieldN23 w).toNat ≤ _ at enough
    simp only [assemble, encodeHead, bit_ringOfBit, List.length_take_of_le enough, BitVec.ofNat_toNat,
      BitVec.setWidth_eq, chField]
    exact word
  | srPop =>
    simp only [assemble, encodeHead, bit_ringOfBit, chField]
    exact word
  | srGetFree =>
    have zero : fieldN23 w = 0#23 := Op.extract_of_accepts h (by decide)
    simp only [assemble, encodeHead, bit_ringOfBit, ← zero, chField]
    exact word
  | srGetReady =>
    have zero : fieldN23 w = 0#23 := Op.extract_of_accepts h (by decide)
    simp only [assemble, encodeHead, bit_ringOfBit, ← zero, chField]
    exact word
  | prepare =>
    have zero : w.extractLsb' 8 16 = 0#16 := Op.extract_of_accepts h (by decide)
    have low : (0#16 ++ fieldK8 w : BitVec 24) = fieldN24 w := by rw [← zero]; exact extract_append_extract w 8 16
    simp only [assemble, encodeHead, low]
    exact word
  | setWindow =>
    have zero : w.extractLsb' 1 23 = 0#23 := Op.extract_of_accepts h (by decide)
    have low : (0#23 ++ fieldType w : BitVec 24) = fieldN24 w := by rw [← zero]; exact extract_append_extract w 1 23
    simp only [assemble, encodeHead, bit_windowOfBit, low]
    exact word
  | pushSamples =>
    change (fieldN24 w).toNat ≤ _ at enough
    simp only [assemble, encodeHead, List.length_take_of_le enough, BitVec.ofNat_toNat, BitVec.setWidth_eq]
    exact word
  | pushSamples2 =>
    change 2 * (fieldN24 w).toNat ≤ _ at enough
    have left : (payload.take (fieldN24 w).toNat).length = (fieldN24 w).toNat := List.length_take_of_le (by omega)
    simp only [assemble, encodeHead, left, BitVec.ofNat_toNat, BitVec.setWidth_eq]
    exact word
  | pullFrame => exact word
  | setOverlap => exact (Op.eq_pattern_of_accepts h rfl).symm
  | getFftSize => exact (Op.eq_pattern_of_accepts h rfl).symm
  | getNumBins => exact (Op.eq_pattern_of_accepts h rfl).symm
  | getSampleRate => exact (Op.eq_pattern_of_accepts h rfl).symm
  | pullFrame2 => exact (Op.eq_pattern_of_accepts h rfl).symm

/-- An operand word is the first of the words after the command word. -/
theorem headD_eq_take_one {payload : List Word} (enough : 1 ≤ payload.length) :
    [payload.headD 0] = payload.take 1 := by
  cases payload with
  | nil => exact absurd enough (by decide)
  | cons x xs => rfl

theorem encodePayload_assemble {op : Op} {w : Word} {payload : List Word} (enough : op.need w ≤ payload.length) :
    encodePayload (assemble op w payload) = payload.take (op.need w) := by
  cases op with
  | prepare => exact headD_eq_take_one enough
  | setOverlap => exact headD_eq_take_one enough
  | pushSamples2 =>
    simp only [assemble, encodePayload, Op.need, Nat.two_mul, List.take_add]
  | _ => rfl

theorem wellFormed_assemble {op : Op} {w : Word} {payload : List Word} (enough : op.need w ≤ payload.length) :
    (assemble op w payload).wellFormed = true := by
  cases op with
  | srPush => exact decide_eq_true ((List.length_take_le ..).trans_lt (fieldN23 w).isLt)
  | pushSamples => exact decide_eq_true ((List.length_take_le ..).trans_lt (fieldN24 w).isLt)
  | pushSamples2 =>
    change 2 * (fieldN24 w).toNat ≤ _ at enough
    have left : (payload.take (fieldN24 w).toNat).length < 2 ^ 24 :=
      (List.length_take_le ..).trans_lt (fieldN24 w).isLt
    have same : (payload.take (fieldN24 w).toNat).length =
        ((payload.drop (fieldN24 w).toNat).take (fieldN24 w).toNat).length := by
      rw [List.length_take_of_le (by omega), List.length_take_of_le (by rw [List.length_drop]; omega)]
    simp only [assemble, Instr.wellFormed, decide_eq_true left, decide_eq_true same, Bool.and_self]
  | _ => rfl

/-- Settles O3: the command word is its opcode and fields, and the payload is the words the row asks for. -/
theorem encodeInvertsDecode : Obligations.EncodeInvertsDecode := by
  intro q words i rest decoded
  obtain ⟨w, payload, op, rfl, row, accepted, enough, rfl, rfl⟩ := (decode_command_iff ..).mp decoded
  refine ⟨?_, wellFormed_assemble enough, ?_⟩
  · rw [encode, encodeHead_assemble ((opOf_eq_some_iff w op).mp row) enough, encodePayload_assemble enough,
      List.cons_append, List.take_append_drop]
  · rw [op_assemble]
    exact List.contains_iff_mem.mp accepted

end Sys2Proof
end

section
/-!
What a port answers to words it does not take (R95, R97, R99): a reserved opcode, and a command of another port, variant
or ring.
-/

namespace Sys2Proof.Machine

open Sys2Proof

/-! ## Words that select no row of their port (R95, R97, R99) -/

theorem opOf_eq_none_of_opc {w : Word} (h : ∀ op : Op, op.opc ≠ w.extractLsb' 24 8) : opOf w = none :=
  (opOf_eq_none_iff w).mpr fun op =>
    Bool.eq_false_of_not_eq_true fun accepted => h op (Op.opc_of_accepts accepted).symm

theorem decode_of_opOf_none {w : Word} (h : opOf w = none) (q : Port) (rest : List Word) :
    decode q (w :: rest) = .reserved none rest := by simp [decode, h]

theorem decode_of_not_mem_ports {w : Word} {op : Op} (row : opOf w = some op) {q : Port} (h : q ∉ op.row.ports)
    (rest : List Word) : decode q (w :: rest) = .reserved (some op) rest := by simp [decode, row, h]

/-- An idle port whose words are reserved on it is refused. -/
theorem step_run_reserved {s : State} {q : Port} {turns : List Turn} {row : Option Op} {rest : List Word}
    (agenda : s.agenda = .run q :: turns) (idle : (s.port q).busy = none)
    (decoded : decode q (s.port q).input = .reserved row rest) : step s = .refused (reservedRefusal row) := by
  rw [step_run agenda]
  simp [runPort, idle, decoded]

/-- The opcode bytes R99 lists as reserved. -/
abbrev ReservedOpcode (opc : Nat) : Prop :=
  opc = 0 ∨ (0x06 ≤ opc ∧ opc ≤ 0x0F) ∨ (0x16 ≤ opc ∧ opc ≤ 0x1F) ∨ (0x22 ≤ opc ∧ opc ≤ 0x27) ∨ 0x2A ≤ opc

theorem not_reservedOpcode (op : Op) : ¬ ReservedOpcode op.opc.toNat := by cases op <;> decide

/-- Settles O4: every row has an opcode, and no opcode is a reserved one. -/
theorem reservedOpcodesRefused : Obligations.ReservedOpcodesRefused := by
  intro w reserved
  have row : opOf w = none := opOf_eq_none_of_opc fun op same => not_reservedOpcode op (same ▸ reserved)
  refine ⟨row, decode_of_opOf_none row, fun s q turns rest agenda idle offered => ?_⟩
  exact step_run_reserved agenda idle (offered ▸ decode_of_opOf_none row q rest)

/-! ## A command of another port, variant or ring (R97) -/

/-- The reserved encodings are tested first (R273). -/
theorem exec_reserved {i : Instr} {s : State} {r : Refusal} (h : reservedTest i s = some (.refuse r)) :
    exec i s = .refused r :=
  exec_stop (stop := .refuse r) (by simp [stopOf, h])

theorem reservedTest_wrongPort {i : Instr} {s : State} (h : s.active ∉ i.op.row.ports) :
    reservedTest i s = some (.refuse .wrongPort) := by simp [reservedTest, h]

theorem reservedTest_wrongVariant {i : Instr} {s : State} {v : Variant} (accepted : s.active ∈ i.op.row.ports)
    (variant : i.op.row.variant = some v) (other : v ≠ s.variant) :
    reservedTest i s = some (.refuse .wrongVariant) := by simp [reservedTest, accepted, variant, other]

/-- The commands on a ring exist in both variants (R94). -/
theorem variant_of_ring {i : Instr} {q : RingId} (h : i.ring? = some q) : i.op.row.variant = none := by
  cases i with
  | srSetSize ch lc => rfl
  | srPush ch data => rfl
  | srPop ch n => rfl
  | srGetFree ch => rfl
  | srGetReady ch => rfl
  | _ => cases h

theorem reservedTest_noSuchRing {i : Instr} {s : State} (accepted : s.active ∈ i.op.row.ports)
    (mono : s.variant = .mono) (ring : i.ring? = some .ring1) :
    reservedTest i s = some (.refuse .noSuchRing) := by
  simp [reservedTest, accepted, variant_of_ring ring, ring, State.hasRing, mono]

/-- Settles O54, refusal by refusal. -/
theorem reservedOnPortRefused : Obligations.ReservedOnPortRefused := by
  refine fun i s => ⟨fun refused => exec_reserved (reservedTest_wrongPort refused),
    fun v accepted variant other => exec_reserved (reservedTest_wrongVariant accepted variant other),
    fun accepted mono ring => exec_reserved (reservedTest_noSuchRing accepted mono ring),
    fun q w op rest row refused => ?_⟩
  have decoded := decode_of_not_mem_ports row refused rest
  exact ⟨decoded, fun turns agenda idle offered =>
    step_run_reserved (row := some op) agenda idle (offered ▸ decoded)⟩

/-! ## Words of the spec (V60, V61) -/

/-- Settles O1: the decoder evaluated on each word. -/
theorem specWordsDecode : Obligations.SpecWordsDecode := by unfold Obligations.SpecWordsDecode; decide

end Sys2Proof.Machine
end

section
/-!
The pseudo-instructions CONFIGURE and DRAIN2 (R102): a sequence of commands one agent issues, each admitted in the state
the one before it leaves.
-/

namespace Sys2Proof.Machine

open Sys2Proof

/-- An admitted command issued on a port answers its effect with that port active. -/
theorem issue_next {q : Port} {i : Instr} {s : State} (admitted : stopOf i { s with active := q } = none) :
    issue q i s = .next (effect i { s with active := q }) := (exec_next_iff ..).mpr ⟨admitted, rfl⟩

/-- A sequence goes on in the state its first command leaves. -/
theorem andThen_next {o : Host.Outcome State Fault Refusal} {s : State} (h : o = .next s)
    (f : State → Host.Outcome State Fault Refusal) : andThen o f = f s := by rw [h, andThen]

/-! ## CONFIGURE (R102 d) -/

/-- A reconfiguration command is alone beside idle ports. -/
theorem races_of_othersIdle {s : State} {op : Op} (reconfig : isReconfig op = true) (idle : OthersIdle s) :
    s.races op = false := by
  rw [State.races, if_pos reconfig]
  exact Bool.eq_false_of_not_eq_true fun busy => (othersBusy_iff s).mp busy idle

/-- What CONFIGURE leaves: the effects of its three commands, one after another. -/
theorem configure_next {s : State} {order : BitVec 8} {frac : F32} (low : 10 ≤ order.toNat)
    (high : order.toNat ≤ 13) (number : isNaN frac = false) (idle : OthersIdle s) (rate : F32) (type : WindowType) :
    configure order rate type frac s =
      .next (afterPrepare order rate (afterSetOverlap frac (afterSetWindow type { s with active := .g }))) := by
  have window : issue .g (.setWindow type) s = .next (afterSetWindow type { s with active := .g }) :=
    issue_next ((stopOf_setWindow ..).mpr ⟨rfl, races_of_othersIdle rfl idle⟩)
  have overlap : issue .g (.setOverlap frac) (afterSetWindow type { s with active := .g }) =
      .next (afterSetOverlap frac (afterSetWindow type { s with active := .g })) :=
    issue_next ((stopOf_setOverlap ..).mpr ⟨rfl, number, races_of_othersIdle rfl idle⟩)
  rw [configure, andThen_next window, andThen_next overlap]
  exact issue_next ((stopOf_prepare ..).mpr ⟨rfl, low, high, races_of_othersIdle rfl idle⟩)

/-- A FrameRing with equal cursors holds no frame. -/
theorem queue_of_cursors_eq {x : FrameRing} (h : x.w = x.r) : x.queue = [] := by
  simp [FrameRing.queue, FrameRing.avail, FrameRing.lead, h]

/-- Settles O55: each register is the one the effect of its command writes. -/
theorem configureReachesReady : Obligations.ConfigureReachesReady := by
  intro s order rate frac type low high number idle
  refine ⟨_, configure_next low high number idle rate type, rfl, rfl, rfl, rfl, rfl, rfl, ?_, ?_, ?_⟩
  · exact queue_of_cursors_eq rfl
  · exact fun q => by cases q <;> rfl
  · exact fun q => by cases q <;> rfl

/-! ## Frames and offset of a run of samples (R193) -/

section Counts

variable {p n size hop : Nat}

theorem framesProduced_succ_short : framesProduced p (n + 1) size hop = framesProduced (p + 1) n size hop := by
  simp only [framesProduced, Nat.add_right_comm p 1 n, Nat.add_assoc]

theorem finalOffset_succ_short : finalOffset p (n + 1) size hop = finalOffset (p + 1) n size hop := by
  simp only [finalOffset, Nat.add_right_comm p 1 n, Nat.add_assoc]

variable (le : hop ≤ size) (full : p + 1 = size)
include le full

/-- The sample that fills the accumulator makes one frame and leaves the offset `N − H`. -/
theorem framesProduced_succ_full (pos : 1 ≤ hop) :
    framesProduced p (n + 1) size hop = framesProduced (size - hop) n size hop + 1 := by
  have total : p + (n + 1) - size = n := by omega
  rw [framesProduced, if_neg (by omega), total, framesProduced]
  by_cases short : n < hop
  · rw [if_pos (by omega), Nat.div_eq_of_lt short]
  · have left : size - hop + n - size = n - hop := by omega
    rw [if_neg (by omega), left, Nat.div_eq_sub_div pos (by omega)]

theorem finalOffset_succ_full : finalOffset p (n + 1) size hop = finalOffset (size - hop) n size hop := by
  have total : p + (n + 1) - size = n := by omega
  rw [finalOffset, if_neg (by omega), total, finalOffset]
  by_cases short : n < hop
  · rw [if_pos (by omega), Nat.mod_eq_of_lt short]
  · have left : size - hop + n - size = n - hop := by omega
    rw [if_neg (by omega), left, Nat.mod_eq_sub_mod (by omega)]

end Counts

/-- A run of single ingests, each of which appends below `fftSize` and frames and shifts at `fftSize`, makes the frames
and leaves the offset of R193. -/
theorem foldl_frames_offset {α : Type} {g : State → α → State} (cfg : ∀ s x, (g s x).cfg = s.cfg)
    (short : ∀ s x, s.writePos + 1 ≠ s.cfg.fftSize → (g s x).writePos = s.writePos + 1 ∧ (g s x).fr.w = s.fr.w)
    (full : ∀ s x, s.writePos + 1 = s.cfg.fftSize →
      (g s x).writePos = s.cfg.fftSize - s.cfg.hopSize ∧ (g s x).fr.w = s.fr.w + 1)
    (l : List α) {s : State} (pos : 1 ≤ s.cfg.hopSize) (le : s.cfg.hopSize ≤ s.cfg.fftSize)
    (below : s.writePos < s.cfg.fftSize) :
    (l.foldl g s).writePos = finalOffset s.writePos l.length s.cfg.fftSize s.cfg.hopSize
      ∧ (l.foldl g s).fr.w =
          s.fr.w + BitVec.ofNat 32 (framesProduced s.writePos l.length s.cfg.fftSize s.cfg.hopSize) := by
  induction l generalizing s with
  | nil => simp [finalOffset, framesProduced, below]
  | cons x l ih =>
    rw [List.foldl_cons, List.length_cons]
    have rest := ih (s := g s x)
    rw [cfg] at rest
    by_cases fills : s.writePos + 1 = s.cfg.fftSize
    · obtain ⟨offset, frames⟩ := full s x fills
      obtain ⟨offset', frames'⟩ := rest pos le (by omega)
      rw [offset', frames', offset, frames, finalOffset_succ_full le fills, framesProduced_succ_full le fills pos,
        Nat.add_comm _ 1, BitVec.ofNat_add, BitVec.add_assoc]
      exact ⟨rfl, rfl⟩
    · obtain ⟨offset, frames⟩ := short s x fills
      obtain ⟨offset', frames'⟩ := rest pos le (by omega)
      rw [offset', frames', offset, frames, finalOffset_succ_short, framesProduced_succ_short]
      exact ⟨rfl, rfl⟩

/-- R193 for sample pairs (R211). -/
theorem foldl_ingest2_frames_offset (pairs : List (F32 × F32)) {s : State} (pos : 1 ≤ s.cfg.hopSize)
    (le : s.cfg.hopSize ≤ s.cfg.fftSize) (below : s.writePos < s.cfg.fftSize) :
    (pairs.foldl ingest2 s).writePos = finalOffset s.writePos pairs.length s.cfg.fftSize s.cfg.hopSize
      ∧ (pairs.foldl ingest2 s).fr.w =
          s.fr.w + BitVec.ofNat 32 (framesProduced s.writePos pairs.length s.cfg.fftSize s.cfg.hopSize) :=
  foldl_frames_offset ingest2_cfg (fun s x h => by rw [ingest2_short s x h]; exact ⟨rfl, rfl⟩)
    (fun s x h => by rw [ingest2_full s x h]; exact ⟨rfl, rfl⟩) pairs pos le below

/-! ## DRAIN2 (R102 b) -/

/-- A Ready Stereo block with both rings sized and no reconfiguration in progress: what DRAIN2 runs on. -/
abbrev Draining (s : State) : Prop :=
  s.variant = .stereo ∧ s.cfg.state = .ready ∧ Settled s ∧ ∀ q, (s.ring q).sized = true

/-- Outside a reconfiguration no data command races. -/
theorem races_of_settled {s : State} {op : Op} (data : isReconfig op = false) (settled : Settled s) :
    s.races op = false := by
  rw [State.races, data, if_neg Bool.false_ne_true,
    Bool.eq_false_of_not_eq_true fun reconfig => (reconfigInProgress_iff s).mp reconfig settled, Bool.and_false]

theorem hasRing_of_stereo {s : State} (stereo : s.variant = .stereo) (q : RingId) : s.hasRing q = true := by
  cases q <;> simp [State.hasRing, stereo]

/-- What the queries and the pops of DRAIN2 leave of what its PUSHSAMPLES2 starts from. -/
abbrev KeepsIngest (s t : State) : Prop := t.cfg = s.cfg ∧ t.writePos = s.writePos ∧ t.fr = s.fr

theorem KeepsIngest.trans {s t u : State} (h : KeepsIngest s t) (k : KeepsIngest t u) : KeepsIngest s u :=
  ⟨k.1.trans h.1, k.2.1.trans h.2.1, k.2.2.trans h.2.2⟩

theorem Draining.withActive {s : State} (h : Draining s) (q : Port) : Draining { s with active := q } := by
  obtain ⟨stereo, ready, settled, sized⟩ := h
  exact ⟨stereo, ready, settled, fun o => by rw [State.ring_withActive]; exact sized o⟩

/-- A query and a pop replace at most a ring by one of its size, and answer. -/
theorem Draining.answered {s : State} (h : Draining s) (q : RingId) {x : SampleRing} (sized : x.sized = true)
    (words : List Word) :
    Draining ((s.setRing q x).respond words) ∧ KeepsIngest s ((s.setRing q x).respond words) := by
  obtain ⟨stereo, ready, settled, others⟩ := h
  refine ⟨⟨by simpa using stereo, by simpa using ready, (settled_congr (by simp)).mpr settled, fun o => ?_⟩,
    by simp [KeepsIngest]⟩
  by_cases same : o = q
  · simpa [same] using sized
  · simpa [State.ring_setRing_other _ _ same] using others o

theorem issue_srGetReady {s : State} (h : Draining s) (q : RingId) :
    ∃ t, issue .d (.srGetReady q) s = .next t ∧ Draining t ∧ KeepsIngest s t ∧ SameRings s t := by
  have issued := h.withActive .d
  have ⟨stereo, _, settled, sized⟩ := issued
  obtain ⟨draining, keeps⟩ := issued.answered q (sized q) [countWord (State.readySeen { s with active := .d } q)]
  rw [State.setRing_ring] at draining keeps
  refine ⟨_, issue_next ?_, draining, keeps, fun o => by simp [effect, afterSrGetReady]⟩
  exact (stopOf_srGetReady ..).mpr ⟨.inr rfl, hasRing_of_stereo stereo q, sized q, races_of_settled rfl settled⟩

theorem issue_srPop {s : State} (h : Draining s) (q : RingId) (n : BitVec 23) :
    ∃ t, issue .d (.srPop q n) s = .next t ∧ Draining t ∧ KeepsIngest s t
      ∧ t.ring q = (s.ring q).popped n.toNat ∧ SameOtherRings q s t := by
  have issued := h.withActive .d
  have ⟨stereo, _, settled, sized⟩ := issued
  have poppedSized : ((State.ring { s with active := .d } q).popped n.toNat).sized = true := sized q
  obtain ⟨draining, keeps⟩ := issued.answered q poppedSized _
  refine ⟨_, issue_next ?_, draining, keeps, by simp [effect, afterSrPop], fun o ho => ?_⟩
  · exact (stopOf_srPop ..).mpr ⟨rfl, hasRing_of_stereo stereo q, sized q, races_of_settled rfl settled⟩
  · simp [effect, afterSrPop, State.ring_setRing_other _ _ ho]

/-- PUSHSAMPLES2 makes the frames and leaves the offset of R193. -/
theorem issue_pushSamples2 {s : State} (h : Draining s) (pos : 1 ≤ s.cfg.hopSize)
    (le : s.cfg.hopSize ≤ s.cfg.fftSize) (below : s.writePos < s.cfg.fftSize) {left right : List F32} {n : Nat}
    (pairs : (left.zip right).length = n) :
    ∃ t, issue .d (.pushSamples2 left right) s = .next t ∧ SameRings s t
      ∧ t.writePos = finalOffset s.writePos n s.cfg.fftSize s.cfg.hopSize
      ∧ t.fr.w = s.fr.w + BitVec.ofNat 32 (framesProduced s.writePos n s.cfg.fftSize s.cfg.hopSize) := by
  obtain ⟨stereo, ready, settled, -⟩ := h
  have admitted : stopOf (.pushSamples2 left right) { s with active := .d } = none :=
    (stopOf_pushSamples2 ..).mpr ⟨rfl, stereo, ready, races_of_settled rfl settled⟩
  have counts := foldl_ingest2_frames_offset (left.zip right) (s := { s with active := .d }) pos le below
  rw [pairs] at counts
  exact ⟨_, issue_next admitted, fun q => by cases q <;> simp [effect, State.ring], counts⟩

/-- A pop of no more than is ready delivers what it asks for. -/
theorem popped_of_le {x : SampleRing} {n : Nat} (h : n ≤ x.consumerReady) :
    x.popped n = { x with rp := (x.rp + n) % (2 * x.capacity) } := by
  rw [SampleRing.popped, SampleRing.delivered, Nat.min_eq_left h, cursorAdd]

/-- The five commands of DRAIN2, with the states between them. -/
theorem drain2_next {s s1 s2 s3 s4 t : State} {n : BitVec 23} {m : Nat}
    (hm : m = min n.toNat (min (s.ring .ring0).consumerReady (s.ring .ring1).consumerReady))
    (query0 : issue .d (.srGetReady .ring0) s = .next s1) (query1 : issue .d (.srGetReady .ring1) s1 = .next s2)
    (pop0 : issue .d (.srPop .ring0 (.ofNat 23 m)) s2 = .next s3)
    (pop1 : issue .d (.srPop .ring1 (.ofNat 23 m)) s3 = .next s4)
    (push : issue .d (.pushSamples2 (s.popWords .ring0 m) (s.popWords .ring1 m)) s4 = .next t) :
    drain2 n s = .next t := by
  subst hm
  simp only [drain2, andThen_next query0, andThen_next query1, andThen_next pop0, andThen_next pop1, push]

/-- Settles O56: `m` is at most either ready count, so each pop delivers `m` words, and the `m` pairs are ingested. -/
theorem drainTwoTakesEqualCounts : Obligations.DrainTwoTakesEqualCounts := by
  intro s n stereo ready settled sized0 sized1 _ pos le below
  obtain ⟨m, hm⟩ : ∃ m, m = min n.toNat (min s.ring0.consumerReady s.ring1.consumerReady) := ⟨_, rfl⟩
  have fits : (BitVec.ofNat 23 m).toNat = m := by
    have := n.isLt
    rw [BitVec.toNat_ofNat, Nat.mod_eq_of_lt (by omega)]
  have pairs : ((s.popWords .ring0 m).zip (s.popWords .ring1 m)).length = m := by
    simp only [List.length_zip, State.popWords_length, SampleRing.delivered, State.ring]
    omega
  have start : Draining s := ⟨stereo, ready, settled, fun q => by cases q; exacts [sized0, sized1]⟩
  obtain ⟨s1, query0, draining, keeps1, rings1⟩ := issue_srGetReady start .ring0
  obtain ⟨s2, query1, draining, keeps2, rings2⟩ := issue_srGetReady draining .ring1
  obtain ⟨s3, pop0, draining, keeps3, popped0, other0⟩ := issue_srPop draining .ring0 (.ofNat 23 m)
  obtain ⟨s4, pop1, draining, keeps4, popped1, other1⟩ := issue_srPop draining .ring1 (.ofNat 23 m)
  obtain ⟨cfg, offset, fr⟩ := ((keeps1.trans keeps2).trans keeps3).trans keeps4
  obtain ⟨t, push, rings, counts⟩ :=
    issue_pushSamples2 draining (by rwa [cfg]) (by rwa [cfg]) (by rwa [offset, cfg]) pairs
  rw [cfg, offset, fr] at counts
  refine ⟨t, drain2_next hm query0 query1 pop0 pop1 push, ?_⟩
  rw [← hm]
  refine ⟨?_, ?_, counts⟩
  · calc t.ring0 = s4.ring0 := rings .ring0
      _ = s3.ring0 := other1 .ring0 (by decide)
      _ = (s2.ring .ring0).popped m := by rw [← fits]; exact popped0
      _ = s.ring0.popped m := by rw [rings2, rings1]; rfl
      _ = _ := popped_of_le (by omega)
  · calc t.ring1 = s4.ring1 := rings .ring1
      _ = (s3.ring .ring1).popped m := by rw [← fits]; exact popped1
      _ = s.ring1.popped m := by rw [other0 .ring1 (by decide), rings2, rings1]; rfl
      _ = _ := popped_of_le (by omega)

end Sys2Proof.Machine
end

section
/-!
The frames of a ring update and of a response (R100): what each leaves of the analyser, the rings, the ports and the
machine, in the words of Safety.
-/

namespace Sys2Proof.Machine

open Sys2Proof

theorem sameMachine_setRing (s : State) (q : RingId) (x : SampleRing) : SameMachine s (s.setRing q x) := by
  simp [SameMachine]

theorem sameMachine_respond (s : State) (words : List Word) : SameMachine s (s.respond words) := by
  simp [SameMachine]

theorem sameAnalyser_respond (s : State) (words : List Word) : SameAnalyser s (s.respond words) :=
  sameAnalyser_setPort ..

theorem samePorts_setRing (s : State) (q : RingId) (x : SampleRing) : SamePorts s (s.setRing q x) :=
  fun o => State.port_setRing s q x o

theorem sameRings_respond (s : State) (words : List Word) : SameRings s (s.respond words) :=
  fun q => State.respond_ring s words q

theorem responded_respond (s : State) (words : List Word) : Responded words s (s.respond words) :=
  ⟨fun _ other => State.respond_port_other s words other, State.respond_port_active s words⟩

/-- A command that replaces a ring and answers gives its response and nothing else on the ports. -/
theorem responded_setRing_respond (s : State) (q : RingId) (x : SampleRing) (words : List Word) :
    Responded words s ((s.setRing q x).respond words) := by
  simpa [Responded] using responded_respond (s.setRing q x) words

end Sys2Proof.Machine
end

section
/-!
The SampleRing commands (40_samplering.md): what each answers on a sized ring, the counts each side sees, and the
refusals of an illegal size and of a ring that was never sized.
-/

namespace Sys2Proof.Machine

open Sys2Proof

/-! ## SR_PUSH (R122) -/

/-- The accepted samples are in the slots from the write cursor on. -/
theorem pushed_read_accepted (x : SampleRing) (data : List F32) {j : Nat} (hj : j < x.accepted data) :
    (x.pushed data).mem.read (x.slotIndex x.wp j) = data[j]? := by
  have length : (data.take (x.accepted data)).length = x.accepted data := List.length_take_of_le (x.accepted_le data)
  have fits : x.accepted data ≤ x.capacity := (x.accepted_le_free data).trans (Nat.sub_le ..)
  calc (x.pushed data).mem.read (x.slotIndex x.wp j)
      = (data.take (x.accepted data))[j]? := Memory.read_writeRun _ _ _ (by rwa [length]) _ j (by rwa [length])
    _ = data[j]? := List.getElem?_take_of_lt hj

/-- A push leaves every slot it does not reach as it was. -/
theorem pushed_read_other (x : SampleRing) (data : List F32) {a : Nat}
    (h : ∀ j, j < x.accepted data → x.slotIndex x.wp j ≠ a) : (x.pushed data).mem.read a = x.mem.read a := by
  refine Memory.read_writeRun_other _ _ _ _ _ fun j hj => h j ?_
  rwa [List.length_take_of_le (x.accepted_le data)] at hj

/-- Settles O11, from what a push puts in the slots. -/
theorem pushStoresPrefix : Obligations.PushStoresPrefix := by
  intro s ch data active has sized settled
  have admitted : stopOf (.srPush ch data) s = none :=
    (stopOf_srPush ..).mpr ⟨active, has, sized, races_of_settled rfl settled⟩
  refine ⟨s.setRing ch ((s.ring ch).pushed data), (exec_next_iff ..).mpr ⟨admitted, rfl⟩, ?_,
    fun o other => State.ring_setRing_other s _ other, sameAnalyser_setRing .., samePorts_setRing s ch _,
    sameMachine_setRing ..⟩
  rw [State.ring_setRing_same]
  exact ⟨rfl, fun j => pushed_read_accepted _ data, fun a => pushed_read_other _ data, rfl, rfl, rfl, rfl, rfl⟩

/-! ## SR_POP (R125) -/

/-- Settles O12, from the words a pop answers. -/
theorem popReturnsOldest : Obligations.PopReturnsOldest := by
  intro s ch n active has sized settled
  have admitted : stopOf (.srPop ch n) s = none :=
    (stopOf_srPop ..).mpr ⟨active, has, sized, races_of_settled rfl settled⟩
  have length := s.popWords_length ch n.toNat
  refine ⟨effect (.srPop ch n) s, s.popWords ch n.toNat, (exec_next_iff ..).mpr ⟨admitted, rfl⟩,
    ⟨length, fun j v => s.popWords_getElem ch n.toNat j v, ?_, ?_⟩, fun o other => ?_, ?_, ?_⟩
  · exact (State.respond_ring ..).trans (State.ring_setRing_same ..)
  · change Responded (countWord ((s.ring ch).delivered n.toNat) :: _) s _
    rw [← length]
    exact responded_setRing_respond ..
  · exact (State.respond_ring ..).trans (State.ring_setRing_other _ _ other)
  · simp [effect, afterSrPop, SameAnalyser, SameConfiguration, SameIngest]
  · simp [effect, afterSrPop, SameMachine]

/-! ## The counts each side sees (R67, R127, R128) -/

/-- Settles O14: a view that lags makes its side see less, and each free count is the complement of its ready count. -/
theorem countsBracketTheTruth : Obligations.CountsBracketTheTruth := by
  intro lcMax x sized inv
  obtain ⟨-, ⟨usedLe, readyLe, consumerLe⟩, -⟩ := inv.1 sized
  have stored : x.used ≤ x.capacity := usedLe.trans readyLe
  exact ⟨Nat.sub_add_cancel readyLe, Nat.sub_add_cancel (consumerLe.trans stored), Nat.sub_le_sub_left usedLe _,
    Nat.sub_le_sub_left consumerLe _, consumerLe, usedLe, stored⟩

/-! ## SR_SETSIZE (R121) -/

theorem afterSrSetSize_ring (ch : RingId) (lc : BitVec 5) (s : State) (q : RingId) :
    (afterSrSetSize ch lc s).ring q = (s.setRing ch (.resized lc)).ring q := by cases q <;> rfl

theorem samePorts_afterSrSetSize (ch : RingId) (lc : BitVec 5) (s : State) : SamePorts s (afterSrSetSize ch lc s) := by
  intro q
  calc (afterSrSetSize ch lc s).port q = (s.setRing ch (.resized lc)).port q := by cases q <;> rfl
    _ = s.port q := samePorts_setRing s ch _ q

/-- The cursors and views of a resized ring are no distance apart. -/
theorem resized_diff (lc : BitVec 5) : cursorDiff (SampleRing.resized lc).capacity 0 0 = 0 :=
  cursorDiff_self (Nat.mul_pos two_pos (SampleRing.resized lc).capacity_pos)

theorem resized_contents (lc : BitVec 5) : (SampleRing.resized lc).contents = [] := by
  have empty : (SampleRing.resized lc).used = 0 := resized_diff lc
  rw [SampleRing.contents, empty]
  rfl

theorem resized_producerFree (lc : BitVec 5) : (SampleRing.resized lc).producerFree = 2 ^ lc.toNat := by
  have empty : (SampleRing.resized lc).producerReady = 0 := resized_diff lc
  rw [SampleRing.producerFree, empty]
  rfl

/-- Settles O10, from what a resized ring shows. -/
theorem setSizeEmptiesRing : Obligations.SetSizeEmptiesRing := by
  intro s ch lc active has pos le idle
  have admitted : stopOf (.srSetSize ch lc) s = none :=
    (stopOf_srSetSize ..).mpr ⟨active, has, pos, le, races_of_othersIdle rfl idle⟩
  refine ⟨afterSrSetSize ch lc s, (exec_next_iff ..).mpr ⟨admitted, rfl⟩, ?_⟩
  rw [afterSrSetSize_ring, State.ring_setRing_same]
  refine ⟨rfl, rfl, rfl, rfl, rfl, rfl, rfl, resized_contents lc, resized_producerFree lc, resized_diff lc,
    fun o other => ?_, sameAnalyser_setRing s ch _, samePorts_afterSrSetSize ch lc s, sameMachine_setRing s ch _⟩
  rw [afterSrSetSize_ring, State.ring_setRing_other _ _ other]

/-! ## SR_GETFREE and SR_GETREADY (R127, R128) -/

/-- On a port that issues them, the two queries answer the counts its side sees and change nothing else. -/
theorem queries_answer {s : State} {ch : RingId} (issuer : s.active = .p ∨ s.active = .d) (has : s.hasRing ch = true)
    (sized : (s.ring ch).sized = true) (settled : Settled s) {free ready : Nat} (seenFree : s.freeSeen ch = free)
    (seenReady : s.readySeen ch = ready) :
    ∃ t u, exec (.srGetFree ch) s = .next t ∧ Responded [BitVec.ofNat 32 free] s t
      ∧ exec (.srGetReady ch) s = .next u ∧ Responded [BitVec.ofNat 32 ready] s u
      ∧ SameRings s t ∧ SameAnalyser s t ∧ SameMachine s t ∧ SameRings s u ∧ SameAnalyser s u ∧ SameMachine s u := by
  subst seenFree seenReady
  have freeAdmitted : stopOf (.srGetFree ch) s = none :=
    (stopOf_srGetFree ..).mpr ⟨issuer, has, sized, races_of_settled rfl settled⟩
  have readyAdmitted : stopOf (.srGetReady ch) s = none :=
    (stopOf_srGetReady ..).mpr ⟨issuer, has, sized, races_of_settled rfl settled⟩
  exact ⟨_, _, (exec_next_iff ..).mpr ⟨freeAdmitted, rfl⟩, responded_respond ..,
    (exec_next_iff ..).mpr ⟨readyAdmitted, rfl⟩, responded_respond ..,
    sameRings_respond s _, sameAnalyser_respond .., sameMachine_respond ..,
    sameRings_respond s _, sameAnalyser_respond .., sameMachine_respond ..⟩

/-- Settles O13: port P sees the counts of the producer, port D those of the consumer. -/
theorem queriesAnswerIssuersView : Obligations.QueriesAnswerIssuersView := by
  intro s ch has sized settled
  refine ⟨fun active => queries_answer (.inl active) has sized settled ?_ ?_,
    fun active => queries_answer (.inr active) has sized settled ?_ ?_⟩
  · rw [State.freeSeen, active]; rfl
  · rw [State.readySeen, active]; rfl
  · rw [State.freeSeen, active]; rfl
  · rw [State.readySeen, active]; rfl

/-! ## Refusals (R120, R121, R273) -/

/-- A command on a ring the block has, on a port that accepts it, is no reserved encoding (R97). -/
theorem reservedTest_ring {i : Instr} {s : State} {ch : RingId} (accepted : s.active ∈ i.op.row.ports)
    (ring : i.ring? = some ch) (has : s.hasRing ch = true) : reservedTest i s = none := by
  simp [reservedTest, accepted, variant_of_ring ring, ring, has]

/-- SR_SETSIZE with an illegal size is refused (R121). -/
theorem exec_srSetSize_badRingSize {s : State} {ch : RingId} {lc : BitVec 5} (active : s.active = .g)
    (has : s.hasRing ch = true) (bad : lc.toNat = 0 ∨ s.lcMax < lc.toNat) :
    exec (.srSetSize ch lc) s = .refused .badRingSize := by
  have reserved : reservedTest (.srSetSize ch lc) s = none :=
    reservedTest_ring (by simp [active, Instr.op, Op.row]) rfl has
  have operand : operandTest (.srSetSize ch lc) s = some (.refuse .badRingSize) := if_neg (by omega)
  exact exec_stop (stop := .refuse .badRingSize) (by simp [stopOf, reserved, operand])

/-- A command that needs a sized ring has no operand to test and does not need the analyser. -/
theorem tests_of_needsSized {i : Instr} (h : needsSized i.op = true) (s : State) :
    operandTest i s = none ∧ needsReady i.op = false := by
  cases i with
  | srPush ch data => exact ⟨rfl, rfl⟩
  | srPop ch n => exact ⟨rfl, rfl⟩
  | srGetFree ch => exact ⟨rfl, rfl⟩
  | srGetReady ch => exact ⟨rfl, rfl⟩
  | _ => exact absurd h Bool.false_ne_true

/-- A command that needs a sized ring is refused on one that was never sized (R120). -/
theorem exec_ringNotSized {i : Instr} {s : State} {ch : RingId} (accepted : s.active ∈ i.op.row.ports)
    (ring : i.ring? = some ch) (needs : needsSized i.op = true) (has : s.hasRing ch = true)
    (unsized : (s.ring ch).sized = false) : exec i s = .refused .ringNotSized := by
  obtain ⟨operand, noReady⟩ := tests_of_needsSized needs s
  have reserved := reservedTest_ring accepted ring has
  have state : stateTest i s = some (.refuse .ringNotSized) := by simp [stateTest, noReady, needs, ring, unsized]
  exact exec_stop (stop := .refuse .ringNotSized) (by simp [stopOf, reserved, operand, state])

/-- Settles O15, refusal by refusal. -/
theorem ringNeedsLegalSize : Obligations.RingNeedsLegalSize := by
  intro s ch has
  refine ⟨fun lc active bad => exec_srSetSize_badRingSize active has bad, fun unsized =>
    ⟨fun data active => ?_, fun n active => ?_, fun issuer => ⟨?_, ?_⟩⟩⟩
  · exact exec_ringNotSized (by simp [active, Instr.op, Op.row]) rfl rfl has unsized
  · exact exec_ringNotSized (by simp [active, Instr.op, Op.row]) rfl rfl has unsized
  · exact exec_ringNotSized (by simpa [Instr.op, Op.row] using issuer) rfl rfl has unsized
  · exact exec_ringNotSized (by simpa [Instr.op, Op.row] using issuer) rfl rfl has unsized

end Sys2Proof.Machine
end

section
/-!
Binary32 words over the reals (R11): the comparisons the model makes in units of `2^-149` read on `realOf`, and the two
clamps.
-/

namespace Sys2Proof.Machine

open Sys2Proof

theorem realOf_le_realOf_iff (x y : F32) : realOf x ≤ realOf y ↔ scaled x ≤ scaled y := by
  rw [realOf, realOf, div_le_div_iff_of_pos_right (by positivity), Int.cast_le]

theorem realOf_plusZero : realOf plusZero = 0 := by
  rw [realOf, show scaled plusZero = 0 by decide, Int.cast_zero, zero_div]

theorem realOf_plusOne : realOf plusOne = 1 := by
  rw [realOf, show scaled plusOne = 2 ^ 149 by decide]
  norm_num

theorem realOf_maxOverlap : realOf maxOverlap = 0.875 := by
  rw [realOf, show scaled maxOverlap = 7 * 2 ^ 146 by decide]
  norm_num

/-! ## Clamps -/

/-- A clamp between two numbers gives a number between them. -/
theorem clampTo_between {lo hi : F32} (loNumber : isNaN lo = false) (hiNumber : isNaN hi = false)
    (ordered : scaled lo ≤ scaled hi) (r : F32) :
    isNaN (clampTo lo hi r) = false ∧ realOf lo ≤ realOf (clampTo lo hi r)
      ∧ realOf (clampTo lo hi r) ≤ realOf hi := by
  simp only [realOf_le_realOf_iff]
  unfold clampTo
  split_ifs with nan low high
  · exact ⟨loNumber, le_rfl, ordered⟩
  · exact ⟨loNumber, le_rfl, ordered⟩
  · exact ⟨hiNumber, ordered, le_rfl⟩
  · exact ⟨Bool.eq_false_of_not_eq_true nan, not_lt.mp low, not_lt.mp high⟩

theorem realOf_neg_iff (f : F32) : realOf f < 0 ↔ scaled f < 0 := by
  rw [← realOf_plusZero, ← not_le, realOf_le_realOf_iff, not_le, show scaled plusZero = 0 by decide]

/-- The model's test against 0.875 is the one on the real value. -/
theorem maxOverlap_lt_iff (f : F32) : 0.875 < realOf f ↔ 7 * (oneUnit : Int) < 8 * scaled f := by
  rw [← realOf_maxOverlap, ← not_le, realOf_le_realOf_iff, not_le,
    show scaled maxOverlap = 7 * 2 ^ 146 by decide, show (oneUnit : Int) = 8 * 2 ^ 146 by decide]
  omega

/-- SETOVERLAP's clamp on the real value (R157). -/
theorem clampOverlap_eq (f : F32) :
    clampOverlap f = if realOf f < 0 then plusZero else if 0.875 < realOf f then maxOverlap else f := by
  simp only [clampOverlap, realOf_neg_iff, maxOverlap_lt_iff]

end Sys2Proof.Machine
end

section
/-!
The hop size (R158, R160), as log 7 takes it: what rounding to 24 significant bits does, then the bounds of
the hop size and its exact value on multiples of `2^-24`.
-/

namespace Sys2Proof.Machine

open Sys2Proof

/-! ## Rounding to 24 significant bits -/

/-- A value of more than 24 bits becomes the multiple of `2^drop` below it or the next one, and stays if it is one. -/
theorem roundSignificand_of_large {d : Nat} (large : 2 ^ 24 ≤ d) :
    ∃ up, up ≤ 1 ∧ (2 ^ (Nat.log2 d - 23) ∣ d → up = 0)
      ∧ roundSignificand d = (d / 2 ^ (Nat.log2 d - 23) + up) * 2 ^ (Nat.log2 d - 23) := by
  simp only [roundSignificand, if_neg (Nat.not_lt.mpr large)]
  split_ifs with roundsUp
  · refine ⟨1, le_rfl, fun multiple => ?_, rfl⟩
    have half : 0 < 2 ^ (Nat.log2 d - 23 - 1) := Nat.two_pow_pos _
    have rest : d % 2 ^ (Nat.log2 d - 23) = 0 := Nat.mod_eq_zero_of_dvd multiple
    omega
  · exact ⟨0, Nat.zero_le 1, fun _ => rfl, rfl⟩

/-- A value of at most 24 significant bits stays. -/
theorem roundSignificand_exact {n : Nat} (short : n < 2 ^ 24) (e : Nat) :
    roundSignificand (n * 2 ^ e) = n * 2 ^ e := by
  by_cases small : n * 2 ^ e < 2 ^ 24
  · exact if_pos small
  · obtain ⟨up, -, stays, rounded⟩ := roundSignificand_of_large (Nat.not_lt.mp small)
    have bits : Nat.log2 (n * 2 ^ e) < 24 + e := by
      rw [Nat.log2_lt (by omega), Nat.pow_add]
      exact Nat.mul_lt_mul_of_pos_right short (Nat.two_pow_pos e)
    have multiple : 2 ^ (Nat.log2 (n * 2 ^ e) - 23) ∣ n * 2 ^ e :=
      Dvd.dvd.mul_left (Nat.pow_dvd_pow 2 (by omega)) n
    rw [rounded, stays multiple, Nat.add_zero, Nat.div_mul_cancel multiple]

/-- Rounding does not pass a power of two upwards. -/
theorem roundSignificand_le_two_pow {d k : Nat} (le : d ≤ 2 ^ k) : roundSignificand d ≤ 2 ^ k := by
  obtain rfl | lt := le.eq_or_lt
  · simpa using (roundSignificand_exact (n := 1) (by decide) k).le
  by_cases small : d < 2 ^ 24
  · rwa [roundSignificand, if_pos small]
  obtain ⟨up, upLe, -, rounded⟩ := roundSignificand_of_large (Nat.not_lt.mp small)
  have bits : Nat.log2 d < k := (Nat.log2_lt (by omega)).mpr lt
  have split : 2 ^ k = 2 ^ (k - (Nat.log2 d - 23)) * 2 ^ (Nat.log2 d - 23) := by
    rw [← Nat.pow_add]; congr 1; omega
  have kept : d / 2 ^ (Nat.log2 d - 23) < 2 ^ (k - (Nat.log2 d - 23)) :=
    (Nat.div_lt_iff_lt_mul (Nat.two_pow_pos _)).mpr (split ▸ lt)
  rw [rounded, split]
  exact Nat.mul_le_mul_right _ (by omega)

/-- Rounding does not pass a power of two downwards. -/
theorem two_pow_le_roundSignificand {d k : Nat} (le : 2 ^ k ≤ d) : 2 ^ k ≤ roundSignificand d := by
  by_cases small : d < 2 ^ 24
  · rwa [roundSignificand, if_pos small]
  obtain ⟨up, -, -, rounded⟩ := roundSignificand_of_large (Nat.not_lt.mp small)
  have positive : d ≠ 0 := by omega
  have split : 2 ^ Nat.log2 d = 2 ^ (Nat.log2 d - (Nat.log2 d - 23)) * 2 ^ (Nat.log2 d - 23) := by
    rw [← Nat.pow_add]; congr 1; omega
  have kept : 2 ^ (Nat.log2 d - (Nat.log2 d - 23)) ≤ d / 2 ^ (Nat.log2 d - 23) :=
    (Nat.le_div_iff_mul_le (Nat.two_pow_pos _)).mpr (split ▸ Nat.log2_self_le positive)
  calc 2 ^ k ≤ 2 ^ Nat.log2 d := Nat.pow_le_pow_right two_pos ((Nat.le_log2 positive).mpr le)
    _ ≤ roundSignificand d := by
      rw [rounded, split]
      exact Nat.mul_le_mul_right _ (kept.trans (Nat.le_add_right ..))

/-! ## The hop size -/

/-- H1 of R160: the hop size of a legal overlap is between an eighth of the size and the size. -/
theorem hop_bounds {size : Nat} (pos : 1 ≤ size) {f : F32} (legal : OverlapLegal f) :
    size / 8 ≤ Numerics.hop size f ∧ Numerics.hop size f ≤ size := by
  have unit : oneUnit = 8 * 2 ^ 146 := by decide
  obtain ⟨low, high⟩ := legal
  have atLeast := two_pow_le_roundSignificand (d := ((oneUnit : Int) - scaled f).toNat) (k := 146) (by omega)
  have atMost := roundSignificand_le_two_pow (d := ((oneUnit : Int) - scaled f).toNat) (k := 149) (by omega)
  unfold Numerics.hop
  generalize roundSignificand ((oneUnit : Int) - scaled f).toNat = rounded at atLeast atMost
  constructor
  · refine le_max_of_le_right ((Nat.le_div_iff_mul_le (by decide)).mpr ?_)
    calc size / 8 * oneUnit = size / 8 * 8 * 2 ^ 146 := by rw [unit, Nat.mul_assoc]
      _ ≤ size * rounded := Nat.mul_le_mul (Nat.div_mul_le_self size 8) atLeast
  · refine max_le pos (Nat.div_le_of_le_mul ?_)
    rw [Nat.mul_comm oneUnit]
    exact Nat.mul_le_mul_left size atMost

/-- On a multiple of `2^-24` nothing is rounded: with `1 - f = n / 2^24` the hop size is the floor of
`size * n / 2^24`, at least 1. -/
theorem hop_of_grid (size : Nat) {n : Nat} {f : F32} (le : n ≤ 2 ^ 24)
    (grid : scaled f = (2 ^ 24 - n) * 2 ^ 125) : Numerics.hop size f = max 1 (size * n / 2 ^ 24) := by
  have difference : ((oneUnit : Int) - scaled f).toNat = n * 2 ^ 125 := by
    rw [show (oneUnit : Int) = 2 ^ 24 * 2 ^ 125 by decide]; omega
  have unrounded : roundSignificand (n * 2 ^ 125) = n * 2 ^ 125 := by
    obtain rfl | short := le.eq_or_lt
    · exact roundSignificand_exact (n := 1) (by decide) 149
    · exact roundSignificand_exact short 125
  rw [Numerics.hop, difference, unrounded, ← Nat.mul_assoc, show oneUnit = 2 ^ 24 * 2 ^ 125 by decide,
    Nat.mul_div_mul_right _ _ (Nat.two_pow_pos 125)]

/-- Settles O28: the bounds, and the five overlaps as multiples of `2^-24`. -/
theorem hopWithinBounds : Obligations.HopWithinBounds := by
  intro order low high
  have large : 2 ^ 10 ≤ 2 ^ order := Nat.pow_le_pow_right two_pos low
  refine ⟨fun f legal => hop_bounds (Nat.two_pow_pos order) legal, ?_, ?_, ?_, ?_, ?_⟩
  · rw [hop_of_grid _ (n := 2 ^ 24) (by decide) (by decide)]; omega
  · rw [hop_of_grid _ (n := 2 ^ 24) (by decide) (by decide)]; omega
  · rw [hop_of_grid _ (n := 2 ^ 23) (by decide) (by decide)]; omega
  · rw [hop_of_grid _ (n := 2 ^ 22) (by decide) (by decide)]; omega
  · rw [hop_of_grid _ (n := 2 ^ 21) (by decide) (by decide)]; omega

/-- The reference on a multiple of `2^-24`. -/
theorem refHop_of_grid (size : Nat) {n m : Nat} (whole : n + m = 2 ^ 24) :
    Ref.hop size ((m : ℝ) / 2 ^ 24) = max 1 (size * n / 2 ^ 24) := by
  have complement : (n : ℝ) + m = 2 ^ 24 := by exact_mod_cast whole
  have product : (size : ℝ) * (1 - m / 2 ^ 24) = ((size * n : ℕ) : ℝ) / ((2 ^ 24 : ℕ) : ℝ) := by
    rw [← eq_sub_iff_add_eq] at complement
    push_cast
    rw [complement]
    ring
  rw [Ref.hop, product, Nat.floor_div_eq_div]

/-- Settles O29: the model's hop and the reference are the same floor. -/
theorem hopMatchesReferenceOnGrid : Obligations.HopMatchesReferenceOnGrid := by
  intro order f m _ _ legal grid
  have scaledGrid : scaled f = m * 2 ^ 125 := by
    rw [realOf, div_eq_div_iff (by positivity) (by positivity)] at grid
    have : (scaled f : ℝ) = ((m * 2 ^ 125 : ℤ) : ℝ) := by push_cast; linarith
    exact_mod_cast this
  have unit : (oneUnit : Int) = 2 ^ 24 * 2 ^ 125 := by decide
  obtain ⟨-, high⟩ := legal
  obtain ⟨n, whole⟩ : ∃ n, n + m = 2 ^ 24 := ⟨2 ^ 24 - m, by omega⟩
  rw [grid, refHop_of_grid _ whole, hop_of_grid _ (n := n) (by omega) (by omega)]

end Sys2Proof.Machine
end

section
/-!
Configuration and accessors (41_config.md): what PREPARE, SETWINDOW, SETOVERLAP and the three accessors answer, their
refusals in the order of R273, and which commands change the analyser state (R150).
-/

namespace Sys2Proof.Machine

open Sys2Proof

/-! ## Reconfiguration (R152, R156, R157) -/

theorem windowTable_read_lt {type : WindowType} {size i : Nat} (h : i < size) :
    (windowTable type size).read i = some (Numerics.window type size i) := by rw [windowTable_read, if_pos h]

theorem windowTable_read_ge {type : WindowType} {size i : Nat} (h : size ≤ i) :
    (windowTable type size).read i = none := by rw [windowTable_read, if_neg (Nat.not_lt.mpr h)]

/-- The window table after SETWINDOW (R156). -/
theorem afterSetWindow_win_ready {s : State} (ready : s.cfg.state = .ready) (type : WindowType) :
    (afterSetWindow type s).win = windowTable type s.cfg.fftSize := by rw [afterSetWindow, ready]

theorem afterSetWindow_win_unconfigured {s : State} (unconfigured : s.cfg.state = .unconfigured) (type : WindowType) :
    (afterSetWindow type s).win = s.win := by rw [afterSetWindow, unconfigured]

/-- The hop size after SETOVERLAP (R157). -/
theorem afterSetOverlap_hopSize_ready {s : State} (ready : s.cfg.state = .ready) (frac : F32) :
    (afterSetOverlap frac s).cfg.hopSize = Numerics.hop s.cfg.fftSize (clampOverlap frac) := by
  rw [afterSetOverlap, ready]

theorem afterSetOverlap_hopSize_unconfigured {s : State} (unconfigured : s.cfg.state = .unconfigured) (frac : F32) :
    (afterSetOverlap frac s).cfg.hopSize = s.cfg.hopSize := by rw [afterSetOverlap, unconfigured]

/-- Settles O22: each register is the one the effect of PREPARE writes. -/
theorem prepareConfigures : Obligations.PrepareConfigures := by
  intro s order rate active low high idle
  have admitted : stopOf (.prepare order rate) s = none :=
    (stopOf_prepare ..).mpr ⟨active, low, high, races_of_othersIdle rfl idle⟩
  have order4 : (order.setWidth 4).toNat = order.toNat := by
    rw [BitVec.toNat_setWidth]; exact Nat.mod_eq_of_lt (by omega)
  exact ⟨afterPrepare order rate s, (exec_next_iff ..).mpr ⟨admitted, rfl⟩, rfl, rfl, order4, rfl, rfl, rfl, rfl,
    rfl, fun i => windowTable_read_lt, fun i => windowTable_read_ge, rfl, rfl, rfl, rfl, queue_of_cursors_eq rfl,
    fun q => by cases q <;> rfl, fun q => by cases q <;> rfl, rfl, rfl, rfl, rfl⟩

/-- Settles O24: the table in each of the two analyser states. -/
theorem setWindowRebuildsTable : Obligations.SetWindowRebuildsTable := by
  intro s type active idle
  have admitted : stopOf (.setWindow type) s = none :=
    (stopOf_setWindow ..).mpr ⟨active, races_of_othersIdle rfl idle⟩
  refine ⟨afterSetWindow type s, (exec_next_iff ..).mpr ⟨admitted, rfl⟩, rfl, fun ready => ?_,
    fun unconfigured => afterSetWindow_win_unconfigured unconfigured type, ⟨rfl, rfl, rfl, rfl, rfl⟩, rfl,
    fun q => by cases q <;> rfl, fun q => by cases q <;> rfl, rfl, rfl, rfl, rfl⟩
  rw [afterSetWindow_win_ready ready]
  exact ⟨fun i => windowTable_read_lt, fun i => windowTable_read_ge⟩

/-- Settles O25, from the clamp on the real value and the hop size in each of the two analyser states. -/
theorem setOverlapClamps : Obligations.SetOverlapClamps := by
  intro s frac active number idle
  have admitted : stopOf (.setOverlap frac) s = none :=
    (stopOf_setOverlap ..).mpr ⟨active, number, races_of_othersIdle rfl idle⟩
  have register : (afterSetOverlap frac s).cfg.overlap =
      if realOf frac < 0 then plusZero else if 0.875 < realOf frac then maxOverlap else frac := clampOverlap_eq frac
  refine ⟨afterSetOverlap frac s, (exec_next_iff ..).mpr ⟨admitted, rfl⟩, fun negative => ?_, fun large => ?_,
    fun low high => ?_, fun ready => afterSetOverlap_hopSize_ready ready frac,
    fun unconfigured => afterSetOverlap_hopSize_unconfigured unconfigured frac, rfl, rfl, ⟨rfl, rfl, rfl, rfl, rfl⟩,
    rfl, fun q => by cases q <;> rfl, fun q => by cases q <;> rfl, rfl, rfl, rfl, rfl⟩
  · rw [register, if_pos negative]; rfl
  · rw [register, if_neg (by linarith), if_pos large]; rfl
  · rw [register, if_neg low.not_gt, if_neg high.not_gt]

/-! ## Refusals (R153, R159, R165, R273) -/

/-- A command without a ring, on a port and in a variant that accept it, is no reserved encoding (R97). -/
theorem reservedTest_noRing {i : Instr} {s : State} (accepted : s.active ∈ i.op.row.ports)
    (variant : i.op.row.variant = none ∨ i.op.row.variant = some s.variant) (noRing : i.ring? = none) :
    reservedTest i s = none := by
  simp [reservedTest, accepted, variant, noRing]

/-- The operands are tested right after the reserved encodings (R273). -/
theorem exec_badOperand {i : Instr} {s : State} {r : Refusal} (reserved : reservedTest i s = none)
    (operand : operandTest i s = some (.refuse r)) : exec i s = .refused r :=
  exec_stop (stop := .refuse r) (by simp [stopOf, reserved, operand])

/-- Settles O23, refusal by refusal. -/
theorem illegalConfigurationRefused : Obligations.IllegalConfigurationRefused := by
  refine fun s active => ⟨fun order rate bad => ?_, fun frac nan => ?_⟩
  · exact exec_badOperand (reservedTest_noRing (by simp [active, Instr.op, Op.row]) (.inl rfl) rfl) (if_neg (by omega))
  · exact exec_badOperand (reservedTest_noRing (by simp [active, Instr.op, Op.row]) (.inl rfl) rfl) (if_pos nan)

/-- A command that needs the analyser has no operand to test, names no ring and needs no sized one. -/
theorem tests_of_needsReady {i : Instr} (h : needsReady i.op = true) (s : State) :
    operandTest i s = none ∧ i.ring? = none ∧ needsSized i.op = false := by
  cases i with
  | getFftSize => exact ⟨rfl, rfl, rfl⟩
  | getNumBins => exact ⟨rfl, rfl, rfl⟩
  | getSampleRate => exact ⟨rfl, rfl, rfl⟩
  | pushSamples data => exact ⟨rfl, rfl, rfl⟩
  | pushSamples2 left right => exact ⟨rfl, rfl, rfl⟩
  | pullFrame n => exact ⟨rfl, rfl, rfl⟩
  | pullFrame2 => exact ⟨rfl, rfl, rfl⟩
  | _ => exact absurd h Bool.false_ne_true

/-- A command that needs the analyser is refused before the first PREPARE (R165). -/
theorem exec_unconfigured {i : Instr} {s : State} (unconfigured : s.cfg.state = .unconfigured)
    (needs : needsReady i.op = true) (accepted : s.active ∈ i.op.row.ports)
    (variant : i.op.row.variant = none ∨ i.op.row.variant = some s.variant) :
    exec i s = .refused .unconfigured := by
  obtain ⟨operand, noRing, -⟩ := tests_of_needsReady needs s
  have reserved := reservedTest_noRing accepted variant noRing
  have state : stateTest i s = some (.refuse .unconfigured) := if_pos ⟨needs, unconfigured⟩
  exact exec_stop (stop := .refuse .unconfigured) (by simp [stopOf, reserved, operand, state])

/-- In Ready a command that needs the analyser races with a reconfiguration command in progress on port `G` (R151,
R165, R297). -/
theorem exec_reconfigRace {i : Instr} {s : State} (ready : s.cfg.state = .ready) (needs : needsReady i.op = true)
    (accepted : s.active ∈ i.op.row.ports)
    (variant : i.op.row.variant = none ∨ i.op.row.variant = some s.variant) (port : s.active ≠ .g)
    (unsettled : ¬ Settled s) : exec i s = .fault .reconfigRace := by
  obtain ⟨operand, noRing, noSize⟩ := tests_of_needsReady needs s
  have state : stateTest i s = none := by simp [stateTest, ready, noSize]
  exact (reconfigurationRaceFaults i s (reservedTest_noRing accepted variant noRing) operand state).mpr
    (.inr ⟨port, unsettled⟩)

/-- The accessors are accepted on every port (R94). -/
theorem mem_accessorPorts (q : Port) : q ∈ Op.getFftSize.row.ports := by cases q <;> decide

/-- Settles O27, command by command. -/
theorem unconfiguredRefused : Obligations.UnconfiguredRefused := by
  refine ⟨fun s data left right n unconfigured => ?_, fun s ready port unsettled => ?_⟩
  · have accessor {i : Instr} (needs : needsReady i.op = true) (ports : i.op.row.ports = Op.getFftSize.row.ports)
        (variant : i.op.row.variant = none) : exec i s = .refused .unconfigured :=
      exec_unconfigured unconfigured needs (ports ▸ mem_accessorPorts s.active) (.inl variant)
    have data {i : Instr} {q : Port} {v : Variant} (needs : needsReady i.op = true) (ports : i.op.row.ports = [q])
        (variant : i.op.row.variant = some v) (port : s.active = q) (sameVariant : s.variant = v) :
        exec i s = .refused .unconfigured :=
      exec_unconfigured unconfigured needs (by simp [ports, port]) (.inr (sameVariant ▸ variant))
    exact ⟨accessor rfl rfl rfl, accessor rfl rfl rfl, accessor rfl rfl rfl, data rfl rfl rfl, data rfl rfl rfl,
      data rfl rfl rfl, data rfl rfl rfl⟩
  · have accessor {i : Instr} (needs : needsReady i.op = true) (ports : i.op.row.ports = Op.getFftSize.row.ports)
        (variant : i.op.row.variant = none) : exec i s = .fault .reconfigRace :=
      exec_reconfigRace ready needs (ports ▸ mem_accessorPorts s.active) (.inl variant) port unsettled
    exact ⟨accessor rfl rfl rfl, accessor rfl rfl rfl, accessor rfl rfl rfl⟩

/-! ## Accessors (R162, R163, R164) -/

/-- A command that reconfigures nothing does not race on port `G`, nor on another port outside a reconfiguration. -/
theorem races_of_settledUnlessG {s : State} {op : Op} (data : isReconfig op = false)
    (settled : s.active ≠ .g → Settled s) : s.races op = false := by
  by_cases active : s.active = .g
  · simp [State.races, data, active]
  · exact races_of_settled data (settled active)

/-- Settles O26: each accessor is admitted and only responds. -/
theorem accessorsAnswerConfiguration : Obligations.AccessorsAnswerConfiguration := by
  intro s ready settled
  have alone {op : Op} (data : isReconfig op = false) := races_of_settledUnlessG data settled
  have sizeAdmitted : stopOf .getFftSize s = none := (stopOf_getFftSize s).mpr ⟨ready, alone rfl⟩
  have binsAdmitted : stopOf .getNumBins s = none := (stopOf_getNumBins s).mpr ⟨ready, alone rfl⟩
  have rateAdmitted : stopOf .getSampleRate s = none := (stopOf_getSampleRate s).mpr ⟨ready, alone rfl⟩
  exact ⟨_, _, _, (exec_next_iff ..).mpr ⟨sizeAdmitted, rfl⟩, responded_respond ..,
    (exec_next_iff ..).mpr ⟨binsAdmitted, rfl⟩, responded_respond ..,
    (exec_next_iff ..).mpr ⟨rateAdmitted, rfl⟩, responded_respond ..,
    sameRings_respond s _, sameAnalyser_respond .., sameMachine_respond ..,
    sameRings_respond s _, sameAnalyser_respond .., sameMachine_respond ..,
    sameRings_respond s _, sameAnalyser_respond .., sameMachine_respond ..⟩

/-! ## The analyser state (R150) -/

/-- No command changes the variant (R8), and one that changes the analyser state is PREPARE, which enters Ready. -/
theorem effect_variant_state (i : Instr) (s : State) :
    (effect i s).variant = s.variant
      ∧ ((effect i s).cfg.state = s.cfg.state
          ∨ (effect i s).cfg.state = .ready ∧ ∃ order rate, i = .prepare order rate) := by
  cases i with
  | prepare order rate => exact ⟨rfl, .inr ⟨rfl, order, rate, rfl⟩⟩
  | setWindow type => exact ⟨rfl, .inl rfl⟩
  | setOverlap frac => exact ⟨rfl, .inl rfl⟩
  | srSetSize ch lc => exact ⟨State.setRing_variant .., .inl (congrArg Cfg.state (State.setRing_cfg ..))⟩
  | srPush ch data => exact ⟨State.setRing_variant .., .inl (congrArg Cfg.state (State.setRing_cfg ..))⟩
  | srPop ch n => simp [effect, afterSrPop]
  | pushSamples data => simp [effect]
  | pushSamples2 left right => simp [effect]
  | pullFrame n =>
    obtain ⟨fr, words, he, -⟩ := effect_pull (i := .pullFrame n) rfl s
    simp [he]
  | pullFrame2 =>
    obtain ⟨fr, words, he, -⟩ := effect_pull (i := .pullFrame2) rfl s
    simp [he]
  | _ => exact ⟨State.respond_variant .., .inl (congrArg Cfg.state (State.respond_cfg ..))⟩

/-- `t` is the same block as `s` (R8), and Ready if `s` is. -/
abbrev StaysReady (s t : State) : Prop :=
  t.variant = s.variant ∧ t.lcMax = s.lcMax ∧ (s.cfg.state = .ready → t.cfg.state = .ready)

theorem effect_staysReady {i : Instr} {s t : State} (h : StaysReady s t) : StaysReady s (effect i t) := by
  obtain ⟨variant, lcMax, ready⟩ := h
  obtain ⟨sameVariant, state⟩ := effect_variant_state i t
  refine ⟨sameVariant.trans variant, (effect_lcMax i t).trans lcMax, fun isReady => ?_⟩
  obtain same | ⟨entered, -⟩ := state
  · exact same.trans (ready isReady)
  · exact entered

/-- Settles O52, step by step and command by command. -/
theorem onlyPrepareEntersReady : Obligations.OnlyPrepareEntersReady := by
  refine ⟨fun s t => ?_, fun i s t answered changed => ?_⟩
  · exact step_keeps (P := StaysReady s) (fun _ _ h => h) (fun _ _ _ h => by simpa [StaysReady] using h)
      (fun _ _ h => h) (fun _ _ _ h => effect_staysReady h) (fun _ _ _ h => by simpa [StaysReady] using h)
      (fun _ _ _ h => by simpa [StaysReady] using h) ⟨rfl, rfl, id⟩
  · obtain ⟨-, rfl⟩ := (exec_next_iff ..).mp answered
    exact (effect_variant_state i s).2.resolve_left changed

end Sys2Proof.Machine
end

section
/-!
The window tables (R160: W1, W2, W3) and the shapes of the reference formulas (R154, R155).
-/

namespace Sys2Proof.Machine

open Sys2Proof

/-! ## The tables -/

/-- W1: the Hann coefficients are symmetric. -/
theorem window_hann_symmetric {size i : Nat} (h : i < size) :
    Numerics.window .hann size (size - 1 - i) = Numerics.window .hann size i := by
  have ends : (size - 1 - i = 0 ∨ size - 1 - i + 1 = size) ↔ (i = 0 ∨ i + 1 = size) := by omega
  have back : size - 1 - (size - 1 - i) = i := by omega
  simp only [Numerics.window, ends, back, Nat.min_comm]

/-- W2: the Hann coefficients at both ends are `+0.0`. -/
theorem window_hann_end {size i : Nat} (h : i = 0 ∨ i + 1 = size) : Numerics.window .hann size i = plusZero :=
  if_pos h

/-- W3: every coefficient is a number in `[0, 1]`. -/
theorem window_mem_unit (type : WindowType) (size i : Nat) :
    isNaN (Numerics.window type size i) = false ∧ 0 ≤ realOf (Numerics.window type size i)
      ∧ realOf (Numerics.window type size i) ≤ 1 := by
  have clamped (r : F32) : isNaN (clampTo plusZero plusOne r) = false ∧ 0 ≤ realOf (clampTo plusZero plusOne r)
      ∧ realOf (clampTo plusZero plusOne r) ≤ 1 := by
    simpa only [realOf_plusZero, realOf_plusOne] using
      clampTo_between (lo := plusZero) (hi := plusOne) (by decide) (by decide) (by decide) r
  cases type with
  | blackmanHarris => exact clamped _
  | hann =>
    by_cases atEnd : i = 0 ∨ i + 1 = size
    · rw [window_hann_end atEnd, realOf_plusZero]
      exact ⟨by decide, le_rfl, zero_le_one⟩
    · rw [Numerics.window, if_neg atEnd]
      exact clamped _

/-- Settles O43: W1, W2 and W3 read back from the table. -/
theorem windowTableProperties : Obligations.WindowTableProperties := by
  intro size two
  refine ⟨fun i h => ?_, ?_, ?_, fun type i h => ?_⟩
  · rw [windowTable_read_lt h, windowTable_read_lt (by omega), window_hann_symmetric h]
  · rw [windowTable_read_lt (by omega), window_hann_end (.inl rfl)]; rfl
  · rw [windowTable_read_lt (by omega), window_hann_end (.inr (by omega))]; rfl
  · exact ⟨_, windowTable_read_lt h, window_mem_unit type size i⟩

/-! ## The reference formulas -/

/-- The formulas' cosines are symmetric: index `size − 1 − i` is a whole number of turns from `−i`. -/
theorem cos_index_symmetric {size i : ℕ} (two : 2 ≤ size) (h : i < size) (turns : ℕ) :
    Real.cos (turns * (2 * Real.pi) * (size - 1 - i : ℕ) / ((size : ℝ) - 1))
      = Real.cos (turns * (2 * Real.pi) * i / ((size : ℝ) - 1)) := by
  have last : (size : ℝ) - 1 ≠ 0 := by
    have : (2 : ℝ) ≤ size := by exact_mod_cast two
    linarith
  have index : ((size - 1 - i : ℕ) : ℝ) = size - 1 - i := by
    rw [Nat.sub_sub, Nat.cast_sub (by omega)]; push_cast; ring
  have angle : turns * (2 * Real.pi) * (size - 1 - i : ℕ) / ((size : ℝ) - 1)
      = turns * (2 * Real.pi) - turns * (2 * Real.pi) * i / ((size : ℝ) - 1) := by
    rw [index]; field_simp
  rw [angle, Real.cos_nat_mul_two_pi_sub]

theorem hann_symmetric {size i : ℕ} (two : 2 ≤ size) (h : i < size) :
    Ref.hann size (size - 1 - i) = Ref.hann size i := by
  have once := cos_index_symmetric two h 1
  rw [Nat.cast_one, one_mul] at once
  rw [Ref.hann, once, Ref.hann]

theorem hann_mem_unit (size i : ℕ) : 0 ≤ Ref.hann size i ∧ Ref.hann size i ≤ 1 := by
  have low := Real.neg_one_le_cos (2 * Real.pi * i / ((size : ℝ) - 1))
  have high := Real.cos_le_one (2 * Real.pi * i / ((size : ℝ) - 1))
  unfold Ref.hann
  constructor <;> linarith

theorem blackmanHarris_symmetric {size i : ℕ} (two : 2 ≤ size) (h : i < size) :
    Ref.blackmanHarris size (size - 1 - i) = Ref.blackmanHarris size i := by
  have once := cos_index_symmetric two h 1
  have twice := cos_index_symmetric two h 2
  have thrice := cos_index_symmetric two h 3
  have four : ((2 : ℕ) : ℝ) * (2 * Real.pi) = 4 * Real.pi := by push_cast; ring
  have six : ((3 : ℕ) : ℝ) * (2 * Real.pi) = 6 * Real.pi := by push_cast; ring
  rw [Nat.cast_one, one_mul] at once
  rw [four] at twice
  rw [six] at thrice
  rw [Ref.blackmanHarris, once, twice, thrice, Ref.blackmanHarris]

theorem hann_zero (size : ℕ) : Ref.hann size 0 = 0 := by simp [Ref.hann]

theorem blackmanHarris_zero (size : ℕ) : Ref.blackmanHarris size 0 = 0.00006 := by
  simp only [Ref.blackmanHarris, Nat.cast_zero, mul_zero, zero_div, Real.cos_zero]
  norm_num

/-- Settles O57: the shapes at index 0, and by symmetry at the last. -/
theorem referenceWindowShapes : Obligations.ReferenceWindowShapes := by
  intro size two
  have hannLast := hann_symmetric two (i := 0) (by omega)
  have blackmanLast := blackmanHarris_symmetric two (i := 0) (by omega)
  rw [Nat.sub_zero, hann_zero] at hannLast
  rw [Nat.sub_zero, blackmanHarris_zero] at blackmanLast
  exact ⟨fun i h => ⟨(hann_symmetric two h).symm, hann_mem_unit size i⟩, hann_zero size, hannLast,
    blackmanHarris_zero size, blackmanLast⟩

end Sys2Proof.Machine
end

section
/-!
The dB map and the pan map (R191, R199, R215, R217): zeros go to zeros and to the floor, and every value stays in its
range.
-/

namespace Sys2Proof.Machine

open Sys2Proof

/-! ## Zeros -/

theorem isZero_iff (x : F32) : isZero x = true ↔ exponentField x = 0 ∧ fractionField x = 0 := by simp [isZero]

theorem isFinite_of_isZero {x : F32} (h : isZero x = true) : isFinite x = true := by
  simp [isFinite, ((isZero_iff x).mp h).1]

theorem isNaN_of_isZero {x : F32} (h : isZero x = true) : isNaN x = false := by
  simp [isNaN, ((isZero_iff x).mp h).1]

theorem scaled_of_isZero {x : F32} (h : isZero x = true) : scaled x = 0 := by
  obtain ⟨exponent, fraction⟩ := (isZero_iff x).mp h
  simp [scaled, absScaled, exponent, fraction]

theorem realOf_of_isZero {x : F32} (h : isZero x = true) : realOf x = 0 := by
  rw [realOf, scaled_of_isZero h, Int.cast_zero, zero_div]

/-- The sign bit alone is a zero. -/
@[simp] theorem isZero_zeroLike (r : F32) : isZero (zeroLike r) = true := by
  simp [isZero_iff, exponentField, fractionField, zeroLike, BitVec.extractLsb'_and]

theorem isZero_mul {x : F32} (h : isZero x = true) (w : F32) : isZero (Numerics.mul x w) = true := by
  simp [Numerics.mul, h]

theorem rfft_silent {y : List F32} (h : ∀ v ∈ y, isZero v = true) (size k : Nat) :
    isZero (Numerics.rfft size y k).1 = true ∧ isZero (Numerics.rfft size y k).2 = true := by
  simp [Numerics.rfft, List.all_eq_true.mpr h]

theorem isZero_mag {re im : F32} (hre : isZero re = true) (him : isZero im = true) (size : Nat) :
    isZero (Numerics.mag re im size) = true := by
  simp [Numerics.mag, hre, him]

theorem isZero_mean2 {a b : F32} (ha : isZero a = true) (hb : isZero b = true) :
    isZero (Numerics.mean2 a b) = true := by
  simp [Numerics.mean2, ha, hb]

/-! ## The dB map (R191) -/

theorem realOf_dbFloor : realOf dbFloor = -100 := by
  rw [realOf, show scaled dbFloor = -100 * 2 ^ 149 by decide]
  norm_num

/-- The model's test against `10^-5` is the one on the real value. -/
theorem scaled_mul_le_oneUnit_iff (m : F32) : scaled m * 10 ^ 5 ≤ (oneUnit : Int) ↔ realOf m ≤ 1e-5 := by
  have unit : (oneUnit : ℝ) = 2 ^ 149 := by exact_mod_cast rfl
  have real : scaled m * 10 ^ 5 ≤ (oneUnit : Int) ↔ (scaled m : ℝ) * 10 ^ 5 ≤ 2 ^ 149 := by
    rw [← unit]; exact_mod_cast Iff.rfl
  rw [real, realOf, div_le_iff₀ (by positivity)]
  constructor <;> intro h <;> linarith

theorem db_of_le {m : F32} (number : isNaN m = false) (le : realOf m ≤ 1e-5) : Numerics.db m = dbFloor := by
  rw [Numerics.db, number, decide_eq_true ((scaled_mul_le_oneUnit_iff m).mpr le)]
  rfl

theorem db_of_isZero {m : F32} (h : isZero m = true) : Numerics.db m = dbFloor :=
  db_of_le (isNaN_of_isZero h) (by rw [realOf_of_isZero h]; norm_num)

/-- The floor gives a number at or above it. -/
theorem floorDb_ge (r : F32) : isNaN (Numerics.floorDb r) = false ∧ -100 ≤ realOf (Numerics.floorDb r) := by
  rw [Numerics.floorDb]
  split_ifs with floored
  · exact ⟨by decide, realOf_dbFloor.ge⟩
  · obtain ⟨number, above⟩ : isNaN r = false ∧ scaled dbFloor ≤ scaled r := by simpa using floored
    rw [← realOf_dbFloor, realOf_le_realOf_iff]
    exact ⟨number, above⟩

/-- F2: a dB value is a number, at least −100. -/
theorem db_ge (m : F32) : isNaN (Numerics.db m) = false ∧ -100 ≤ realOf (Numerics.db m) := by
  rw [Numerics.db]
  split_ifs with floored
  · exact ⟨by decide, realOf_dbFloor.ge⟩
  · exact floorDb_ge _

/-- The reference dB value is the floor exactly up to a magnitude of `10^-5`. -/
theorem refDb_eq_floor_iff (m : ℝ) : Ref.db m = -100 ↔ m ≤ 1e-5 := by
  rw [Ref.db, max_eq_right_iff]
  split_ifs with positive
  · have exponent : 20 * Real.logb 10 m ≤ -100 ↔ Real.logb 10 m ≤ -5 := by constructor <;> intro h <;> linarith
    rw [exponent, Real.logb_le_iff_le_rpow (by norm_num) positive]
    norm_num
  · have : m ≤ 1e-5 := (not_lt.mp positive).trans (by norm_num)
    simp [this]

/-- Settles O44: up to `10^-5` both maps are at the floor, and no dB value is below it. -/
theorem dbFloorMatchesReference : Obligations.DbFloorMatchesReference :=
  ⟨realOf_dbFloor, fun _ number le => ⟨db_of_le number le, (refDb_eq_floor_iff _).mpr le⟩, db_ge⟩

/-! ## The pan map (R215) -/

theorem realOf_minusOne : realOf minusOne = -1 := by
  rw [realOf, show scaled minusOne = -2 ^ 149 by decide]
  norm_num

/-- Zero magnitudes are below the threshold. -/
theorem pan_of_isZero {a b : F32} (ha : isZero a = true) (hb : isZero b = true) : Numerics.pan a b = plusZero := by
  simp [Numerics.pan, isNaN_of_isZero, scaled_of_isZero, ha, hb]

/-- S4: a pan value is a number in `[−1, +1]`. -/
theorem pan_mem_unit (a b : F32) :
    isNaN (Numerics.pan a b) = false ∧ -1 ≤ realOf (Numerics.pan a b) ∧ realOf (Numerics.pan a b) ≤ 1 := by
  have zero {x : F32} (h : isZero x = true) : isNaN x = false ∧ -1 ≤ realOf x ∧ realOf x ≤ 1 := by
    rw [realOf_of_isZero h]
    exact ⟨isNaN_of_isZero h, by norm_num, by norm_num⟩
  have clamped (r : F32) : isNaN (clampTo minusOne plusOne r) = false ∧ -1 ≤ realOf (clampTo minusOne plusOne r)
      ∧ realOf (clampTo minusOne plusOne r) ≤ 1 := by
    rw [← realOf_minusOne, ← realOf_plusOne]
    exact clampTo_between (by decide) (by decide) (by decide) r
  unfold Numerics.pan
  split_ifs
  · exact zero (isZero_zeroLike _)
  · exact clamped _
  · exact zero (by decide)
  · exact zero (isZero_zeroLike _)
  · rw [realOf_minusOne]
    exact ⟨by decide, by norm_num, by norm_num⟩
  · rw [realOf_plusOne]
    exact ⟨by decide, by norm_num, by norm_num⟩
  · exact clamped _

end Sys2Proof.Machine
end

section
/-!
The frames of the FFT step (R185..R192, R213..R215), bin by bin from the magnitudes of the channels: their values, the
frame of silence, and the range of every stored word.
-/

namespace Sys2Proof.Machine

open Sys2Proof

/-! ## Frames of finite samples -/

theorem monoFrame_mag {s : State} (finite : s.frameFinite .left = true) :
    s.monoFrame.mag = (s.magnitudes .left).map Numerics.db := by rw [State.monoFrame, if_pos finite]

/-- The magnitudes of the two channels, bin by bin. -/
def State.magnitudePairs (s : State) : List (F32 × F32) := (s.magnitudes .left).zip (s.magnitudes .right)

theorem stereoFrame_of_finite {s : State} (left : s.frameFinite .left = true) (right : s.frameFinite .right = true) :
    s.stereoFrame =
      { mag := s.magnitudePairs.map fun m => Numerics.db (Numerics.mean2 m.1 m.2)
        pan := s.magnitudePairs.map fun m => Numerics.pan m.1 m.2 } := by
  rw [State.stereoFrame, left, right]
  rfl

/-- Settles O38: the frame is `NUM.db` of the magnitudes over the windowed samples. -/
theorem monoFrameIsTransformOfWindowedSamples : Obligations.MonoFrameIsTransformOfWindowedSamples := by
  intro s finite
  refine ⟨monoFrame_mag_length s, fun k hk => ?_⟩
  simp [monoFrame_mag finite, magnitudes_eq, State.windowed, hk]

/-! ## Silence (F1, S5) -/

/-- Every sample of the channel's frame is `+0.0` or `−0.0`. -/
abbrev Silent (s : State) (c : Channel) : Prop := ∀ j, j < s.cfg.fftSize → isZero (s.accWord c j) = true

theorem frameFinite_of_silent {s : State} {c : Channel} (h : Silent s c) : s.frameFinite c = true :=
  List.all_eq_true.mpr fun j hj => isFinite_of_isZero (h j (List.mem_range.mp hj))

/-- Silence stays silent through the window and the transform. -/
theorem magnitudes_of_silent {s : State} {c : Channel} (h : Silent s c) : ∀ m ∈ s.magnitudes c, isZero m = true := by
  have windowed : ∀ v ∈ s.windowed c, isZero v = true := by
    intro v hv
    obtain ⟨j, hj, rfl⟩ := List.mem_map.mp hv
    exact isZero_mul (h j (List.mem_range.mp hj)) _
  intro m hm
  rw [magnitudes_eq] at hm
  obtain ⟨k, -, rfl⟩ := List.mem_map.mp hm
  obtain ⟨re, im⟩ := rfft_silent windowed s.cfg.fftSize k
  exact isZero_mag re im _

theorem magnitudePairs_of_silent {s : State} (left : Silent s .left) (right : Silent s .right) :
    ∀ m ∈ s.magnitudePairs, isZero m.1 = true ∧ isZero m.2 = true := by
  rintro ⟨a, b⟩ hm
  obtain ⟨ha, hb⟩ := List.of_mem_zip hm
  exact ⟨magnitudes_of_silent left a ha, magnitudes_of_silent right b hb⟩

/-- Settles O40: every magnitude of a silent channel is a zero. -/
theorem silenceGivesFloor : Obligations.SilenceGivesFloor := by
  intro s left
  have finiteLeft := frameFinite_of_silent left
  refine ⟨List.eq_replicate_iff.mpr ⟨monoFrame_mag_length s, fun x hx => ?_⟩, fun right => ?_⟩
  · rw [monoFrame_mag finiteLeft] at hx
    obtain ⟨m, hm, rfl⟩ := List.mem_map.mp hx
    exact db_of_isZero (magnitudes_of_silent left m hm)
  · have frame := stereoFrame_of_finite finiteLeft (frameFinite_of_silent right)
    have zeros := magnitudePairs_of_silent left right
    refine ⟨List.eq_replicate_iff.mpr ⟨stereoFrame_mag_length s, fun x hx => ?_⟩,
      List.eq_replicate_iff.mpr ⟨stereoFrame_pan_length s, fun x hx => ?_⟩⟩
    · rw [frame] at hx
      obtain ⟨m, hm, rfl⟩ := List.mem_map.mp hx
      exact db_of_isZero (isZero_mean2 (zeros m hm).1 (zeros m hm).2)
    · rw [frame] at hx
      obtain ⟨m, hm, rfl⟩ := List.mem_map.mp hx
      exact pan_of_isZero (zeros m hm).1 (zeros m hm).2

/-! ## Range (F2, S4) -/

/-- Settles O41: every stored word of a finite frame is a dB value or a pan value. -/
theorem storedBinsInRange : Obligations.StoredBinsInRange := by
  intro s finiteLeft
  refine ⟨fun x hx => ?_, fun finiteRight => ?_⟩
  · rw [monoFrame_mag finiteLeft] at hx
    obtain ⟨m, -, rfl⟩ := List.mem_map.mp hx
    exact db_ge m
  · rw [stereoFrame_of_finite finiteLeft finiteRight]
    refine ⟨fun x hx => ?_, fun x hx => ?_⟩
    · obtain ⟨m, -, rfl⟩ := List.mem_map.mp hx
      exact db_ge _
    · obtain ⟨m, -, rfl⟩ := List.mem_map.mp hx
      exact pan_mem_unit _ _

end Sys2Proof.Machine
end

section
/-!
Ingest of a Mono block (R181..R184, R193): what one sample and a run of samples leave, and from it what PUSHSAMPLES
answers.
-/

namespace Sys2Proof.Machine

open Sys2Proof

/-! ## What ingest leaves alone -/

@[simp] theorem ingest_acc1 (s : State) (x : F32) : (ingest s x).acc1 = s.acc1 := by
  simp only [ingest]; split <;> rfl

@[simp] theorem ingest_fftbuf1 (s : State) (x : F32) : (ingest s x).fftbuf1 = s.fftbuf1 := by
  simp only [ingest]; split <;> rfl

@[simp] theorem afterPushSamples_acc1 (data : List F32) (s : State) : (afterPushSamples data s).acc1 = s.acc1 :=
  foldl_keeps (fun s => s.acc1) ingest ingest_acc1 data s

@[simp] theorem afterPushSamples_fftbuf1 (data : List F32) (s : State) :
    (afterPushSamples data s).fftbuf1 = s.fftbuf1 :=
  foldl_keeps (fun s => s.fftbuf1) ingest ingest_fftbuf1 data s

@[simp] theorem afterPushSamples_ring (data : List F32) (s : State) (q : RingId) :
    (afterPushSamples data s).ring q = s.ring q := by cases q <;> simp [State.ring]

@[simp] theorem afterPushSamples_port (data : List F32) (s : State) (q : Port) :
    (afterPushSamples data s).port q = s.port q := by cases q <;> simp [State.port]

/-- PUSHSAMPLES completes on port D of a Ready Mono block outside a reconfiguration. -/
theorem exec_pushSamples {s : State} (active : s.active = .d) (mono : s.variant = .mono)
    (ready : s.cfg.state = .ready) (settled : Settled s) (data : List F32) :
    exec (.pushSamples data) s = .next (afterPushSamples data s) :=
  (exec_next_iff ..).mpr ⟨(stopOf_pushSamples ..).mpr ⟨active, mono, ready, races_of_settled rfl settled⟩, rfl⟩

/-! ## A run that fills nothing (R182) -/

/-- Samples that do not fill the accumulator are written one after another, and the offset moves past them. -/
theorem afterPushSamples_short (data : List F32) {s : State} (short : s.writePos + data.length < s.cfg.fftSize) :
    afterPushSamples data s =
      { s with
        acc0 := Memory.writeRun s.cfg.fftSize s.writePos data s.acc0
        writePos := s.writePos + data.length } := by
  induction data generalizing s with
  | nil => rfl
  | cons x data ih =>
    rw [List.length_cons] at short
    have first : afterPushSamples (x :: data) s = afterPushSamples data (append x s) := by
      rw [← ingest_short s x (by omega)]; rfl
    have rest : (append x s).writePos + data.length < (append x s).cfg.fftSize := by
      change s.writePos + 1 + data.length < s.cfg.fftSize
      omega
    rw [first, ih rest, Memory.writeRun, Nat.mod_eq_of_lt (by omega), List.length_cons, Nat.add_comm data.length 1,
      ← Nat.add_assoc]
    rfl

/-- Settles O34, from the run of writes the samples are. -/
theorem pushSamplesAppends : Obligations.PushSamplesAppends := by
  intro s data active mono ready settled short
  have position {j : Nat} (hj : j < data.length) : (s.writePos + j) % s.cfg.fftSize = s.writePos + j :=
    Nat.mod_eq_of_lt (by omega)
  refine ⟨_, exec_pushSamples active mono ready settled data, ?_⟩
  rw [afterPushSamples_short data short]
  refine ⟨rfl, fun j hj => ?_, fun a outside => ?_, rfl, rfl, rfl, rfl, ⟨rfl, rfl⟩, fun q => by cases q <;> rfl,
    fun q => by cases q <;> rfl, rfl, rfl, rfl, rfl⟩
  · have read := Memory.read_writeRun s.cfg.fftSize s.writePos data (by omega) s.acc0 j hj
    rwa [position hj] at read
  · exact Memory.read_writeRun_other _ _ _ _ _ fun j hj => by rw [position hj]; omega

/-! ## The sample that fills the accumulator (R183, R184, R232) -/

/-- What an append leaves at each position. -/
theorem append_read (x : F32) (s : State) (a : Nat) :
    (append x s).acc0.read a = if a = s.writePos then some x else s.acc0.read a := Memory.read_write ..

theorem ingest_full_slots {s : State} (x : F32) (full : s.writePos + 1 = s.cfg.fftSize) :
    (ingest s x).fr.slots =
      s.fr.slots.write (frameSlot s.fr.w) (s.framedSlot (append x s).monoFrame) := by
  rw [ingest_full s x full]; rfl

/-- The shift of the filled accumulator (R184). -/
theorem ingest_full_read {s : State} (x : F32) (full : s.writePos + 1 = s.cfg.fftSize) (a : Nat) :
    (ingest s x).acc0.read a =
      if a < s.cfg.fftSize - s.cfg.hopSize then (append x s).acc0.read (a + s.cfg.hopSize)
      else (append x s).acc0.read a := by
  rw [ingest_full s x full]
  exact Memory.read_shiftDown ..

theorem ingest_full_offset {s : State} (x : F32) (full : s.writePos + 1 = s.cfg.fftSize) :
    (ingest s x).writePos = s.cfg.fftSize - s.cfg.hopSize ∧ (ingest s x).fr.w = s.fr.w + 1 := by
  rw [ingest_full s x full]; exact ⟨rfl, rfl⟩

/-- Settles O35, from the frame pushed and the shift. -/
theorem filledAccumulatorFramesAndShifts : Obligations.FilledAccumulatorFramesAndShifts := by
  intro s x active mono ready settled full
  obtain ⟨offset, frames⟩ := ingest_full_offset x full
  refine ⟨ingest s x, exec_pushSamples active mono ready settled [x], ⟨fun j hj => ?_, fun j hj => ?_⟩, offset,
    frames, ⟨s.framedSlot (append x s).monoFrame, ?_, rfl⟩, fun a other => ?_, ingest_fr_r s x, ingest_fr_bins s x,
    ingest_acc1 s x⟩
  · rw [ingest_full_read x full, if_pos hj, append_read]
  · rw [ingest_full_read x full, if_neg (by omega), append_read]
  · rw [ingest_full_slots x full, Memory.read_write_same]
  · rw [ingest_full_slots x full, Memory.read_write_other _ _ other]

/-! ## A whole PUSHSAMPLES (R193) -/

theorem ingest_short_offset {s : State} (x : F32) (short : s.writePos + 1 ≠ s.cfg.fftSize) :
    (ingest s x).writePos = s.writePos + 1 ∧ (ingest s x).fr = s.fr := by
  rw [ingest_short s x short]; exact ⟨rfl, rfl⟩

/-- R193 for single samples (R181). -/
theorem afterPushSamples_frames_offset (data : List F32) {s : State} (pos : 1 ≤ s.cfg.hopSize)
    (le : s.cfg.hopSize ≤ s.cfg.fftSize) (below : s.writePos < s.cfg.fftSize) :
    (afterPushSamples data s).writePos = finalOffset s.writePos data.length s.cfg.fftSize s.cfg.hopSize
      ∧ (afterPushSamples data s).fr.w =
          s.fr.w + BitVec.ofNat 32 (framesProduced s.writePos data.length s.cfg.fftSize s.cfg.hopSize) :=
  foldl_frames_offset ingest_cfg
    (fun s x short => by obtain ⟨offset, fr⟩ := ingest_short_offset x short; exact ⟨offset, by rw [fr]⟩)
    (fun s x => ingest_full_offset x) data pos le below

/-- A run of single ingests, each of which writes at most the slot of the frame it makes, writes no slot but those of
its frames. -/
theorem foldl_slots_other {α : Type} {g : State → α → State} (cfg : ∀ s x, (g s x).cfg = s.cfg)
    (short : ∀ s x, s.writePos + 1 ≠ s.cfg.fftSize → (g s x).writePos = s.writePos + 1 ∧ (g s x).fr = s.fr)
    (full : ∀ s x, s.writePos + 1 = s.cfg.fftSize →
      (g s x).writePos = s.cfg.fftSize - s.cfg.hopSize ∧ (g s x).fr.w = s.fr.w + 1)
    (slots : ∀ s x a, s.writePos + 1 = s.cfg.fftSize → a ≠ frameSlot s.fr.w →
      (g s x).fr.slots.read a = s.fr.slots.read a)
    (l : List α) {s : State} (pos : 1 ≤ s.cfg.hopSize) (le : s.cfg.hopSize ≤ s.cfg.fftSize)
    (below : s.writePos < s.cfg.fftSize) {a : Nat}
    (other : ∀ i, i < framesProduced s.writePos l.length s.cfg.fftSize s.cfg.hopSize →
      frameSlot (s.fr.w + BitVec.ofNat 32 i) ≠ a) :
    (l.foldl g s).fr.slots.read a = s.fr.slots.read a := by
  induction l generalizing s with
  | nil => rfl
  | cons x l ih =>
    rw [List.length_cons] at other
    have rest := ih (s := g s x)
    rw [cfg] at rest
    rw [List.foldl_cons]
    by_cases fills : s.writePos + 1 = s.cfg.fftSize
    · obtain ⟨offset, frames⟩ := full s x fills
      rw [framesProduced_succ_full le fills pos] at other
      rw [offset, frames] at rest
      have first : a ≠ frameSlot s.fr.w := by simpa using (other 0 (Nat.succ_pos _)).symm
      rw [rest pos le (by omega) fun i hi => ?_, slots s x a fills first]
      simpa [BitVec.ofNat_add, BitVec.add_assoc, BitVec.add_comm 1#32] using other (i + 1) (by omega)
    · obtain ⟨offset, fr⟩ := short s x fills
      rw [framesProduced_succ_short] at other
      rw [offset, fr] at rest
      exact rest pos le (by omega) other

theorem afterPushSamples_slots_other (data : List F32) {s : State} (pos : 1 ≤ s.cfg.hopSize)
    (le : s.cfg.hopSize ≤ s.cfg.fftSize) (below : s.writePos < s.cfg.fftSize) {a : Nat}
    (other : ∀ i, i < framesProduced s.writePos data.length s.cfg.fftSize s.cfg.hopSize →
      frameSlot (s.fr.w + BitVec.ofNat 32 i) ≠ a) :
    (afterPushSamples data s).fr.slots.read a = s.fr.slots.read a := by
  refine foldl_slots_other ingest_cfg (fun s x => ingest_short_offset x) (fun s x => ingest_full_offset x) ?_ data pos
    le below other
  intro s x a full other
  rw [ingest_full_slots x full, Memory.read_write_other _ _ other]

/-- A sample reaches no position from `fftSize` on. -/
theorem ingest_read_beyond {s : State} (below : s.writePos < s.cfg.fftSize) (x : F32) {a : Nat}
    (beyond : s.cfg.fftSize ≤ a) : (ingest s x).acc0.read a = s.acc0.read a := by
  have appended : (append x s).acc0.read a = s.acc0.read a := by rw [append_read, if_neg (by omega)]
  by_cases full : s.writePos + 1 = s.cfg.fftSize
  · rw [ingest_full_read x full, if_neg (by omega), appended]
  · rw [ingest_short s x full, appended]

theorem afterPushSamples_read_beyond (data : List F32) {s : State} (pos : 1 ≤ s.cfg.hopSize)
    (below : s.writePos < s.cfg.fftSize) {a : Nat} (beyond : s.cfg.fftSize ≤ a) :
    (afterPushSamples data s).acc0.read a = s.acc0.read a := by
  have kept := foldl_invariant
    (fun t => t.cfg = s.cfg ∧ t.writePos < t.cfg.fftSize ∧ t.acc0.read a = s.acc0.read a) ingest ?_ data s
    ⟨rfl, below, rfl⟩
  · exact kept.2.2
  · rintro t x ⟨cfg, offset, same⟩
    refine ⟨(ingest_cfg t x).trans cfg, ?_, ?_⟩
    · rw [ingest_cfg]; exact ingest_writePos_lt (cfg ▸ pos) offset x
    · rw [ingest_read_beyond offset x (cfg ▸ beyond), same]

/-- Settles O33: frames and offset by the count of R193, the slots and the accumulator by what a run leaves alone. -/
theorem pushSamplesFramesAndOffset : Obligations.PushSamplesFramesAndOffset := by
  intro s data active mono ready settled
  refine ⟨_, exec_pushSamples active mono ready settled data, fun pos le below => ?_, afterPushSamples_fr_r data s,
    afterPushSamples_fr_bins data s, afterPushSamples_acc1 data s, afterPushSamples_fftbuf1 data s,
    ⟨afterPushSamples_cfg data s, afterPushSamples_win data s⟩, afterPushSamples_ring data s,
    afterPushSamples_port data s, afterPushSamples_variant data s, afterPushSamples_lcMax data s,
    afterPushSamples_active data s, afterPushSamples_agenda data s⟩
  obtain ⟨offset, frames⟩ := afterPushSamples_frames_offset data pos le below
  exact ⟨frames, offset, fun a other => afterPushSamples_slots_other data pos le below other,
    fun a beyond => afterPushSamples_read_beyond data pos below beyond⟩

end Sys2Proof.Machine
end

section
/-!
A PUSHSAMPLES or PUSHSAMPLES2 in two pieces (R181, R211, R298): the two commands one after another, and a part of the
command in progress followed by its completion. Ingest looks at no port and at no turn, so a part may run before the
rest's words are taken.
-/

namespace Sys2Proof.Machine

open Sys2Proof

/-! ## Two commands (V22) -/

theorem races_congr {s t : State} (active : t.active = s.active) (busy : ∀ q, (t.port q).busy = (s.port q).busy)
    (op : Op) : t.races op = s.races op := by
  have others : t.othersBusy = s.othersBusy := by
    simp only [State.othersBusy, show t.portP.busy = s.portP.busy from busy .p,
      show t.portD.busy = s.portD.busy from busy .d, show t.portR.busy = s.portR.busy from busy .r]
  simp only [State.races, others, active, State.reconfigInProgress, State.busyOp, busy]

/-- A command of which an admitted one is the first piece is that piece and then the other. -/
theorem exec_eq_andThen {whole first last : Instr} {s : State} (stop : stopOf whole s = stopOf first s)
    (admitted : stopOf first s = none → stopOf last (effect first s) = none)
    (joined : effect whole s = effect last (effect first s)) :
    exec whole s = andThen (exec first s) (exec last) := by
  cases h : stopOf first s with
  | none =>
    have begun : exec first s = .next (effect first s) := (exec_next_iff ..).mpr ⟨h, rfl⟩
    rw [andThen_next begun, (exec_next_iff ..).mpr ⟨stop.trans h, rfl⟩, (exec_next_iff ..).mpr ⟨admitted h, rfl⟩,
      joined]
  | some reason =>
    rw [exec_stop h, exec_stop (stop.trans h)]
    cases reason <;> rfl

theorem exec_pushSamples_append (a b : List F32) (s : State) :
    exec (.pushSamples (a ++ b)) s = andThen (exec (.pushSamples a) s) (exec (.pushSamples b)) := by
  refine exec_eq_andThen rfl (fun h => ?_) (List.foldl_append ..)
  obtain ⟨active, mono, ready, alone⟩ := (stopOf_pushSamples a s).mp h
  have races := races_congr (s := s) (afterPushSamples_active a s) (effect_busy (.pushSamples a) s) .pushSamples
  exact (stopOf_pushSamples ..).mpr ⟨(afterPushSamples_active a s).trans active,
    (afterPushSamples_variant a s).trans mono, (congrArg Cfg.state (afterPushSamples_cfg a s)).trans ready,
    races.trans alone⟩

theorem exec_pushSamples2_append {la ra : List F32} (same : la.length = ra.length) (lb rb : List F32) (s : State) :
    exec (.pushSamples2 (la ++ lb) (ra ++ rb)) s =
      andThen (exec (.pushSamples2 la ra) s) (exec (.pushSamples2 lb rb)) := by
  refine exec_eq_andThen rfl (fun h => ?_) ?_
  · obtain ⟨active, stereo, ready, alone⟩ := (stopOf_pushSamples2 la ra s).mp h
    have races := races_congr (s := s) (afterPushSamples2_active la ra s) (effect_busy (.pushSamples2 la ra) s)
      .pushSamples2
    exact (stopOf_pushSamples2 ..).mpr ⟨(afterPushSamples2_active la ra s).trans active,
      (afterPushSamples2_variant la ra s).trans stereo,
      (congrArg Cfg.state (afterPushSamples2_cfg la ra s)).trans ready, races.trans alone⟩
  · change ((la ++ lb).zip (ra ++ rb)).foldl ingest2 s = (lb.zip rb).foldl ingest2 ((la.zip ra).foldl ingest2 s)
    rw [List.zip_append same, List.foldl_append]

/-- Settles O8, from the two commands' runs of samples. -/
theorem splittingPushSamplesChangesNothing : Obligations.SplittingPushSamplesChangesNothing :=
  ⟨exec_pushSamples_append, fun _ lb _ rb s same => exec_pushSamples2_append same lb rb s⟩

/-! ## A part of the command in progress (R298) -/

/-- Port `D`, the active port and the turns to come replaced: what the turns of port `D` change around a command. -/
def State.withTurn (port : PortState) (turns : List Turn) (s : State) : State :=
  { s with portD := port, active := .d, agenda := turns }

theorem ingest_withTurn (port : PortState) (turns : List Turn) (s : State) (x : F32) :
    ingest (s.withTurn port turns) x = (ingest s x).withTurn port turns := by
  by_cases full : s.writePos + 1 = s.cfg.fftSize
  · rw [ingest_full s x full, ingest_full (s.withTurn port turns) x full]; rfl
  · rw [ingest_short s x full, ingest_short (s.withTurn port turns) x full]; rfl

theorem ingest2_withTurn (port : PortState) (turns : List Turn) (s : State) (x : F32 × F32) :
    ingest2 (s.withTurn port turns) x = (ingest2 s x).withTurn port turns := by
  by_cases full : s.writePos + 1 = s.cfg.fftSize
  · rw [ingest2_full s x full, ingest2_full (s.withTurn port turns) x full]; rfl
  · rw [ingest2_short s x full, ingest2_short (s.withTurn port turns) x full]; rfl

/-- The ingest of a command looks at no port and at no turn. -/
abbrev IgnoresTurn (i : Instr) : Prop :=
  ∀ port turns s, effect i (s.withTurn port turns) = (effect i s).withTurn port turns

theorem pushSamples_ignoresTurn (data : List F32) : IgnoresTurn (.pushSamples data) :=
  fun port turns _ => List.foldl_hom (State.withTurn port turns) (ingest_withTurn port turns)

theorem pushSamples2_ignoresTurn (left right : List F32) : IgnoresTurn (.pushSamples2 left right) :=
  fun port turns _ => List.foldl_hom (State.withTurn port turns) (ingest2_withTurn port turns)

/-- The port `D` served by a turn: the given words offered, nothing in progress. -/
def State.servedD (s : State) (input : List Word) : PortState :=
  { s.portD with input := input, busy := none, measured := none }

theorem onPort_d_eq_withTurn (input : List Word) (s : State) :
    onPort .d input none none s = s.withTurn (s.servedD input) s.agenda := rfl

/-- The admission test looks at no offered word and at no turn. -/
theorem stopOf_withTurn_served (i : Instr) (s : State) (input input' : List Word) (turns turns' : List Turn) :
    stopOf i (s.withTurn (s.servedD input) turns) = stopOf i (s.withTurn (s.servedD input') turns') := rfl

/-- What a part of a command leaves: the effect of the part, with the rest of the command in progress. -/
theorem part_next {first : Instr} (ignores : IgnoresTurn first) {head : Word} {offered : List Word} {s s1 : State}
    (part : mapNext (fun t => t.setPort .d { t.portD with busy := some head })
      (completeOn .d first offered s) = .next s1) :
    stopOf first (s.withTurn (s.servedD offered) s.agenda) = none
      ∧ s1 = (effect first s).withTurn { s.servedD offered with busy := some head } s.agenda := by
  obtain ⟨u, run, rfl⟩ := mapNext_next part
  obtain ⟨admitted, rfl⟩ := (exec_next_iff ..).mp run
  rw [onPort_d_eq_withTurn] at admitted ⊢
  exact ⟨admitted, by rw [ignores]; rfl⟩

/-- The first piece of a command, done while the words of the last piece stay offered, and then the last piece, are the
whole command. -/
theorem run_after_part {whole first last : Instr}
    (pieces : ∀ s, exec whole s = andThen (exec first s) (exec last)) (ignores : IgnoresTurn first)
    {s s1 : State} {turns : List Turn} (agenda : s.agenda = .run .d :: turns) {head : Word} {offered rest : List Word}
    (left : decode .d (head :: offered) = .command last rest)
    (part : mapNext (fun t => t.setPort .d { t.portD with busy := some head })
      (completeOn .d first offered s) = .next s1) :
    step s1 = completeOn .d whole rest { s with agenda := turns } := by
  obtain ⟨admitted, hs1⟩ := part_next ignores part
  have turn : s1.agenda = .run .d :: turns := by rw [hs1]; exact agenda
  have begun : exec first (s.withTurn (s.servedD rest) turns) =
      .next ((effect first s).withTurn (s.servedD rest) turns) := by
    rw [stopOf_withTurn_served first s offered rest s.agenda turns] at admitted
    exact (exec_next_iff ..).mpr ⟨admitted, ignores ..⟩
  calc step s1 = runPort .d { s1 with agenda := turns } := step_run turn
    _ = exec last ((effect first s).withTurn (s.servedD rest) turns) := by
      rw [hs1]; exact runPort_busy (q := .d) rfl left
    _ = exec whole (s.withTurn (s.servedD rest) turns) := by rw [pieces, andThen_next begun]

/-! ## The words of a command in progress (R92) -/

theorem fieldN24_remainingHead (w : Word) (k : Nat) :
    (fieldN24 (remainingHead w k)).toNat = (fieldN24 w).toNat - k := by
  have := (fieldN24 w).isLt
  rw [remainingHead, Laws.HeadRoundTrip.fieldN24_counted, BitVec.toNat_ofNat, Nat.mod_eq_of_lt (by omega)]

theorem decode_samples {w : Word} (row : opOf w = some .pushSamples) {data : List Word}
    (count : data.length = (fieldN24 w).toNat) (tail : List Word) :
    decode .d (w :: (data ++ tail)) = .command (.pushSamples data) tail := by
  have need : Op.pushSamples.need w = data.length := count.symm
  refine (decode_command_iff ..).mpr ⟨w, data ++ tail, .pushSamples, rfl, row, rfl, ?_, ?_, ?_⟩
  · rw [need, List.length_append]; exact Nat.le_add_right ..
  · rw [assemble, ← count, List.take_left]
  · rw [need, List.drop_left]

theorem decode_samplePairs {w : Word} (row : opOf w = some .pushSamples2) {left right : List Word}
    (countLeft : left.length = (fieldN24 w).toNat) (countRight : right.length = (fieldN24 w).toNat)
    (tail : List Word) : decode .d (w :: (left ++ right ++ tail)) = .command (.pushSamples2 left right) tail := by
  have need : Op.pushSamples2.need w = (left ++ right).length := by
    rw [List.length_append, countLeft, countRight, ← Nat.two_mul]; rfl
  obtain ⟨takeLeft, takeRight⟩ := take_append_halves (countLeft.trans countRight.symm) need tail
  refine (decode_command_iff ..).mpr ⟨w, left ++ right ++ tail, .pushSamples2, rfl, row, rfl, ?_, ?_, ?_⟩
  · rw [need, List.length_append (bs := tail)]; exact Nat.le_add_right ..
  · rw [assemble, takeLeft, takeRight]
  · rw [need, List.drop_left]

/-- The turn of port `D` with a data command in progress, whose words are all offered. -/
theorem step_dataBusy {s : State} {turns : List Turn} {w : Word} {i : Instr} {rest : List Word}
    (agenda : s.agenda = .run .d :: turns) (busy : s.portD.busy = some w)
    (decoded : decode .d (w :: s.portD.input) = .command i rest)
    (unlimited : limited s.portD.measured i = i) : step s = completeOn .d i rest { s with agenda := turns } := by
  obtain ⟨-, busyTurn, -⟩ := stepRunsDecodedCommand
  exact (busyTurn s .d turns w i rest agenda busy decoded).trans (congrArg (completeOn .d · rest _) unlimited)

/-! ## The turn `part` -/

theorem step_part {s : State} {k : Nat} {turns : List Turn} (h : s.agenda = .part k :: turns) :
    step s = partPort k { s with agenda := turns } := by
  simp [step, h, takeTurn]

/-- Part of a PUSHSAMPLES: its first samples are ingested, the others stay offered. -/
theorem partMono_eq {s : State} {w : Word} {data tail : List Word} (offered : s.portD.input = data ++ tail)
    (count : data.length = (fieldN24 w).toNat) {k k' : Nat} (part : min k (fieldN24 w).toNat = k') :
    partMono w k s =
      mapNext (fun t => t.setPort .d { t.portD with busy := some (remainingHead w k') })
        (completeOn .d (.pushSamples (data.take k')) (data.drop k' ++ tail) s) := by
  have le : k' ≤ data.length := by omega
  have enough : k' ≤ (data ++ tail).length := by rw [List.length_append]; omega
  simp only [partMono, part, offered, if_pos enough, List.take_append_of_le_length le,
    List.drop_append_of_le_length le]

/-- Part of a PUSHSAMPLES2: the first samples of each channel are ingested, the others stay offered, left before
right. -/
theorem partStereo_eq {s : State} {w : Word} {left right tail : List Word}
    (offered : s.portD.input = left ++ right ++ tail) (countLeft : left.length = (fieldN24 w).toNat)
    (countRight : right.length = (fieldN24 w).toNat) {k k' : Nat} (part : min k (fieldN24 w).toNat = k') :
    partStereo w k s =
      mapNext (fun t => t.setPort .d { t.portD with busy := some (remainingHead w k') })
        (completeOn .d (.pushSamples2 (left.take k') (right.take k')) (left.drop k' ++ right.drop k' ++ tail) s) := by
  have le : k' ≤ right.length := by omega
  have enough : (fieldN24 w).toNat + k' ≤ (left ++ (right ++ tail)).length := by
    simp only [List.length_append]; omega
  rw [List.append_assoc] at offered
  simp only [partStereo, part, offered, if_pos enough, List.take_left' countLeft, List.drop_left' countLeft,
    List.take_append_of_le_length le, List.drop_append_of_le_length le, List.append_assoc]

theorem partThenRun_mono {s s1 : State} {w : Word} {k : Nat} {turns : List Turn}
    (agenda : s.agenda = .run .d :: turns) (busy : s.portD.busy = some w) (row : opOf w = some .pushSamples)
    (enough : (fieldN24 w).toNat ≤ s.portD.input.length) (part : partMono w k s = .next s1) : step s1 = step s := by
  obtain ⟨data, tail, offered, count⟩ : ∃ data tail, s.portD.input = data ++ tail
      ∧ data.length = (fieldN24 w).toNat :=
    ⟨_, _, (List.take_append_drop _ _).symm, List.length_take_of_le enough⟩
  obtain ⟨k', hk'⟩ : ∃ k', min k (fieldN24 w).toNat = k' := ⟨_, rfl⟩
  rw [partMono_eq offered count hk'] at part
  have remaining : decode .d (remainingHead w k' :: (data.drop k' ++ tail)) =
      .command (.pushSamples (data.drop k')) tail :=
    decode_samples (opOf_remainingHead row (.inl rfl) k')
      (by rw [fieldN24_remainingHead, List.length_drop, count]) tail
  have pieces (s : State) : exec (.pushSamples data) s =
      andThen (exec (.pushSamples (data.take k')) s) (exec (.pushSamples (data.drop k'))) := by
    rw [← exec_pushSamples_append, List.take_append_drop]
  rw [run_after_part pieces (pushSamples_ignoresTurn _) agenda remaining part]
  refine (step_dataBusy agenda busy ?_ ?_).symm
  · rw [offered]; exact decode_samples row count tail
  · cases s.portD.measured <;> rfl

theorem partThenRun_stereo {s s1 : State} {w : Word} {k : Nat} {turns : List Turn}
    (agenda : s.agenda = .run .d :: turns) (busy : s.portD.busy = some w) (row : opOf w = some .pushSamples2)
    (enough : 2 * (fieldN24 w).toNat ≤ s.portD.input.length) (part : partStereo w k s = .next s1) :
    step s1 = step s := by
  obtain ⟨left, right, tail, offered, countLeft, countRight⟩ : ∃ left right tail,
      s.portD.input = left ++ right ++ tail ∧ left.length = (fieldN24 w).toNat
        ∧ right.length = (fieldN24 w).toNat := by
    refine ⟨s.portD.input.take (fieldN24 w).toNat, (s.portD.input.drop (fieldN24 w).toNat).take (fieldN24 w).toNat,
      (s.portD.input.drop (fieldN24 w).toNat).drop (fieldN24 w).toNat, ?_, ?_, ?_⟩
    · rw [List.append_assoc, List.take_append_drop, List.take_append_drop]
    · exact List.length_take_of_le (by omega)
    · exact List.length_take_of_le (by rw [List.length_drop]; omega)
  obtain ⟨k', hk'⟩ : ∃ k', min k (fieldN24 w).toNat = k' := ⟨_, rfl⟩
  rw [partStereo_eq offered countLeft countRight hk'] at part
  have remaining : decode .d (remainingHead w k' :: (left.drop k' ++ right.drop k' ++ tail)) =
      .command (.pushSamples2 (left.drop k') (right.drop k')) tail :=
    decode_samplePairs (opOf_remainingHead row (.inr rfl) k')
      (by rw [fieldN24_remainingHead, List.length_drop, countLeft])
      (by rw [fieldN24_remainingHead, List.length_drop, countRight]) tail
  have pieces (s : State) : exec (.pushSamples2 left right) s =
      andThen (exec (.pushSamples2 (left.take k') (right.take k')) s)
        (exec (.pushSamples2 (left.drop k') (right.drop k'))) := by
    rw [← exec_pushSamples2_append (by rw [List.length_take, List.length_take, countLeft, countRight]),
      List.take_append_drop, List.take_append_drop]
  rw [run_after_part pieces (pushSamples2_ignoresTurn _ _) agenda remaining part]
  refine (step_dataBusy agenda busy ?_ ?_).symm
  · rw [offered]; exact decode_samplePairs row countLeft countRight tail
  · cases s.portD.measured <;> rfl

/-- Settles O9: the two pieces of the command are the first samples and the others. -/
theorem partThenRunIsRun : Obligations.PartThenRunIsRun := by
  intro s s1 w op k turns agenda busy row isPush enough hstep
  have agenda' : State.agenda { s with agenda := .run .d :: turns } = .run .d :: turns := rfl
  rw [step_part agenda, partPort] at hstep
  simp only [busy, row] at hstep
  obtain rfl | rfl := isPush
  · exact partThenRun_mono agenda' busy row enough hstep
  · exact partThenRun_stereo agenda' busy row enough hstep

end Sys2Proof.Machine
end

section
/-!
The reference transform (R187, R188, R190, R194). The butterflies compute it by the decimation in time: the bit-reversed
load puts the even points in the lower half and the odd points in the upper one, the stages before the last work inside
each half, and the last stage is the split of the transform into those of its even and odd points.
-/

namespace Sys2Proof.Machine

open Sys2Proof

/-! ## Real input (R187, R188) -/

theorem dft_of_real (size : ℕ) (y : ℕ → ℝ) (k : ℕ) :
    Ref.dft size (fun j => (y j : ℂ)) k = (Ref.re size y k : ℂ) + (Ref.im size y k : ℂ) * Complex.I := by
  have term (j : ℕ) : (y j : ℂ) * Complex.exp (-(2 * Real.pi * j * k / size) * Complex.I) =
      ((y j * Real.cos (2 * Real.pi * j * k / size) : ℝ) : ℂ)
        - ((y j * Real.sin (2 * Real.pi * j * k / size) : ℝ) : ℂ) * Complex.I := by
    push_cast
    rw [← Complex.cos_sub_sin_I]
    ring
  rw [Ref.dft, Finset.sum_congr rfl fun j _ => term j, Finset.sum_sub_distrib, ← Finset.sum_mul, Ref.re, Ref.im]
  push_cast
  ring

/-- The angle of bin `N − k` is a whole number of turns less that of bin `k`. -/
theorem angle_sub {size k : ℕ} (pos : 0 < size) (le : k ≤ size) (j : ℕ) :
    2 * Real.pi * j * (size - k : ℕ) / size = j * (2 * Real.pi) - 2 * Real.pi * j * k / size := by
  have nonzero : (size : ℝ) ≠ 0 := Nat.cast_ne_zero.mpr pos.ne'
  rw [Nat.cast_sub le]
  field_simp

theorem re_sub {size k : ℕ} (pos : 0 < size) (le : k ≤ size) (y : ℕ → ℝ) :
    Ref.re size y (size - k) = Ref.re size y k := by
  simp only [Ref.re, angle_sub pos le, Real.cos_nat_mul_two_pi_sub]

theorem im_sub {size k : ℕ} (pos : 0 < size) (le : k ≤ size) (y : ℕ → ℝ) :
    Ref.im size y (size - k) = -Ref.im size y k := by
  simp only [Ref.im, angle_sub pos le, Real.sin_nat_mul_two_pi_sub, mul_neg, Finset.sum_neg_distrib]

/-- Settles O58: bin `N/2` is its own conjugate, so its imaginary part is zero. -/
theorem realTransformIsHermitian : Obligations.RealTransformIsHermitian := by
  intro size y pos
  refine ⟨dft_of_real size y, fun k le => ⟨re_sub pos le y, im_sub pos le y⟩, by simp [Ref.im], fun even => ?_⟩
  have own : size - size / 2 = size / 2 := by omega
  have conjugate := im_sub pos (Nat.div_le_self size 2) y
  rw [own] at conjugate
  linarith

/-! ## The transform by its even and odd points -/

theorem sum_range_two_mul (n : ℕ) (f : ℕ → ℂ) :
    ∑ j ∈ Finset.range (2 * n), f j = ∑ j ∈ Finset.range n, f (2 * j) + ∑ j ∈ Finset.range n, f (2 * j + 1) := by
  induction n with
  | zero => simp
  | succ n ih =>
    rw [Nat.mul_succ, Finset.sum_range_succ, Finset.sum_range_succ, ih, Finset.sum_range_succ, Finset.sum_range_succ]
    ring

theorem dft_two_mul {n : ℕ} (pos : 0 < n) (y : ℕ → ℂ) (k : ℕ) :
    Ref.dft (2 * n) y k =
      Ref.dft n (fun j => y (2 * j)) k + Ref.twiddle (2 * n) k * Ref.dft n (fun j => y (2 * j + 1)) k := by
  have nonzero : (n : ℂ) ≠ 0 := Nat.cast_ne_zero.mpr pos.ne'
  rw [Ref.dft, sum_range_two_mul, Ref.dft, Ref.dft, Ref.twiddle, Finset.mul_sum]
  refine congrArg₂ (· + ·) (Finset.sum_congr rfl fun j _ => ?_) (Finset.sum_congr rfl fun j _ => ?_)
  · congr 2
    push_cast
    field_simp
  · rw [mul_left_comm, ← Complex.exp_add]
    congr 2
    push_cast
    field_simp
    ring

theorem exp_whole_turns (n : ℕ) : Complex.exp (-(n * (2 * Real.pi * Complex.I))) = 1 := by
  rw [Complex.exp_neg, Complex.exp_nat_mul_two_pi_mul_I, inv_one]

/-- The transform repeats after its size. -/
theorem dft_add_size {n : ℕ} (pos : 0 < n) (y : ℕ → ℂ) (k : ℕ) : Ref.dft n y (k + n) = Ref.dft n y k := by
  have nonzero : (n : ℂ) ≠ 0 := Nat.cast_ne_zero.mpr pos.ne'
  refine Finset.sum_congr rfl fun j _ => ?_
  have angle : -(2 * Real.pi * j * (k + n : ℕ) / n) * Complex.I =
      -(2 * Real.pi * j * k / n) * Complex.I + -(j * (2 * Real.pi * Complex.I)) := by
    push_cast
    field_simp
    ring
  rw [angle, Complex.exp_add, exp_whole_turns, mul_one]

/-- Half a turn on, the twiddle factor is the opposite one. -/
theorem twiddle_add_half {n : ℕ} (pos : 0 < n) (k : ℕ) : Ref.twiddle (2 * n) (k + n) = -Ref.twiddle (2 * n) k := by
  have nonzero : (n : ℂ) ≠ 0 := Nat.cast_ne_zero.mpr pos.ne'
  have angle : -(2 * Real.pi * (k + n : ℕ) / (2 * n : ℕ)) * Complex.I =
      -(2 * Real.pi * k / (2 * n : ℕ)) * Complex.I - Real.pi * Complex.I := by
    push_cast
    field_simp
    ring
  rw [Ref.twiddle, angle, Complex.exp_sub, Complex.exp_pi_mul_I, div_neg, div_one, Ref.twiddle]

/-! ## The stages (R190) -/

/-- The first `n` stages of butterflies. -/
noncomputable def stages (n : ℕ) (x : ℕ → ℂ) : ℕ → ℂ :=
  (List.range n).foldl (fun x stage => Ref.butterflies (2 ^ (stage + 1)) x) x

theorem stages_succ (n : ℕ) (x : ℕ → ℂ) : stages (n + 1) x = Ref.butterflies (2 ^ (n + 1)) (stages n x) := by
  rw [stages, List.range_succ, List.foldl_append]
  rfl

theorem butterflyFft_eq_stages (order : ℕ) (y : ℕ → ℂ) :
    Ref.butterflyFft order y = stages order (fun p => y (Ref.bitrev order p)) := rfl

/-- The partner of a point in the lower half of its block lies in the same block. -/
theorem add_half_lt {m N i : ℕ} (blocks : m ∣ N) (hi : i < N) (lower : i % m < m / 2) : i + m / 2 < N := by
  obtain ⟨count, rfl⟩ := blocks
  have block : i / m + 1 ≤ count := Nat.div_lt_of_lt_mul hi
  calc i + m / 2 = m * (i / m) + i % m + m / 2 := by rw [Nat.div_add_mod]
    _ < m * (i / m) + m := by omega
    _ = m * (i / m + 1) := (Nat.mul_succ ..).symm
    _ ≤ m * count := Nat.mul_le_mul_left m block

/-- Two loads that agree on `N` points agree on them after a stage whose blocks lie inside these points. -/
theorem butterflies_block {m N c : ℕ} (blocks : m ∣ N) (start : m ∣ c) {x x' : ℕ → ℂ}
    (agree : ∀ i, i < N → x (i + c) = x' i) {i : ℕ} (hi : i < N) :
    Ref.butterflies m x (i + c) = Ref.butterflies m x' i := by
  obtain ⟨b, rfl⟩ := start
  have within : (i + m * b) % m = i % m := Nat.add_mul_mod_self_left ..
  rw [Ref.butterflies, within, Ref.butterflies]
  split_ifs with lower
  · have inside := add_half_lt blocks hi lower
    rw [agree i hi, Nat.add_right_comm, agree _ inside]
  · have above : m / 2 ≤ i := (not_lt.mp lower).trans (Nat.mod_le ..)
    rw [agree i hi, Nat.sub_add_comm above, agree _ (by omega)]

theorem stages_block {n N c : ℕ} (blocks : 2 ^ n ∣ N) (start : 2 ^ n ∣ c) {x x' : ℕ → ℂ}
    (agree : ∀ i, i < N → x (i + c) = x' i) {i : ℕ} (hi : i < N) : stages n x (i + c) = stages n x' i := by
  induction n generalizing i with
  | zero => exact agree i hi
  | succ n ih =>
    have divides : 2 ^ n ∣ 2 ^ (n + 1) := Nat.pow_dvd_pow 2 n.le_succ
    rw [stages_succ, stages_succ]
    exact butterflies_block blocks start (fun _ => ih (divides.trans blocks) (divides.trans start)) hi

/-- The last stage on the transforms of the even points, below, and of the odd points, above, is the transform. -/
theorem butterflies_dft {n : ℕ} (pos : 0 < n) {x y : ℕ → ℂ}
    (even : ∀ i, i < n → x i = Ref.dft n (fun j => y (2 * j)) i)
    (odd : ∀ i, i < n → x (i + n) = Ref.dft n (fun j => y (2 * j + 1)) i) {k : ℕ} (hk : k < 2 * n) :
    Ref.butterflies (2 * n) x k = Ref.dft (2 * n) y k := by
  have half : 2 * n / 2 = n := by omega
  rw [Ref.butterflies, Nat.mod_eq_of_lt hk, half, dft_two_mul pos]
  split_ifs with lower
  · rw [even k lower, odd k lower]
  · obtain ⟨i, rfl⟩ : ∃ i, k = i + n := ⟨k - n, by omega⟩
    rw [Nat.add_sub_cancel, even i (by omega), odd i (by omega), twiddle_add_half pos, dft_add_size pos,
      dft_add_size pos]
    ring

/-- The bit-reversed load puts the even points in the lower half and the odd points in the upper one. -/
theorem bitrev_succ_half {n j b : ℕ} (hj : j < 2 ^ n) (hb : b < 2) :
    Ref.bitrev (n + 1) (j + b * 2 ^ n) = 2 * Ref.bitrev n j + b := by
  induction n generalizing j with
  | zero =>
    obtain rfl : j = 0 := by omega
    simp [Ref.bitrev, Nat.mod_eq_of_lt hb]
  | succ n ih =>
    have double : b * 2 ^ (n + 1) = 2 * (b * 2 ^ n) := by ring
    have parity : (j + b * 2 ^ (n + 1)) % 2 = j % 2 := by omega
    have halved : (j + b * 2 ^ (n + 1)) / 2 = j / 2 + b * 2 ^ n := by omega
    rw [Ref.bitrev, parity, halved, ih (by omega), Ref.bitrev, Nat.pow_succ]
    ring

/-- Settles O59, by induction on the order. -/
theorem butterfliesComputeTransform : Obligations.ButterfliesComputeTransform := by
  intro order
  induction order with
  | zero =>
    intro y k hk
    obtain rfl : k = 0 := by omega
    simp [butterflyFft_eq_stages, stages, Ref.bitrev, Ref.dft]
  | succ n ih =>
    intro y k hk
    have pos : 0 < 2 ^ n := Nat.two_pow_pos n
    rw [Nat.pow_succ'] at hk ⊢
    rw [butterflyFft_eq_stages, stages_succ, Nat.pow_succ']
    refine butterflies_dft pos (fun i hi => ?_) (fun i hi => ?_) hk
    · rw [← ih _ i hi, butterflyFft_eq_stages]
      refine stages_block (c := 0) dvd_rfl (dvd_zero _) (fun j hj => ?_) hi
      simpa using congrArg y (bitrev_succ_half hj (b := 0) (by decide))
    · rw [← ih _ i hi, butterflyFft_eq_stages]
      refine stages_block (c := 2 ^ n) dvd_rfl dvd_rfl (fun j hj => ?_) hi
      simpa using congrArg y (bitrev_succ_half hj (b := 1) (by decide))

/-! ## The magnitude squared (R194) -/

theorem mag_le_iff (re im : ℝ) {size : ℕ} (pos : 0 < size) {m : ℝ} (nonneg : 0 ≤ m) :
    Ref.mag re im size ≤ m ↔ re ^ 2 + im ^ 2 ≤ m ^ 2 * (size : ℝ) ^ 2 := by
  rw [Ref.mag, div_le_iff₀ (Nat.cast_pos.mpr pos), Real.sqrt_le_left (by positivity), mul_pow]

theorem logb_mag {re im : ℝ} (pos : 0 < re ^ 2 + im ^ 2) {size : ℕ} (sizePos : 0 < size) :
    20 * Real.logb 10 (Ref.mag re im size) = 10 * Real.logb 10 (re ^ 2 + im ^ 2) - 20 * Real.logb 10 size := by
  have root : Real.logb 10 (Real.sqrt (re ^ 2 + im ^ 2)) = Real.logb 10 (re ^ 2 + im ^ 2) / 2 := by
    rw [Real.logb, Real.log_sqrt pos.le, Real.logb, div_right_comm]
  rw [Ref.mag, Real.logb_div (Real.sqrt_pos.mpr pos).ne' (Nat.cast_ne_zero.mpr sizePos.ne'), root]
  ring

/-- Settles O60: the logarithm of the root and of the quotient, and the square of the floor test `mag ≤ 10^-5`. -/
theorem magnitudeSquaredForm : Obligations.MagnitudeSquaredForm := by
  intro order re im pos
  have sizePos : 0 < 2 ^ order := Nat.two_pow_pos order
  have cast : ((2 ^ order : ℕ) : ℝ) = 2 ^ order := by push_cast; rfl
  refine ⟨cast ▸ logb_mag pos sizePos, by rw [Real.logb_pow]; ring, ?_⟩
  rw [refDb_eq_floor_iff, mag_le_iff re im sizePos (by norm_num), cast]
  norm_num

end Sys2Proof.Machine
end

section
/-!
The pan map (R215, R217): its threshold in real numbers, beside the reference map, and what it tells on each side of the
threshold.
-/

namespace Sys2Proof.Machine

open Sys2Proof

/-- The model's test against `10^-10` is the one on the sum of the real values. -/
theorem scaled_add_mul_le_oneUnit_iff (a b : F32) :
    (scaled a + scaled b) * 10 ^ 10 ≤ (oneUnit : Int) ↔ realOf a + realOf b ≤ 1e-10 := by
  have unit : (oneUnit : ℝ) = 2 ^ 149 := by exact_mod_cast rfl
  have real : (scaled a + scaled b) * 10 ^ 10 ≤ (oneUnit : Int)
      ↔ ((scaled a : ℝ) + scaled b) * 10 ^ 10 ≤ 2 ^ 149 := by rw [← unit]; exact_mod_cast Iff.rfl
  rw [real, realOf, realOf, ← add_div, div_le_iff₀ (by positivity)]
  constructor <;> intro h <;> linarith

theorem pan_of_le {a b : F32} (numberA : isNaN a = false) (numberB : isNaN b = false)
    (le : realOf a + realOf b ≤ 1e-10) : Numerics.pan a b = plusZero := by
  rw [Numerics.pan, numberA, numberB, if_pos ((scaled_add_mul_le_oneUnit_iff a b).mpr le)]
  rfl

/-- Above the threshold two different numbers pan by which of them is a zero. -/
theorem pan_of_gt {a b : F32} (numberA : isNaN a = false) (numberB : isNaN b = false) (ne : a ≠ b)
    (gt : 1e-10 < realOf a + realOf b) :
    Numerics.pan a b = if isZero b then minusOne else if isZero a then plusOne
      else clampTo minusOne plusOne (Config.pan a b) := by
  have above : ¬(scaled a + scaled b) * 10 ^ 10 ≤ (oneUnit : Int) :=
    mt (scaled_add_mul_le_oneUnit_iff a b).mp (not_le.mpr gt)
  rw [Numerics.pan, numberA, numberB, Bool.or_false, if_neg Bool.false_ne_true, if_neg above, if_neg ne]

/-- S2: equal magnitudes pan to a zero, a NaN included. -/
theorem isZero_pan_self (m : F32) : isZero (Numerics.pan m m) = true := by
  simp only [Numerics.pan, if_true]
  split_ifs
  · exact isZero_zeroLike _
  · decide
  · exact isZero_zeroLike _

theorem not_isZero_of_realOf_gt {m : F32} (gt : 1e-10 < realOf m) : ¬isZero m = true := fun zero => by
  rw [realOf_of_isZero zero] at gt
  norm_num at gt

/-- S3: with the right magnitude a zero the pan is full left above the threshold. -/
theorem pan_right_silent {m z : F32} (zero : isZero z = true) (number : isNaN m = false) (gt : 1e-10 < realOf m) :
    Numerics.pan m z = minusOne := by
  have ne : m ≠ z := fun same => not_isZero_of_realOf_gt gt (same ▸ zero)
  rw [pan_of_gt number (isNaN_of_isZero zero) ne (by rwa [realOf_of_isZero zero, add_zero]), if_pos zero]

/-- S3: with the left magnitude a zero the pan is full right above the threshold. -/
theorem pan_left_silent {m z : F32} (zero : isZero z = true) (number : isNaN m = false) (gt : 1e-10 < realOf m) :
    Numerics.pan z m = plusOne := by
  have sounds := not_isZero_of_realOf_gt gt
  have ne : z ≠ m := fun same => sounds (same ▸ zero)
  rw [pan_of_gt (isNaN_of_isZero zero) number ne (by rwa [realOf_of_isZero zero, zero_add]), if_neg sounds,
    if_pos zero]

theorem refPan_mem_unit {a b : ℝ} (ha : 0 ≤ a) (hb : 0 ≤ b) : -1 ≤ Ref.pan a b ∧ Ref.pan a b ≤ 1 := by
  rw [Ref.pan]
  split_ifs with above
  · have pos : 0 < a + b := lt_trans (by norm_num) above
    rw [le_div_iff₀ pos, div_le_iff₀ pos]
    constructor <;> linarith
  · norm_num

/-- Settles O45: up to `10^-10` both maps are 0, and both stay in `[−1, +1]`. -/
theorem panMatchesReferenceThreshold : Obligations.PanMatchesReferenceThreshold :=
  ⟨fun _ _ numberA numberB le => ⟨pan_of_le numberA numberB le, if_neg (not_lt.mpr le)⟩,
    fun _ _ => refPan_mem_unit, pan_mem_unit⟩

end Sys2Proof.Machine
end

section
/-!
The StereoFrame (R213..R215, R217): its values bin by bin from the magnitudes of the two channels, and which side a pan
tells.
-/

namespace Sys2Proof.Machine

open Sys2Proof

/-- The magnitude of bin `k` of a channel's windowed samples (R186..R189). -/
def State.magnitude (s : State) (c : Channel) (k : Nat) : F32 :=
  Numerics.mag (Numerics.rfft s.cfg.fftSize (s.windowed c) k).1 (Numerics.rfft s.cfg.fftSize (s.windowed c) k).2
    s.cfg.fftSize

theorem magnitudes_getElem? {s : State} {k : Nat} (hk : k < s.cfg.numBins) (c : Channel) :
    (s.magnitudes c)[k]? = some (s.magnitude c k) := by
  simp [magnitudes_eq, State.magnitude, hk]

theorem magnitudePairs_getElem? {s : State} {k : Nat} (hk : k < s.cfg.numBins) :
    s.magnitudePairs[k]? = some (s.magnitude .left k, s.magnitude .right k) :=
  List.getElem?_zip_eq_some.mpr ⟨magnitudes_getElem? hk .left, magnitudes_getElem? hk .right⟩

theorem isZero_magnitude_of_silent {s : State} {c : Channel} (h : Silent s c) {k : Nat} (hk : k < s.cfg.numBins) :
    isZero (s.magnitude c k) = true :=
  magnitudes_of_silent h _ (List.mem_of_getElem? (magnitudes_getElem? hk c))

/-- Channels of equal samples have equal magnitudes, as both are windowed with the one table (R213). -/
theorem magnitude_congr {s : State} {c d : Channel}
    (same : ∀ j, j < s.cfg.fftSize → s.accWord c j = s.accWord d j) (k : Nat) : s.magnitude c k = s.magnitude d k := by
  have windowed : s.windowed c = s.windowed d :=
    List.map_congr_left fun j hj => by rw [same j (List.mem_range.mp hj)]
  rw [State.magnitude, State.magnitude, windowed]

section FiniteFrame

variable {s : State} (left : s.frameFinite .left = true) (right : s.frameFinite .right = true)
include left right

theorem stereoFrame_mag_getElem? {k : Nat} (hk : k < s.cfg.numBins) :
    s.stereoFrame.mag[k]? = some (Numerics.db (Numerics.mean2 (s.magnitude .left k) (s.magnitude .right k))) := by
  rw [stereoFrame_of_finite left right, List.getElem?_map, magnitudePairs_getElem? hk]
  rfl

theorem stereoFrame_pan_getElem? {k : Nat} (hk : k < s.cfg.numBins) :
    s.stereoFrame.pan[k]? = some (Numerics.pan (s.magnitude .left k) (s.magnitude .right k)) := by
  rw [stereoFrame_of_finite left right, List.getElem?_map, magnitudePairs_getElem? hk]
  rfl

/-- Every pan of the frame is the pan of the two magnitudes of one bin. -/
theorem exists_bin_of_mem_pan {x : F32} (hx : x ∈ s.stereoFrame.pan) :
    ∃ k, k < s.cfg.numBins ∧ x = Numerics.pan (s.magnitude .left k) (s.magnitude .right k) := by
  obtain ⟨k, hk, rfl⟩ := List.mem_iff_getElem.mp hx
  rw [stereoFrame_pan_length] at hk
  exact ⟨k, hk, (List.getElem_eq_iff _).mpr (stereoFrame_pan_getElem? left right hk)⟩

end FiniteFrame

/-- Settles O39: each bin is made of the two channels' magnitudes of it. -/
theorem stereoFrameCombinesChannels : Obligations.StereoFrameCombinesChannels :=
  fun s left right => ⟨stereoFrame_mag_length s, stereoFrame_pan_length s, fun _ hk =>
    ⟨stereoFrame_mag_getElem? left right hk, stereoFrame_pan_getElem? left right hk⟩⟩

/-- Settles O42: a bin's pan is that of equal magnitudes (S2), or of a magnitude beside the zero of a silent channel
(S1, S3). -/
theorem panTellsTheSides : Obligations.PanTellsTheSides := by
  intro s left right
  refine ⟨fun same x hx => ?_, fun k hk silent => ?_, fun k hk silent => ?_⟩
  · obtain ⟨k, -, rfl⟩ := exists_bin_of_mem_pan left right hx
    rw [magnitude_congr same]
    exact isZero_pan_self _
  · have zero := isZero_magnitude_of_silent silent hk
    rw [stereoFrame_pan_getElem? left right hk]
    refine ⟨s.magnitude .left k, magnitudes_getElem? hk .left, fun number gt => ?_, fun number le => ?_⟩
    · rw [pan_right_silent zero number gt]; rfl
    · rw [pan_of_le number (isNaN_of_isZero zero) (by rwa [realOf_of_isZero zero, add_zero])]; rfl
  · have zero := isZero_magnitude_of_silent silent hk
    rw [stereoFrame_pan_getElem? left right hk]
    refine ⟨s.magnitude .right k, magnitudes_getElem? hk .right, fun number gt => ?_, fun number le => ?_⟩
    · rw [pan_left_silent zero number gt]; rfl
    · rw [pan_of_le (isNaN_of_isZero zero) number (by rwa [realOf_of_isZero zero, zero_add])]; rfl

end Sys2Proof.Machine
end

section
/-!
Ingest of a Stereo block (R211..R213, R193): what one sample pair and a run of pairs leave in either channel, and from it
what PUSHSAMPLES2 answers. The lemmas speak of a channel `c`, so that the two channels move in lock-step by their form.
-/

namespace Sys2Proof.Machine

open Sys2Proof

/-- The sample of a pair that goes to a channel (R211). -/
def sampleOf : Channel → F32 × F32 → F32
  | .left => Prod.fst
  | .right => Prod.snd

/-! ## What ingest leaves alone -/

@[simp] theorem afterPushSamples2_ring (left right : List F32) (s : State) (q : RingId) :
    (afterPushSamples2 left right s).ring q = s.ring q := by cases q <;> simp [State.ring]

@[simp] theorem afterPushSamples2_port (left right : List F32) (s : State) (q : Port) :
    (afterPushSamples2 left right s).port q = s.port q := by cases q <;> simp [State.port]

/-- PUSHSAMPLES2 completes on port D of a Ready Stereo block outside a reconfiguration. -/
theorem exec_pushSamples2 {s : State} (active : s.active = .d) (stereo : s.variant = .stereo)
    (ready : s.cfg.state = .ready) (settled : Settled s) (left right : List F32) :
    exec (.pushSamples2 left right) s = .next (afterPushSamples2 left right s) :=
  (exec_next_iff ..).mpr ⟨(stopOf_pushSamples2 ..).mpr ⟨active, stereo, ready, races_of_settled rfl settled⟩, rfl⟩

/-! ## Pairs that fill nothing (R211, R212) -/

theorem append2_acc (x : F32 × F32) (s : State) (c : Channel) :
    (append2 x s).acc c = (s.acc c).write s.writePos (sampleOf c x) := by cases c <;> rfl

theorem append2_read (x : F32 × F32) (s : State) (c : Channel) (a : Nat) :
    ((append2 x s).acc c).read a = if a = s.writePos then some (sampleOf c x) else (s.acc c).read a := by
  rw [append2_acc, Memory.read_write]

theorem ingest2_short_offset {s : State} (x : F32 × F32) (short : s.writePos + 1 ≠ s.cfg.fftSize) :
    (ingest2 s x).writePos = s.writePos + 1 ∧ (ingest2 s x).fr = s.fr := by
  rw [ingest2_short s x short]; exact ⟨rfl, rfl⟩

/-- Pairs that do not fill the accumulators are written to each channel one after another at the one offset, and no frame
is made. -/
theorem foldl_ingest2_short (pairs : List (F32 × F32)) {s : State} (short : s.writePos + pairs.length < s.cfg.fftSize) :
    (pairs.foldl ingest2 s).writePos = s.writePos + pairs.length ∧ (pairs.foldl ingest2 s).fr = s.fr
      ∧ ∀ c, (pairs.foldl ingest2 s).acc c =
          Memory.writeRun s.cfg.fftSize s.writePos (pairs.map (sampleOf c)) (s.acc c) := by
  induction pairs generalizing s with
  | nil => exact ⟨rfl, rfl, fun _ => rfl⟩
  | cons x pairs ih =>
    rw [List.length_cons] at short
    have appended : ingest2 s x = append2 x s := ingest2_short s x (by omega)
    have below : (append2 x s).writePos + pairs.length < (append2 x s).cfg.fftSize := by
      change s.writePos + 1 + pairs.length < s.cfg.fftSize
      omega
    obtain ⟨offset, fr, acc⟩ := ih below
    rw [List.foldl_cons, appended]
    refine ⟨offset.trans (by rw [List.length_cons]; exact Nat.add_right_comm ..), fr, fun c => ?_⟩
    rw [acc, append2_acc, List.map_cons, Memory.writeRun, Nat.mod_eq_of_lt (by omega)]
    rfl

theorem foldl_ingest2_short_read (pairs : List (F32 × F32)) {s : State}
    (short : s.writePos + pairs.length < s.cfg.fftSize) (c : Channel) {j : Nat} (hj : j < pairs.length) :
    ((pairs.foldl ingest2 s).acc c).read (s.writePos + j) = (pairs.map (sampleOf c))[j]? := by
  obtain ⟨-, -, acc⟩ := foldl_ingest2_short pairs short
  have read := Memory.read_writeRun s.cfg.fftSize s.writePos (pairs.map (sampleOf c)) (by simp; omega) (s.acc c) j
    (by simpa using hj)
  rwa [acc, ← Nat.mod_eq_of_lt (show s.writePos + j < s.cfg.fftSize by omega)]

theorem foldl_ingest2_short_read_outside (pairs : List (F32 × F32)) {s : State}
    (short : s.writePos + pairs.length < s.cfg.fftSize) (c : Channel) {a : Nat}
    (outside : a < s.writePos ∨ s.writePos + pairs.length ≤ a) :
    ((pairs.foldl ingest2 s).acc c).read a = (s.acc c).read a := by
  obtain ⟨-, -, acc⟩ := foldl_ingest2_short pairs short
  rw [acc]
  refine Memory.read_writeRun_other _ _ _ _ _ fun j hj => ?_
  rw [List.length_map] at hj
  rw [Nat.mod_eq_of_lt (by omega)]
  omega

/-! ## The pair that fills the accumulators (R211, R213, R232) -/

theorem ingest2_full_slots {s : State} (x : F32 × F32) (full : s.writePos + 1 = s.cfg.fftSize) :
    (ingest2 s x).fr.slots =
      s.fr.slots.write (frameSlot s.fr.w) (s.framedSlot (append2 x s).stereoFrame) := by
  rw [ingest2_full s x full]; rfl

/-- The shift of a filled accumulator (R211). -/
theorem ingest2_full_read {s : State} (x : F32 × F32) (full : s.writePos + 1 = s.cfg.fftSize) (c : Channel) (a : Nat) :
    ((ingest2 s x).acc c).read a =
      if a < s.cfg.fftSize - s.cfg.hopSize then ((append2 x s).acc c).read (a + s.cfg.hopSize)
      else ((append2 x s).acc c).read a := by
  rw [ingest2_full s x full]
  cases c <;> exact Memory.read_shiftDown ..

theorem ingest2_full_offset {s : State} (x : F32 × F32) (full : s.writePos + 1 = s.cfg.fftSize) :
    (ingest2 s x).writePos = s.cfg.fftSize - s.cfg.hopSize ∧ (ingest2 s x).fr.w = s.fr.w + 1 := by
  rw [ingest2_full s x full]; exact ⟨rfl, rfl⟩

theorem framedSlot_pan {s : State} (stereo : s.variant = .stereo) (frame : Slot) :
    (s.framedSlot frame).pan = frame.pan.take s.fr.bins := by rw [State.framedSlot, stereo]

/-- Settles O37: every lemma used holds of either channel, with the one offset. -/
theorem stereoChannelsInLockStep : Obligations.StereoChannelsInLockStep := by
  intro s left right active stereo ready settled
  refine ⟨fun same short => ?_, fun l r full => ?_⟩
  · have pairs : (left.zip right).length = left.length := by simp [same]
    have lefts : (left.zip right).map (sampleOf .left) = left := List.map_fst_zip same.le
    have rights : (left.zip right).map (sampleOf .right) = right := List.map_snd_zip same.ge
    rw [← pairs] at short ⊢
    obtain ⟨offset, fr, -⟩ := foldl_ingest2_short _ short
    refine ⟨_, exec_pushSamples2 active stereo ready settled left right, offset, fun j hj => ⟨?_, ?_⟩,
      fun a outside => ⟨foldl_ingest2_short_read_outside _ short .left outside,
        foldl_ingest2_short_read_outside _ short .right outside⟩, fr⟩
    · exact (foldl_ingest2_short_read _ short .left hj).trans (by rw [lefts])
    · exact (foldl_ingest2_short_read _ short .right hj).trans (by rw [rights])
  · obtain ⟨offset, frames⟩ := ingest2_full_offset (l, r) full
    have slots := ingest2_full_slots (l, r) full
    have shifted (c : Channel) {j : Nat} (hj : j < s.cfg.fftSize - s.cfg.hopSize) :=
      (ingest2_full_read (l, r) full c j).trans ((if_pos hj).trans (append2_read ..))
    have kept (c : Channel) {j : Nat} (hj : s.cfg.fftSize - s.cfg.hopSize ≤ j) :=
      (ingest2_full_read (l, r) full c j).trans ((if_neg (not_lt.mpr hj)).trans (append2_read ..))
    refine ⟨ingest2 s (l, r), exec_pushSamples2 active stereo ready settled [l] [r],
      ⟨fun j hj => ⟨shifted .left hj, shifted .right hj⟩, fun j hj => ⟨kept .left hj, kept .right hj⟩⟩, offset, frames,
      ⟨_, by rw [slots, Memory.read_write_same], rfl, framedSlot_pan stereo _⟩, fun a other => ?_⟩
    rw [slots, Memory.read_write_other _ _ other]

/-! ## A whole PUSHSAMPLES2 (R193) -/

theorem foldl_ingest2_slots_other (pairs : List (F32 × F32)) {s : State} (pos : 1 ≤ s.cfg.hopSize)
    (le : s.cfg.hopSize ≤ s.cfg.fftSize) (below : s.writePos < s.cfg.fftSize) {a : Nat}
    (other : ∀ i, i < framesProduced s.writePos pairs.length s.cfg.fftSize s.cfg.hopSize →
      frameSlot (s.fr.w + BitVec.ofNat 32 i) ≠ a) :
    (pairs.foldl ingest2 s).fr.slots.read a = s.fr.slots.read a := by
  refine foldl_slots_other ingest2_cfg (fun s x => ingest2_short_offset x) (fun s x => ingest2_full_offset x) ?_ pairs
    pos le below other
  intro s x a full other
  rw [ingest2_full_slots x full, Memory.read_write_other _ _ other]

/-- A pair reaches no position from `fftSize` on. -/
theorem ingest2_read_beyond {s : State} (below : s.writePos < s.cfg.fftSize) (x : F32 × F32) (c : Channel) {a : Nat}
    (beyond : s.cfg.fftSize ≤ a) : ((ingest2 s x).acc c).read a = (s.acc c).read a := by
  have appended : ((append2 x s).acc c).read a = (s.acc c).read a := by rw [append2_read, if_neg (by omega)]
  by_cases full : s.writePos + 1 = s.cfg.fftSize
  · rw [ingest2_full_read x full, if_neg (by omega), appended]
  · rw [ingest2_short s x full, appended]

theorem foldl_ingest2_read_beyond (pairs : List (F32 × F32)) {s : State} (pos : 1 ≤ s.cfg.hopSize)
    (below : s.writePos < s.cfg.fftSize) (c : Channel) {a : Nat} (beyond : s.cfg.fftSize ≤ a) :
    ((pairs.foldl ingest2 s).acc c).read a = (s.acc c).read a := by
  have kept := foldl_invariant
    (fun t => t.cfg = s.cfg ∧ t.writePos < t.cfg.fftSize ∧ (t.acc c).read a = (s.acc c).read a) ingest2 ?_ pairs s
    ⟨rfl, below, rfl⟩
  · obtain ⟨-, -, same⟩ := kept
    exact same
  · rintro t x ⟨cfg, offset, same⟩
    refine ⟨(ingest2_cfg t x).trans cfg, ?_, ?_⟩
    · rw [ingest2_cfg]; exact ingest2_writePos_lt (cfg ▸ pos) offset x
    · rw [ingest2_read_beyond offset x c (cfg ▸ beyond), same]

/-- Settles O36: frames and offset by the count of R193, the slots and the accumulators by what a run leaves alone. -/
theorem pushSamples2FramesAndOffset : Obligations.PushSamples2FramesAndOffset := by
  intro s left right active stereo ready settled
  refine ⟨_, exec_pushSamples2 active stereo ready settled left right, fun same pos le below => ?_,
    afterPushSamples2_fr_r left right s, afterPushSamples2_fr_bins left right s,
    ⟨afterPushSamples2_cfg left right s, afterPushSamples2_win left right s⟩, afterPushSamples2_ring left right s,
    afterPushSamples2_port left right s, afterPushSamples2_variant left right s, afterPushSamples2_lcMax left right s,
    afterPushSamples2_active left right s, afterPushSamples2_agenda left right s⟩
  have pairs : (left.zip right).length = left.length := by simp [same]
  rw [← pairs]
  obtain ⟨offset, frames⟩ := foldl_ingest2_frames_offset (left.zip right) pos le below
  exact ⟨frames, offset, fun a other => foldl_ingest2_slots_other _ pos le below other, fun a beyond =>
    ⟨foldl_ingest2_read_beyond _ pos below .left beyond, foldl_ingest2_read_beyond _ pos below .right beyond⟩⟩

end Sys2Proof.Machine
end

section
/-!
The FrameRing (44_framering.md): its queue frame by frame, what a push and a pull do to it, and what PULLFRAME and
PULLFRAME2 answer.
-/

namespace Sys2Proof.Machine

open Sys2Proof

/-! ## The newest frames (R46, R231) -/

/-- The slots of the newest `n` frames, oldest first; the queue of R231 is those of the newest `avail`. -/
def FrameRing.newest (x : FrameRing) (n : Nat) : List (Option Slot) :=
  (List.range n).map fun i => x.slots.read (frameSlot (x.w - BitVec.ofNat 32 (n - i)))

theorem queue_eq_newest (x : FrameRing) : x.queue = x.newest x.avail := rfl

@[simp] theorem newest_length (x : FrameRing) (n : Nat) : (x.newest n).length = n := by simp [FrameRing.newest]

/-- The oldest of the newest `n + 1` frames comes first. -/
theorem newest_succ (x : FrameRing) (n : Nat) :
    x.newest (n + 1) = x.slots.read (frameSlot (x.w - BitVec.ofNat 32 (n + 1))) :: x.newest n := by
  simp [FrameRing.newest, List.range_succ_eq_map]

/-- The cursors are equal exactly when the lead is 0. -/
theorem lead_eq_zero_iff (x : FrameRing) : x.lead = 0 ↔ x.w = x.r := by
  unfold FrameRing.lead
  bv_omega

theorem avail_eq_zero_iff (x : FrameRing) : x.avail = 0 ↔ x.w = x.r := by
  rw [← lead_eq_zero_iff, FrameRing.avail, frameSlots]
  omega

/-- The oldest frame still there lies `avail` sequence numbers before the write cursor (R235, R236). -/
theorem oldest_eq_sub_avail (x : FrameRing) : x.oldest = x.w - BitVec.ofNat 32 x.avail := by
  unfold FrameRing.oldest FrameRing.avail
  by_cases overrun : frameSlots < x.lead
  · rw [if_pos overrun, Nat.min_eq_right overrun.le]
  · rw [if_neg overrun, Nat.min_eq_left (Nat.le_of_not_lt overrun), FrameRing.lead, BitVec.ofNat_toNat,
      BitVec.setWidth_eq, sub_sub_cancel]

/-! ## A push and a pull on the queue (R231, R232, R235) -/

/-- A push puts its frame behind the newest ones, of which it leaves 511. -/
theorem newest_frPush (frame : Slot) (s : State) {n : Nat} (few : n < frameSlots) :
    (frPush frame s).fr.newest (n + 1) = s.fr.newest n ++ [some (s.framedSlot frame)] := by
  have written : (frPush frame s).fr.slots.read (frameSlot s.fr.w) = some (s.framedSlot frame) :=
    Memory.read_write_same ..
  have kept (i : Nat) (hi : i < n) : (frPush frame s).fr.slots.read (frameSlot (s.fr.w - BitVec.ofNat 32 (n - i))) =
      s.fr.slots.read (frameSlot (s.fr.w - BitVec.ofNat 32 (n - i))) :=
    Memory.read_write_other _ _ (frameSlot_sub_ne s.fr.w (by omega) (by omega))
  have cursor (k : Nat) : s.fr.w + 1 - BitVec.ofNat 32 (k + 1) = s.fr.w - BitVec.ofNat 32 k := by
    rw [BitVec.ofNat_add]
    bv_omega
  rw [FrameRing.newest, List.range_succ, List.map_append, frPush_w]
  congr 1
  · refine List.map_congr_left fun i hi => ?_
    have hi : i < n := List.mem_range.mp hi
    rw [Nat.sub_add_comm hi.le, cursor, kept i hi]
  · rw [List.map_singleton, Nat.add_sub_cancel_left, ← Nat.zero_add 1, cursor, BitVec.sub_zero, written]

/-- A push below `2^32` frames of lead makes one frame more available, up to 512. -/
theorem avail_frPush (frame : Slot) {s : State} (noAlias : s.fr.lead + 1 < 2 ^ 32) :
    (frPush frame s).fr.avail = min (s.fr.lead + 1) frameSlots := by
  rw [FrameRing.avail, lead_frPush, Nat.mod_eq_of_lt noAlias]

/-- A queue with room takes the frame and drops nothing. -/
theorem dropOldest_room {q : List (Option Slot)} (room : q.length < frameSlots) (f : Slot) :
    dropOldest q f = q ++ [some f] := by
  rw [dropOldest, List.length_append, List.length_singleton, Nat.sub_eq_zero_of_le room, List.drop_zero]

/-- A full queue takes the frame and drops its front. -/
theorem dropOldest_full {front : Option Slot} {q : List (Option Slot)} (full : q.length + 1 = frameSlots) (f : Slot) :
    dropOldest (front :: q) f = q ++ [some f] := by
  simp [dropOldest, ← full]

/-- A push below `2^32` frames of lead appends its frame to the queue (R231, R232). -/
theorem queue_frPush (frame : Slot) {s : State} (noAlias : s.fr.lead + 1 < 2 ^ 32) :
    (frPush frame s).fr.queue = dropOldest s.fr.queue (s.framedSlot frame) := by
  rw [queue_eq_newest, queue_eq_newest, avail_frPush frame noAlias, FrameRing.avail]
  by_cases room : s.fr.lead < frameSlots
  · rw [Nat.min_eq_left room, Nat.min_eq_left room.le, newest_frPush frame s room,
      dropOldest_room (by rwa [newest_length])]
  · have full : frameSlots = 511 + 1 := rfl
    rw [Nat.min_eq_right (by omega), Nat.min_eq_right (by omega), full, newest_frPush frame s (by decide),
      newest_succ s.fr 511, dropOldest_full (by rw [newest_length, full])]

/-- A pull takes the front of a queue that is not empty, the slot of the oldest frame (R231, R235). -/
theorem queue_eq_oldest_cons {x : FrameRing} (notEmpty : x.w ≠ x.r) :
    x.queue = x.slots.read (frameSlot x.oldest) :: x.consumed.queue := by
  have lead : x.lead ≠ 0 := mt (lead_eq_zero_iff x).mp notEmpty
  have left : x.consumed.avail + 1 = x.avail := by
    have slots : frameSlots = 512 := rfl
    rw [FrameRing.avail, FrameRing.avail, lead_consumed lead]
    omega
  rw [queue_eq_newest x, oldest_eq_sub_avail, ← left, newest_succ]
  rfl

/-- Settles O49, from what a push and a pull do to the newest frames. -/
theorem frameRingIsDropOldestQueue : Obligations.FrameRingIsDropOldestQueue := by
  intro s
  refine ⟨?_, ?_, fun frame => queue_frPush frame, queue_eq_oldest_cons⟩
  · rw [queue_eq_newest, newest_length]
    exact Nat.min_le_right ..
  · rw [← List.length_eq_zero_iff, queue_eq_newest, newest_length, avail_eq_zero_iff]

/-! ## The words of a whole slot (R44) -/

/-- As many dB words as a written slot has are the slot's own. -/
theorem magWords_whole {s : State} {j m : Nat} {frame : Slot} (read : s.fr.slots.read j = some frame)
    (whole : frame.mag.length = m) : s.magWords j m = frame.mag := by
  subst whole
  refine List.ext_getElem?' fun k within => ?_
  have hk : k < frame.mag.length := by simpa using within
  exact magWords_getElem s j _ k frame read hk hk

/-- As many pan words as a written slot has are the slot's own. -/
theorem panWords_whole {s : State} {j m : Nat} {frame : Slot} (read : s.fr.slots.read j = some frame)
    (whole : frame.pan.length = m) : s.panWords j m = frame.pan := by
  subst whole
  refine List.ext_getElem?' fun k within => ?_
  have hk : k < frame.pan.length := by simpa using within
  exact panWords_getElem s j _ k frame read hk hk

/-! ## The pulls (R235, R237) -/

theorem afterPullFrame_empty {s : State} (empty : s.fr.w = s.fr.r) (n : BitVec 24) :
    afterPullFrame n s = s.respond [okWord false] := if_pos ((lead_eq_zero_iff s.fr).mpr empty)

theorem afterPullFrame2_empty {s : State} (empty : s.fr.w = s.fr.r) : afterPullFrame2 s = s.respond [okWord false] :=
  if_pos ((lead_eq_zero_iff s.fr).mpr empty)

theorem afterPullFrame_notEmpty {s : State} (notEmpty : s.fr.w ≠ s.fr.r) (n : BitVec 24) :
    afterPullFrame n s = State.respond { s with fr := s.fr.consumed }
      (okWord true :: s.magWords (frameSlot s.fr.oldest) (min n.toNat s.fr.bins)) :=
  if_neg (mt (lead_eq_zero_iff s.fr).mp notEmpty)

theorem afterPullFrame2_notEmpty {s : State} (notEmpty : s.fr.w ≠ s.fr.r) :
    afterPullFrame2 s = State.respond { s with fr := s.fr.consumed }
      (okWord true :: (s.magWords (frameSlot s.fr.oldest) s.fr.bins ++ s.panWords (frameSlot s.fr.oldest) s.fr.bins)) :=
  if_neg (mt (lead_eq_zero_iff s.fr).mp notEmpty)

/-- A command that replaces the FrameRing and answers gives its response and changes nothing else. -/
theorem answers_withFr {s t : State} {fr : FrameRing} {words : List Word}
    (answer : State.respond { s with fr := fr } words = t) :
    Responded words s t ∧ SameConfiguration s t ∧ SameIngest s t ∧ SameRings s t ∧ SameMachine s t := by
  subst answer
  obtain ⟨cfg, ingest, -⟩ := sameAnalyser_respond { s with fr := fr } words
  exact ⟨responded_respond { s with fr := fr } words, cfg, ingest, sameRings_respond { s with fr := fr } words,
    sameMachine_respond { s with fr := fr } words⟩

/-- A command that only responds changes nothing else. -/
theorem answers_only {i : Instr} {s : State} {words : List Word} (h : exec i s = .next (s.respond words)) :
    ∃ t, exec i s = .next t ∧ Responded words s t ∧ SameAnalyser s t ∧ SameRings s t ∧ SameMachine s t :=
  ⟨_, h, responded_respond .., sameAnalyser_respond .., sameRings_respond s _, sameMachine_respond ..⟩

/-- PULLFRAME completes on port R of a Ready Mono block outside a reconfiguration, below `2^32` frames of lead. -/
theorem exec_pullFrame {s : State} (active : s.active = .r) (mono : s.variant = .mono) (ready : s.cfg.state = .ready)
    (settled : Settled s) (noAlias : s.fr.trueLead < 2 ^ 32) (n : BitVec 24) :
    exec (.pullFrame n) s = .next (afterPullFrame n s) :=
  (exec_next_iff ..).mpr ⟨(stopOf_pullFrame n s).mpr ⟨active, mono, ready, races_of_settled rfl settled, noAlias⟩,
    rfl⟩

/-- PULLFRAME2 completes on port R of a Ready Stereo block outside a reconfiguration, below `2^32` frames of lead. -/
theorem exec_pullFrame2 {s : State} (active : s.active = .r) (stereo : s.variant = .stereo)
    (ready : s.cfg.state = .ready) (settled : Settled s) (noAlias : s.fr.trueLead < 2 ^ 32) :
    exec .pullFrame2 s = .next (afterPullFrame2 s) :=
  (exec_next_iff ..).mpr ⟨(stopOf_pullFrame2 s).mpr ⟨active, stereo, ready, races_of_settled rfl settled, noAlias⟩,
    rfl⟩

/-- Settles O46: the words are those of the oldest slot. -/
theorem pullFrameTakesOldest : Obligations.PullFrameTakesOldest := by
  intro s n active mono ready settled noAlias notEmpty
  have next := exec_pullFrame active mono ready settled noAlias n
  rw [afterPullFrame_notEmpty notEmpty n] at next
  have length := magWords_length s (frameSlot s.fr.oldest) (min n.toNat s.fr.bins)
  refine ⟨_, _, next,
    ⟨length, fun frame k read within => magWords_getElem s _ _ k frame read (length ▸ within), ?_⟩, ?_, ?_, ?_,
    answers_withFr rfl⟩
  all_goals rw [State.respond_fr]; rfl

/-- Settles O47: the words are those of the oldest slot. -/
theorem pullFrame2TakesOldest : Obligations.PullFrame2TakesOldest := by
  intro s active stereo ready settled noAlias notEmpty
  have next := exec_pullFrame2 active stereo ready settled noAlias
  rw [afterPullFrame2_notEmpty notEmpty] at next
  refine ⟨_, _, _, next, ⟨magWords_length .., panWords_length .., fun frame read whole => ?_, ?_⟩, ?_, ?_, ?_,
    answers_withFr rfl⟩
  · obtain ⟨mag, pan⟩ := whole
    exact ⟨magWords_whole read mag, panWords_whole read (pan stereo)⟩
  all_goals rw [State.respond_fr]; rfl

/-- Settles O48: on an empty ring either pull only responds. -/
theorem pullOnEmptyRingAnswersFalse : Obligations.PullOnEmptyRingAnswersFalse := by
  intro s n active ready settled noAlias empty
  refine ⟨fun mono => answers_only (words := [okWord false]) ?_,
    fun stereo => answers_only (words := [okWord false]) ?_⟩
  · rw [exec_pullFrame active mono ready settled noAlias, afterPullFrame_empty empty]
  · rw [exec_pullFrame2 active stereo ready settled noAlias, afterPullFrame2_empty empty]

end Sys2Proof.Machine
end

section
/-!
The begin and the end of a command (R298): a command begun and then completed in its port's next turn is the command run
at once, because the count it measured at its begin is the one it would measure at its end.
-/

namespace Sys2Proof.Machine

open Sys2Proof

/-! ## A command limited to what it measures (R71) -/

/-- The limit changes no test of R273. -/
theorem stopOf_limited (measured : Option Nat) (i : Instr) (s : State) : stopOf (limited measured i) s = stopOf i s := by
  cases measured with
  | none => rfl
  | some m => cases i <;> rfl

theorem pushed_take_producerFree (x : SampleRing) (data : List F32) :
    x.pushed (data.take x.producerFree) = x.pushed data := by
  have accepted : x.accepted (data.take x.producerFree) = x.accepted data := by
    simp only [SampleRing.accepted, List.length_take]; omega
  have kept : (data.take x.producerFree).take (x.accepted data) = data.take (x.accepted data) := by
    rw [List.take_take, Nat.min_eq_left (x.accepted_le_free data)]
  simp only [SampleRing.pushed, accepted, kept]

theorem delivered_min_consumerReady (x : SampleRing) (n : BitVec 23) :
    x.delivered (BitVec.ofNat 23 (min n.toNat x.consumerReady)).toNat = x.delivered n.toNat := by
  have fits : (BitVec.ofNat 23 (min n.toNat x.consumerReady)).toNat = min n.toNat x.consumerReady := by
    rw [BitVec.toNat_ofNat, Nat.mod_eq_of_lt (lt_of_le_of_lt (Nat.min_le_left ..) n.isLt)]
  rw [fits, SampleRing.delivered, SampleRing.delivered, Nat.min_assoc, Nat.min_self]

theorem effect_limited_measure (i : Instr) (s : State) : effect (limited (s.measure i) i) s = effect i s := by
  cases i with
  | srPush ch data => exact congrArg (s.setRing ch) (pushed_take_producerFree (s.ring ch) data)
  | srPop ch n =>
    have delivered := delivered_min_consumerReady (s.ring ch) n
    simp only [State.measure, limited, effect, afterSrPop, State.popWords, SampleRing.popped, delivered]
  | _ => rfl

/-- A command limited to what it measures in the state it runs in is the command. -/
theorem exec_limited_measure (i : Instr) (s : State) : exec (limited (s.measure i) i) s = exec i s := by
  rw [exec_eq_guarded, exec_eq_guarded, guarded, guarded, stopOf_limited, effect_limited_measure]

/-! ## The turn `start` (R296, R298) -/

/-- What a command measures stands in the rings, not on a port. -/
theorem measure_onPort (q : Port) (input : List Word) (busy : Option Word) (measured : Option Nat) (s : State)
    (i : Instr) : (onPort q input busy measured s).measure i = s.measure i := by
  cases i with
  | srPush ch data => exact congrArg (some ·.producerFree) (onPort_ring ..)
  | srPop ch n => exact congrArg (some ·.consumerReady) (onPort_ring ..)
  | _ => rfl

theorem onPort_onPort (q : Port) (input input' : List Word) (busy busy' : Option Word) (measured measured' : Option Nat)
    (s : State) : onPort q input busy measured (onPort q input' busy' measured' s) = onPort q input busy measured s := by
  cases q <;> rfl

theorem onPort_port_same (q : Port) (input : List Word) (busy : Option Word) (measured : Option Nat) (s : State) :
    (onPort q input busy measured s).port q =
      { s.port q with input := input, busy := busy, measured := measured } := by cases q <;> rfl

theorem onPort_withAgenda (q : Port) (input : List Word) (busy : Option Word) (measured : Option Nat) (s : State)
    (turns : List Turn) : { onPort q input busy measured s with agenda := turns } =
      onPort q input busy measured { s with agenda := turns } := by cases q <;> rfl

theorem step_start {s : State} {q : Port} {turns : List Turn} (h : s.agenda = .start q :: turns) :
    step s = startPort q { s with agenda := turns } := by
  simp [step, h, takeTurn]

/-- A port that takes a command word is idle, and has the command in progress from then on. -/
theorem startPort_next {s t : State} {q : Port} {w : Word} {payload : List Word} {op : Op}
    (offered : (s.port q).input = w :: payload) (row : opOf w = some op) (h : startPort q s = .next t) :
    (s.port q).busy = none ∧ t = onPort q payload (some w) (s.measure (assemble op w payload)) s := by
  cases busy : (s.port q).busy with
  | some v => simp [startPort, busy] at h
  | none =>
    cases admitted : stopOf (assemble op w payload) { s with active := q } with
    | some stop => cases stop <;> simp [startPort, busy, offered, beginOn, row, admitted, Stop.outcome] at h
    | none =>
      simp only [startPort, busy, offered, beginOn, row, admitted] at h
      cases h
      exact ⟨rfl, rfl⟩

/-- A command in progress that was begun with all its words offered completes as if it had not been begun before. -/
theorem runPort_begun {q : Port} {w : Word} {payload rest : List Word} {i : Instr}
    (decoded : decode q (w :: payload) = .command i rest) (s : State) :
    runPort q (onPort q payload (some w) (s.measure i) s) = completeOn q i rest s := by
  have port := onPort_port_same q payload (some w) (s.measure i) s
  have run := runPort_busy (congrArg PortState.busy port) ((congrArg (decode q <| w :: ·.input) port).trans decoded)
  rw [run, congrArg PortState.measured port, completeOn, onPort_onPort, ← measure_onPort q rest none none s i,
    exec_limited_measure, completeOn]

/-- Settles O7: after the turn `start` the command completes on the state it would complete on without that turn. -/
theorem commandBeginsAndEnds : Obligations.CommandBeginsAndEnds := by
  refine ⟨fun s s1 q turns i rest agenda decoded begun => ?_, fun s q turns w agenda busy => ?_⟩
  · obtain ⟨w, payload, op, offered, row, -, -, command, -⟩ := (decode_command_iff ..).mp decoded
    rw [step_start agenda] at begun
    obtain ⟨idle, hs1⟩ := startPort_next ((congrArg _ (State.port_withAgenda ..)).trans offered) row begun
    rw [State.port_withAgenda] at idle
    have turn : s1.agenda = .run q :: turns := by rw [hs1]; exact State.setPort_agenda ..
    have inProgress : { s1 with agenda := turns } =
        onPort q payload (some w) (State.measure { s with agenda := turns } i) { s with agenda := turns } := by
      rw [hs1, onPort_withAgenda, command]; rfl
    obtain ⟨idleTurn, -, -⟩ := stepRunsDecodedCommand
    calc step s1 = runPort q { s1 with agenda := turns } := step_run turn
      _ = completeOn q i rest { s with agenda := turns } := by rw [inProgress, runPort_begun (offered ▸ decoded)]
      _ = step { s with agenda := .run q :: turns } :=
        (idleTurn { s with agenda := .run q :: turns } q turns i rest rfl
          (by rw [State.port_withAgenda, idle]) (by rw [State.port_withAgenda, decoded])).symm
  · simp [step_start agenda, startPort, busy]

end Sys2Proof.Machine
end

section
/-!
Who writes what (R277, R296): `effect_ringWrite` and `effect_analyserWrite` say once which commands can change a
SampleRing and a part of the analyser, and admission gives the port. With it the fault of a pull whose lead aliases (R301).
-/

namespace Sys2Proof.Machine

open Sys2Proof

/-! ## The SampleRings -/

/-- What a command `i` leaves of ring `q`, with the command that writes it. -/
inductive RingWrite (i : Instr) (q : RingId) (x y : SampleRing) : Prop where
  | stays (h : y = x)
  | resizes (lc : BitVec 5) (command : i = .srSetSize q lc)
  | pushes (data : List F32) (command : i = .srPush q data) (h : y = x.pushed data)
  | pops (n : BitVec 23) (command : i = .srPop q n) (h : y = x.popped n.toNat)

/-- A ring replaced by what its command leaves: every other ring stays. -/
theorem RingWrite.setRing {i : Instr} {s : State} {ch q : RingId} {x : SampleRing}
    (h : RingWrite i ch (s.ring ch) x) : RingWrite i q (s.ring q) ((s.setRing ch x).ring q) := by
  by_cases named : q = ch
  · subst named; simpa using h
  · exact .stays (State.ring_setRing_other s x named)

theorem effect_ringWrite (i : Instr) (s : State) (q : RingId) : RingWrite i q (s.ring q) ((effect i s).ring q) := by
  cases i with
  | srSetSize ch lc => exact .setRing (.resizes lc rfl)
  | srPush ch data => exact .setRing (.pushes data rfl rfl)
  | srPop ch n => simpa [effect, afterSrPop] using RingWrite.setRing (.pops n rfl rfl)
  | _ => exact .stays (effect_ring_other (by simp [Instr.op]) s q)

/-! ## The analyser -/

/-- What a command `i` leaves of the analyser, with the command that writes it. -/
inductive AnalyserWrite (i : Instr) (s t : State) : Prop where
  | stays (h : SameAnalyser s t)
  | prepares (order : BitVec 8) (rate : F32) (command : i = .prepare order rate)
      (fftbuf : t.fftbuf0 = s.fftbuf0 ∧ t.fftbuf1 = s.fftbuf1)
  | setsWindow (type : WindowType) (command : i = .setWindow type) (ingest : SameIngest s t) (fr : t.fr = s.fr)
  | setsOverlap (frac : F32) (command : i = .setOverlap frac) (win : t.win = s.win) (ingest : SameIngest s t)
      (fr : t.fr = s.fr)
  | ingests (command : (∃ data, i = .pushSamples data) ∨ ∃ left right, i = .pushSamples2 left right)
      (configuration : SameConfiguration s t) (fr : t.fr.r = s.fr.r ∧ t.fr.bins = s.fr.bins)
  | pulls (command : (∃ n, i = .pullFrame n) ∨ i = .pullFrame2) (configuration : SameConfiguration s t)
      (ingest : SameIngest s t) (fr : t.fr.w = s.fr.w ∧ t.fr.slots = s.fr.slots ∧ t.fr.bins = s.fr.bins)

/-- A pull writes the read cursor of the FrameRing and nothing else of the analyser. -/
theorem analyserWrite_pull {i : Instr} (command : (∃ n, i = .pullFrame n) ∨ i = .pullFrame2) (s : State) :
    AnalyserWrite i s (effect i s) := by
  have pull : isPull i.op = true := by obtain ⟨n, rfl⟩ | rfl := command <;> rfl
  obtain ⟨fr, words, he, hfr⟩ := effect_pull pull s
  have cursors : fr.w = s.fr.w ∧ fr.slots = s.fr.slots ∧ fr.bins = s.fr.bins := by
    obtain rfl | ⟨-, rfl⟩ := hfr <;> exact ⟨rfl, rfl, rfl⟩
  obtain ⟨configuration, ingest, same⟩ := sameAnalyser_respond { s with fr := fr } words
  rw [he]
  exact .pulls command configuration ingest (by rw [same]; exact cursors)

theorem effect_analyserWrite (i : Instr) (s : State) : AnalyserWrite i s (effect i s) := by
  cases i with
  | srSetSize ch lc => exact .stays (sameAnalyser_setRing s ch _)
  | srPush ch data => exact .stays (sameAnalyser_setRing s ch _)
  | srPop ch n => exact .stays (by simp [effect, afterSrPop, SameAnalyser, SameConfiguration, SameIngest])
  | prepare order rate => exact .prepares order rate rfl ⟨rfl, rfl⟩
  | setWindow type => exact .setsWindow type rfl ⟨rfl, rfl, rfl, rfl, rfl⟩ rfl
  | setOverlap frac => exact .setsOverlap frac rfl rfl ⟨rfl, rfl, rfl, rfl, rfl⟩ rfl
  | pushSamples data =>
    exact .ingests (.inl ⟨data, rfl⟩) ⟨afterPushSamples_cfg .., afterPushSamples_win ..⟩
      ⟨afterPushSamples_fr_r .., afterPushSamples_fr_bins ..⟩
  | pushSamples2 left right =>
    exact .ingests (.inr ⟨left, right, rfl⟩) ⟨afterPushSamples2_cfg .., afterPushSamples2_win ..⟩
      ⟨afterPushSamples2_fr_r .., afterPushSamples2_fr_bins ..⟩
  | pullFrame n => exact analyserWrite_pull (.inl ⟨n, rfl⟩) s
  | pullFrame2 => exact analyserWrite_pull (.inr rfl) s
  | _ => exact .stays (sameAnalyser_respond s _)

/-- An admitted command that one port accepts is issued on that port (R97). -/
theorem active_of_admitted {i : Instr} {s : State} {q : Port} (admitted : stopOf i s = none)
    (ports : i.op.row.ports = [q]) : s.active = q := by
  obtain ⟨accepted, -⟩ := admitted_races admitted
  simpa [ports] using accepted

/-- Settles O51: the writer of the ring and the writer of the analyser, each on the one port that accepts it. -/
theorem eachCursorHasOneWriter : Obligations.EachCursorHasOneWriter := by
  intro i s t answered
  obtain ⟨admitted, rfl⟩ := (exec_next_iff ..).mp answered
  have on {q : Port} (ports : i.op.row.ports = [q]) : s.active = q := active_of_admitted admitted ports
  intro setsRing prepares ingests
  refine ⟨fun q => ?_, ?_⟩
  · cases effect_ringWrite i s q with
    | stays h => simp [h]
    | resizes lc command =>
      have writer : setsRing q := ⟨on (by rw [command]; rfl), lc, command⟩
      simp [writer]
    | pushes data command h =>
      have writer : s.active = .p ∧ ∃ data, i = .srPush q data := ⟨on (by rw [command]; rfl), data, command⟩
      simp [h, writer, SampleRing.pushed]
    | pops n command h =>
      have writer : s.active = .d ∧ ∃ n, i = .srPop q n := ⟨on (by rw [command]; rfl), n, command⟩
      simp [h, writer, SampleRing.popped]
  · cases effect_analyserWrite i s with
    | stays h =>
      obtain ⟨⟨cfg, win⟩, ⟨acc0, acc1, writePos, fftbuf0, fftbuf1⟩, fr⟩ := h
      simp [cfg, win, acc0, acc1, writePos, fftbuf0, fftbuf1, fr]
    | prepares order rate command fftbuf =>
      have writer : prepares := ⟨on (by rw [command]; rfl), order, rate, command⟩
      simp [writer, fftbuf]
    | setsWindow type command ingest fr =>
      have writer : s.active = .g ∧ ∃ type, i = .setWindow type := ⟨on (by rw [command]; rfl), type, command⟩
      obtain ⟨acc0, acc1, writePos, fftbuf0, fftbuf1⟩ := ingest
      simp [writer, acc0, acc1, writePos, fftbuf0, fftbuf1, fr]
    | setsOverlap frac command win ingest fr =>
      have writer : s.active = .g ∧ ∃ frac, i = .setOverlap frac := ⟨on (by rw [command]; rfl), frac, command⟩
      obtain ⟨acc0, acc1, writePos, fftbuf0, fftbuf1⟩ := ingest
      simp [writer, win, acc0, acc1, writePos, fftbuf0, fftbuf1, fr]
    | ingests command configuration fr =>
      have ports : i.op.row.ports = [.d] := by obtain ⟨_, rfl⟩ | ⟨_, _, rfl⟩ := command <;> rfl
      have writer : ingests := ⟨on ports, command⟩
      simp [writer, configuration, fr]
    | pulls command configuration ingest fr =>
      have ports : i.op.row.ports = [.r] := by obtain ⟨_, rfl⟩ | rfl := command <;> rfl
      have writer : s.active = .r ∧ ((∃ n, i = .pullFrame n) ∨ i = .pullFrame2) := ⟨on ports, command⟩
      obtain ⟨acc0, acc1, writePos, fftbuf0, fftbuf1⟩ := ingest
      simp [writer, configuration, acc0, acc1, writePos, fftbuf0, fftbuf1, fr]

/-! ## The lead of the FrameRing (R301) -/

/-- A pull past R273's earlier tests, outside a reconfiguration, faults once `2^32` frames were pushed since `FR.r`. -/
theorem exec_frameSeqAlias {i : Instr} {s : State} (pull : isPull i.op = true) (needs : needsReady i.op = true)
    (data : isReconfig i.op = false) (reserved : reservedTest i s = none) (ready : s.cfg.state = .ready)
    (settled : Settled s) (late : 2 ^ 32 ≤ s.fr.trueLead) : exec i s = .fault .frameSeqAlias := by
  obtain ⟨operand, -, noSize⟩ := tests_of_needsReady needs s
  have state : stateTest i s = none := by simp [stateTest, ready, noSize]
  have hazard : hazardTest i s = some (.fault .frameSeqAlias) := by
    rw [hazardTest, races_of_settled data settled, if_neg Bool.false_ne_true, if_pos ⟨pull, late⟩]
  exact (exec_fault_iff ..).mpr (by simp [stopOf, reserved, operand, state, hazard])

/-- Settles O50, pull by pull. -/
theorem frameSequenceAliasFaults : Obligations.FrameSequenceAliasFaults := by
  intro s n active ready settled late
  have reserved {i : Instr} (ports : i.op.row.ports = [.r]) (variant : i.op.row.variant = some s.variant) :=
    reservedTest_noRing (i := i) (by simp [ports, active]) (.inr variant)
  exact ⟨fun mono => exec_frameSeqAlias rfl rfl rfl (reserved rfl (congrArg some mono.symm) rfl) ready settled late,
    fun stereo => exec_frameSeqAlias rfl rfl rfl (reserved rfl (congrArg some stereo.symm) rfl) ready settled late⟩

end Sys2Proof.Machine
end
